-- ==== Sys2Proof/Word.lean ====
section
/-! DEFINITION. The words of the block: bytes, 16-bit fields and the 64-bit decode key (spec 00 R11, 30 R90, R112). -/

namespace Sys2Proof

/-- One byte of memory, of a FIFO bank or of a setup packet. -/
abbrev Byte := BitVec 8

/-- A 16-bit field of a setup packet or of a descriptor. -/
abbrev Half := BitVec 16

/-- The decode key `K` of 30 R112: `b0` in bits 7..0 and so on up to `b7`. -/
abbrev Key := BitVec 64

end Sys2Proof
end

