-- ==== Sys2Proof/Syntax.lean ====
section
/-! DEFINITION. The instructions of the block: one constructor for each row of spec/opcode_table.json.
An instruction is a decoded setup packet (spec 00 R3(a)); its operands are the packet's fields. -/

namespace Sys2Proof

/-- Direction of a transfer (30 R93) and of an endpoint (10 R34): bit 0 is OUT, bit 1 is IN. -/
inductive Dir where
  /-- OUT, host to device. -/
  | toDevice
  /-- IN, device to host. -/
  | toHost
  deriving DecidableEq, Repr, Inhabited

/-- Recipient of a request (30 R95). -/
inductive Recipient where
  | device
  | interface
  | endpoint
  | other
  /-- The codes 4 to 31. -/
  | reserved (code : BitVec 5)
  deriving DecidableEq, Repr, Inhabited

/-- The setup packet as `core.req` holds it (10 R22, 30 R90). -/
structure Request where
  bmRequestType : Byte
  bRequest : Byte
  wValue : Half
  wIndex : Half
  wLength : Half
  deriving DecidableEq, Repr, Inhabited

/-- The twenty instructions of 30 R112, in the table's order. -/
inductive Instr where
  /-- GET_STATUS, 43 R235. -/
  | getStatus (dir : Dir) (recip : Recipient) (wValue wIndex wLength : Half)
  /-- CLEAR_FEATURE, 43 R237. -/
  | clearFeature (dir : Dir) (recip : Recipient) (wValue wIndex wLength : Half)
  /-- STD_RESERVED_02, 43 R239. -/
  | stdReserved02 (dir : Dir) (recip : Recipient) (wValue wIndex wLength : Half)
  /-- SET_FEATURE, 43 R238. -/
  | setFeature (dir : Dir) (recip : Recipient) (wValue wIndex wLength : Half)
  /-- STD_RESERVED_04, 43 R239. -/
  | stdReserved04 (dir : Dir) (recip : Recipient) (wValue wIndex wLength : Half)
  /-- SET_ADDRESS, 43 R240. -/
  | setAddress (dir : Dir) (recip : Recipient) (wValue wIndex wLength : Half)
  /-- GET_DESCRIPTOR.DEVICE, 43 R244: descriptor type 1. -/
  | getDescriptorDevice (dir : Dir) (recip : Recipient) (index : Byte) (wIndex wLength : Half)
  /-- GET_DESCRIPTOR.CONFIGURATION, 43 R244: descriptor type 2. -/
  | getDescriptorConfiguration (dir : Dir) (recip : Recipient) (index : Byte) (wIndex wLength : Half)
  /-- GET_DESCRIPTOR.STRING, 43 R244: descriptor type 3. -/
  | getDescriptorString (dir : Dir) (recip : Recipient) (index : Byte) (wIndex wLength : Half)
  /-- GET_DESCRIPTOR.OTHER, 44 R286: every other descriptor type. -/
  | getDescriptorOther (dir : Dir) (recip : Recipient) (descType index : Byte) (wIndex wLength : Half)
  /-- SET_DESCRIPTOR, 43 R245. -/
  | setDescriptor (dir : Dir) (recip : Recipient) (wValue wIndex wLength : Half)
  /-- GET_CONFIGURATION, 43 R246. -/
  | getConfiguration (dir : Dir) (recip : Recipient) (wValue wIndex wLength : Half)
  /-- SET_CONFIGURATION, 43 R250. -/
  | setConfiguration (dir : Dir) (recip : Recipient) (wValue wIndex wLength : Half)
  /-- GET_INTERFACE, 43 R253. -/
  | getInterface (dir : Dir) (recip : Recipient) (wValue wIndex wLength : Half)
  /-- SET_INTERFACE, 43 R254. -/
  | setInterface (dir : Dir) (recip : Recipient) (wValue wIndex wLength : Half)
  /-- SYNCH_FRAME, 43 R255. -/
  | synchFrame (dir : Dir) (recip : Recipient) (wValue wIndex wLength : Half)
  /-- STD_UNDEFINED, 43 R239: the standard codes 0x0D to 0xFF. -/
  | stdUndefined (dir : Dir) (recip : Recipient) (bRequest : Byte) (wValue wIndex wLength : Half)
  /-- CLASS, 43 R256: request type 1. -/
  | classRequest (dir : Dir) (recip : Recipient) (bRequest : Byte) (wValue wIndex wLength : Half)
  /-- VENDOR, 43 R232: request type 2. -/
  | vendorRequest (dir : Dir) (recip : Recipient) (bRequest : Byte) (wValue wIndex wLength : Half)
  /-- RESERVED_TYPE, 43 R256: request type 3. -/
  | reservedType (dir : Dir) (recip : Recipient) (bRequest : Byte) (wValue wIndex wLength : Half)
  deriving DecidableEq, Repr

end Sys2Proof
end

