-- ==== Sys2Proof/Config.lean ====
section
/-! DEFINITION. What the spec leaves to an implementation, to the application and to the host: the types of
their answers and moves, and the free values, which have no body (spec 00 R10, 60 R359, R365). Nothing can be
proved of a free value, so every statement holds whatever it is. -/

namespace Sys2Proof

/-! ## The application's answers -/

/-- The two memories a byte source may lie in (20 R62). -/
inductive Space where
  | rom
  | ram
  deriving DecidableEq, Repr, Inhabited

/-- A byte source (20 R62). Addresses are naturals. -/
structure Source where
  space : Space
  base : Nat
  deriving DecidableEq, Repr, Inhabited

/-- An endpoint-descriptor record (30 R104, 45 R300). -/
structure EndpointDesc where
  bEndpointAddress : Byte
  bmAttributes : Byte
  wMaxPacketSize : Half
  deriving DecidableEq, Repr, Inhabited

/-- What the vendor callback may answer (43 R232, 60 R365). Lengths are 0 to 65535 (42 R200, R205). -/
inductive VendorAnswer where
  /-- The callback does nothing to endpoint 0. -/
  | nothing
  /-- `In(src, len)`. -/
  | dataIn (src : Source) (len : Half)
  /-- `Out(len)`. -/
  | dataOut (len : Half)
  /-- An answer outside the three forms. -/
  | refusedForm
  deriving DecidableEq, Repr, Inhabited

/-! ## The host's transactions and the moves of a run -/

/-- The host transactions of 40 R150 to R157. -/
inductive HostTx where
  /-- `H_BUS_RESET`. -/
  | busReset
  /-- `H_SETUP(a, b0..b7)`; any other number of bytes breaks a host duty (60 R368). -/
  | setup (addr : BitVec 7) (bytes : List Byte)
  /-- `H_IN(a, e)`. -/
  | tokenIn (addr : BitVec 7) (ep : Nat)
  /-- `H_OUT(a, e, p)`. -/
  | tokenOut (addr : BitVec 7) (ep : Nat) (payload : List Byte)
  deriving DecidableEq, Repr, Inhabited

/-- A choice of the schedule (60 R359): which agent moves next. -/
inductive Move where
  /-- The engine takes a micro-step and then, before any other agent, at most `share` more. -/
  | engine (share : Nat)
  /-- The reset agent runs its handler. -/
  | resetAgent
  /-- The application calls `init` again, between tasks (46 R322). -/
  | callInit
  /-- The host issues a transaction. -/
  | host (tx : HostTx)
  deriving DecidableEq, Repr, Inhabited

/-! ## The open parameters of 00 R10 -/

/-- `SERIAL_ID_LEN` (00 R9). -/
abbrev serialIdLen : Nat := 12

/-- A hardware identifier, `Bytes(SERIAL_ID_LEN)` (00 R10). -/
abbrev HwId := Vector Byte serialIdLen

/-- `serial_map` as plain data (log 4): the texts listed for some identifiers, as character codes, and the text of
all others. There are finitely many identifiers, so every map has this form. -/
structure SerialMap where
  listed : List (HwId × List Byte)
  other : List Byte
  deriving DecidableEq, Repr, Inhabited

/-- The open parameters (log 4). The application's ROM image is State.rom, and its callbacks are State.env. -/
structure Params where
  romSize : Nat
  ramSize : Nat
  langidAddr : Nat
  serialAddr : Nat
  statusAddr : Nat
  serialIndex : Byte
  hwId : HwId
  serialMap : SerialMap
  vendorPresent : Bool
  deriving DecidableEq, Repr, Inhabited

/-- The endpoint-controller registers of 30 R115 to R124. -/
inductive Reg where
  | addr
  | epsel
  | epctl
  | epcfg0
  | epcfg1
  | epint
  | epbc
  | epdat
  | devint
  | devien
  | devcon
  deriving DecidableEq, Repr, Inhabited

/-- Where one write of EPCTL performs the action of EPEN, beside those of the two stall bits. -/
inductive EpenPlace where
  | beforeStallBits
  | betweenStallBits
  | afterStallBits
  deriving DecidableEq, Repr, Inhabited

namespace Config

/-- The open parameters as the machine is built (log 4). -/
opaque params : Params

/-- The byte of the application's ROM image at an address (log 5). -/
opaque romByte : Nat → Byte

/-- `REG_ADDR(name)` of 30 section 4; no rule depends on it. -/
opaque regAddr : Reg → Nat

/-- Whether one EPCTL write that sets both STALLRQ and STALLRQC performs STALL_REQ last; 30 R117 does not say
(log 17). -/
opaque epctlStallReqLast : Bool

/-- Where one EPCTL write performs EP_ENABLE or EP_DISABLE; 30 R117 does not say (log 17). -/
opaque epctlEpenPlace : EpenPlace

/-- The schedule's choice, for the value of the draw counter (log 1). -/
opaque move : Nat → Move

/-- The answer of `device_descriptor()` at a draw (log 3). -/
opaque deviceDescriptor : Nat → Option Nat

/-- The answer of `configuration_descriptor(configValue)` at a draw (log 3). -/
opaque configurationDescriptor : Nat → Byte → Option Nat

/-- The answer of `string_descriptor(value, index)` at a draw (log 3). -/
opaque stringDescriptor : Nat → Half → Half → Option Nat

/-- The answer of `vendor_request(request)` at a draw (log 3). -/
opaque vendorRequest : Nat → Request → VendorAnswer

/-- The answer of `configure_endpoints(configValue)` at a draw (log 3). -/
opaque configureEndpoints : Nat → Byte → List EndpointDesc

/-- The answer of `endpoint_in_byte(endpoint, first)` at a draw (log 3). -/
opaque endpointInByte : Nat → Nat → Bool → Byte

/-- A byte the spec leaves unconstrained: a FIFO_RD with nothing to read (40 R134), a setup byte of a packet that is
not 8 bytes (60 R368); for the draw counter (logs 3, 13). -/
opaque fifoByte : Nat → Byte

end Config

end Sys2Proof
end

