-- ==== Sys2Proof/WellFormed.lean ====
section
/-! DEFINITION. Which instructions an 8-byte setup packet can stand for: the operands that a row's own
`match` and `mask` leave to it (spec 30 R95, R96, R98, R112). -/

namespace Sys2Proof

/-- A reserved recipient has a code from 4 to 31 (30 R95). -/
def Recipient.wf : Recipient → Bool
  | .reserved code => decide (4 ≤ code.toNat)
  | _ => true

/-- The recipient every instruction carries. -/
def Instr.recip : Instr → Recipient
  | .getStatus _ r _ _ _ => r
  | .clearFeature _ r _ _ _ => r
  | .stdReserved02 _ r _ _ _ => r
  | .setFeature _ r _ _ _ => r
  | .stdReserved04 _ r _ _ _ => r
  | .setAddress _ r _ _ _ => r
  | .getDescriptorDevice _ r _ _ _ => r
  | .getDescriptorConfiguration _ r _ _ _ => r
  | .getDescriptorString _ r _ _ _ => r
  | .getDescriptorOther _ r _ _ _ _ => r
  | .setDescriptor _ r _ _ _ => r
  | .getConfiguration _ r _ _ _ => r
  | .setConfiguration _ r _ _ _ => r
  | .getInterface _ r _ _ _ => r
  | .setInterface _ r _ _ _ => r
  | .synchFrame _ r _ _ _ => r
  | .stdUndefined _ r _ _ _ _ => r
  | .classRequest _ r _ _ _ _ => r
  | .vendorRequest _ r _ _ _ _ => r
  | .reservedType _ r _ _ _ _ => r

/-- What a row needs beside the recipient: GET_DESCRIPTOR.OTHER has a type that no earlier row takes,
STD_UNDEFINED a code that no earlier row takes. -/
def Instr.codesWf : Instr → Bool
  | .getDescriptorOther _ _ t _ _ _ => decide (t.toNat = 0 ∨ 4 ≤ t.toNat)
  | .stdUndefined _ _ q _ _ _ => decide (0x0D ≤ q.toNat)
  | _ => true

/-- The instructions that some setup packet decodes to. -/
def Instr.wf (i : Instr) : Bool := i.recip.wf && i.codesWf

end Sys2Proof
end

