-- ==== Sys2Proof/Decode.lean ====
section
/-! DEFINITION. Decoding a setup packet (spec 30 R90 to R98, R112) and, after it, the encoder. Decoding is
total on any bytes: a packet that is not 8 bytes long is rejected by name. -/

namespace Sys2Proof

/-! ## Field positions -/

/-- Direction, `b0[7]` (30 R92, R93). -/
def dirOf (b0 : Byte) : Dir := if b0.getLsbD 7 then .toHost else .toDevice

/-- Request type, `b0[6:5]` (30 R92, R94). -/
def typeOf (b0 : Byte) : BitVec 2 := b0.extractLsb' 5 2

/-- Recipient, `b0[4:0]` (30 R92, R95). -/
def recipOf (b0 : Byte) : Recipient :=
  let code : BitVec 5 := b0.extractLsb' 0 5
  match code.toNat with
  | 0 => .device
  | 1 => .interface
  | 2 => .endpoint
  | 3 => .other
  | _ => .reserved code

/-- The low byte of a 16-bit field. -/
def loByte (w : Half) : Byte := w.extractLsb' 0 8

/-- The high byte of a 16-bit field. -/
def hiByte (w : Half) : Byte := w.extractLsb' 8 8

/-- `{hi, lo}`, the little-endian 16-bit field of two bytes (20 R65, 30 R91). -/
def half (lo hi : Byte) : Half := hi ++ lo

/-- The field assembly of 30 R91. -/
def assemble (b0 b1 b2 b3 b4 b5 b6 b7 : Byte) : Request where
  bmRequestType := b0
  bRequest := b1
  wValue := half b2 b3
  wIndex := half b4 b5
  wLength := half b6 b7

/-! ## The decoder -/

/-- GET_DESCRIPTOR is four rows, chosen by `wValue[15:8]` (30 R97, R98, R112). -/
def decodeGetDescriptor (r : Request) : Instr :=
  let dir := dirOf r.bmRequestType
  let recip := recipOf r.bmRequestType
  match (hiByte r.wValue).toNat with
  | 1 => .getDescriptorDevice dir recip (loByte r.wValue) r.wIndex r.wLength
  | 2 => .getDescriptorConfiguration dir recip (loByte r.wValue) r.wIndex r.wLength
  | 3 => .getDescriptorString dir recip (loByte r.wValue) r.wIndex r.wLength
  | _ => .getDescriptorOther dir recip (hiByte r.wValue) (loByte r.wValue) r.wIndex r.wLength

/-- The request codes of type Standard (30 R96). -/
def decodeStandard (r : Request) : Instr :=
  let dir := dirOf r.bmRequestType
  let recip := recipOf r.bmRequestType
  match r.bRequest.toNat with
  | 0x00 => .getStatus dir recip r.wValue r.wIndex r.wLength
  | 0x01 => .clearFeature dir recip r.wValue r.wIndex r.wLength
  | 0x02 => .stdReserved02 dir recip r.wValue r.wIndex r.wLength
  | 0x03 => .setFeature dir recip r.wValue r.wIndex r.wLength
  | 0x04 => .stdReserved04 dir recip r.wValue r.wIndex r.wLength
  | 0x05 => .setAddress dir recip r.wValue r.wIndex r.wLength
  | 0x06 => decodeGetDescriptor r
  | 0x07 => .setDescriptor dir recip r.wValue r.wIndex r.wLength
  | 0x08 => .getConfiguration dir recip r.wValue r.wIndex r.wLength
  | 0x09 => .setConfiguration dir recip r.wValue r.wIndex r.wLength
  | 0x0A => .getInterface dir recip r.wValue r.wIndex r.wLength
  | 0x0B => .setInterface dir recip r.wValue r.wIndex r.wLength
  | 0x0C => .synchFrame dir recip r.wValue r.wIndex r.wLength
  | _ => .stdUndefined dir recip r.bRequest r.wValue r.wIndex r.wLength

/-- The instruction a setup packet stands for: the request type first (30 R94, R112). Total. -/
def decodeRequest (r : Request) : Instr :=
  let dir := dirOf r.bmRequestType
  let recip := recipOf r.bmRequestType
  match (typeOf r.bmRequestType).toNat with
  | 0 => decodeStandard r
  | 1 => .classRequest dir recip r.bRequest r.wValue r.wIndex r.wLength
  | 2 => .vendorRequest dir recip r.bRequest r.wValue r.wIndex r.wLength
  | _ => .reservedType dir recip r.bRequest r.wValue r.wIndex r.wLength

/-- Why a list of bytes is no setup packet: its length is not 8 (30 R90). -/
inductive DecodeError where
  | tooShort
  | tooLong
  deriving DecidableEq, Repr

/-- Decode a setup packet as the host sends it, `b0` first. -/
def decode : List Byte → Except DecodeError Instr
  | [b0, b1, b2, b3, b4, b5, b6, b7] => .ok (decodeRequest (assemble b0 b1 b2 b3 b4 b5 b6 b7))
  | bs => if bs.length < 8 then .error .tooShort else .error .tooLong

/-- The request a decode key stands for: `K[7:0] = b0` up to `K[63:48] = wLength` (30 R112). -/
def keyRequest (K : Key) : Request where
  bmRequestType := K.extractLsb' 0 8
  bRequest := K.extractLsb' 8 8
  wValue := K.extractLsb' 16 16
  wIndex := K.extractLsb' 32 16
  wLength := K.extractLsb' 48 16

/-- The eight bytes of a decode key, the first at the lowest address. -/
def keyBytes (K : Key) : List Byte :=
  [K.extractLsb' 0 8, K.extractLsb' 8 8, K.extractLsb' 16 8, K.extractLsb' 24 8,
   K.extractLsb' 32 8, K.extractLsb' 40 8, K.extractLsb' 48 8, K.extractLsb' 56 8]

/-- The host's question of one opcode-table row: the bits of the instruction below `nbits` are those of
`w`, every bit above is 0. -/
def decodeTableWord (nbits w : Nat) : Option Instr :=
  match decode (keyBytes (BitVec.ofNat 64 (w % 2 ^ nbits))) with
  | .ok i => some i
  | .error _ => none

/-! ## The opcode table, scanned as 30 R112 says -/

/-- One row of spec/opcode_table.json: its mnemonic, its `match` and its `mask`. -/
structure OpcodeRow where
  mnemonic : String
  pattern : Key
  mask : Key
  deriving DecidableEq, Repr

/-- The standard rows of the table, in its order. -/
def standardRows : List OpcodeRow :=
  [⟨"GET_STATUS", 0x0000, 0xFF60⟩, ⟨"CLEAR_FEATURE", 0x0100, 0xFF60⟩,
   ⟨"STD_RESERVED_02", 0x0200, 0xFF60⟩, ⟨"SET_FEATURE", 0x0300, 0xFF60⟩,
   ⟨"STD_RESERVED_04", 0x0400, 0xFF60⟩, ⟨"SET_ADDRESS", 0x0500, 0xFF60⟩,
   ⟨"GET_DESCRIPTOR.DEVICE", 0x01000600, 0xFF00FF60⟩,
   ⟨"GET_DESCRIPTOR.CONFIGURATION", 0x02000600, 0xFF00FF60⟩,
   ⟨"GET_DESCRIPTOR.STRING", 0x03000600, 0xFF00FF60⟩,
   ⟨"GET_DESCRIPTOR.OTHER", 0x0600, 0xFF60⟩, ⟨"SET_DESCRIPTOR", 0x0700, 0xFF60⟩,
   ⟨"GET_CONFIGURATION", 0x0800, 0xFF60⟩, ⟨"SET_CONFIGURATION", 0x0900, 0xFF60⟩,
   ⟨"GET_INTERFACE", 0x0A00, 0xFF60⟩, ⟨"SET_INTERFACE", 0x0B00, 0xFF60⟩,
   ⟨"SYNCH_FRAME", 0x0C00, 0xFF60⟩, ⟨"STD_UNDEFINED", 0x0000, 0x0060⟩]

/-- The whole table of 30 R112, in its listed order. -/
def opcodeTable : List OpcodeRow :=
  standardRows ++
    [⟨"CLASS", 0x0020, 0x0060⟩, ⟨"VENDOR", 0x0040, 0x0060⟩, ⟨"RESERVED_TYPE", 0x0060, 0x0060⟩]

/-- `K & mask = match`. -/
def OpcodeRow.selects (row : OpcodeRow) (K : Key) : Bool := K &&& row.mask == row.pattern

/-- The mnemonic of the first row that selects the key, as 30 R112 scans the table. -/
def tableMnemonic (K : Key) : Option String :=
  (opcodeTable.find? (·.selects K)).map (·.mnemonic)

/-- The mnemonic of an instruction, as spec/opcode_table.json spells it. -/
def Instr.mnemonic : Instr → String
  | .getStatus .. => "GET_STATUS"
  | .clearFeature .. => "CLEAR_FEATURE"
  | .stdReserved02 .. => "STD_RESERVED_02"
  | .setFeature .. => "SET_FEATURE"
  | .stdReserved04 .. => "STD_RESERVED_04"
  | .setAddress .. => "SET_ADDRESS"
  | .getDescriptorDevice .. => "GET_DESCRIPTOR.DEVICE"
  | .getDescriptorConfiguration .. => "GET_DESCRIPTOR.CONFIGURATION"
  | .getDescriptorString .. => "GET_DESCRIPTOR.STRING"
  | .getDescriptorOther .. => "GET_DESCRIPTOR.OTHER"
  | .setDescriptor .. => "SET_DESCRIPTOR"
  | .getConfiguration .. => "GET_CONFIGURATION"
  | .setConfiguration .. => "SET_CONFIGURATION"
  | .getInterface .. => "GET_INTERFACE"
  | .setInterface .. => "SET_INTERFACE"
  | .synchFrame .. => "SYNCH_FRAME"
  | .stdUndefined .. => "STD_UNDEFINED"
  | .classRequest .. => "CLASS"
  | .vendorRequest .. => "VENDOR"
  | .reservedType .. => "RESERVED_TYPE"

/-! ## The encoder, from the same tables -/

/-- The direction bit (30 R93). -/
def Dir.bit : Dir → BitVec 1
  | .toDevice => 0
  | .toHost => 1

/-- The recipient code (30 R95). -/
def Recipient.code : Recipient → BitVec 5
  | .device => 0
  | .interface => 1
  | .endpoint => 2
  | .other => 3
  | .reserved c => c

/-- `bmRequestType` from its three fields (30 R92). -/
def requestTypeByte (dir : Dir) (type : BitVec 2) (recip : Recipient) : Byte :=
  dir.bit ++ type ++ recip.code

/-- A request of type Standard with the given code. -/
def standardRequest (dir : Dir) (recip : Recipient) (code : Byte) (wValue wIndex wLength : Half) :
    Request :=
  ⟨requestTypeByte dir 0 recip, code, wValue, wIndex, wLength⟩

/-- A GET_DESCRIPTOR request: the descriptor type in `wValue[15:8]`, the index in `wValue[7:0]` (30 R97). -/
def descriptorRequest (dir : Dir) (recip : Recipient) (descType index : Byte) (wIndex wLength : Half) :
    Request :=
  standardRequest dir recip 0x06 (half index descType) wIndex wLength

/-- The setup packet's fields for an instruction. -/
def Instr.request : Instr → Request
  | .getStatus d r v x l => standardRequest d r 0x00 v x l
  | .clearFeature d r v x l => standardRequest d r 0x01 v x l
  | .stdReserved02 d r v x l => standardRequest d r 0x02 v x l
  | .setFeature d r v x l => standardRequest d r 0x03 v x l
  | .stdReserved04 d r v x l => standardRequest d r 0x04 v x l
  | .setAddress d r v x l => standardRequest d r 0x05 v x l
  | .getDescriptorDevice d r i x l => descriptorRequest d r 1 i x l
  | .getDescriptorConfiguration d r i x l => descriptorRequest d r 2 i x l
  | .getDescriptorString d r i x l => descriptorRequest d r 3 i x l
  | .getDescriptorOther d r t i x l => descriptorRequest d r t i x l
  | .setDescriptor d r v x l => standardRequest d r 0x07 v x l
  | .getConfiguration d r v x l => standardRequest d r 0x08 v x l
  | .setConfiguration d r v x l => standardRequest d r 0x09 v x l
  | .getInterface d r v x l => standardRequest d r 0x0A v x l
  | .setInterface d r v x l => standardRequest d r 0x0B v x l
  | .synchFrame d r v x l => standardRequest d r 0x0C v x l
  | .stdUndefined d r q v x l => standardRequest d r q v x l
  | .classRequest d r q v x l => ⟨requestTypeByte d 1 r, q, v, x, l⟩
  | .vendorRequest d r q v x l => ⟨requestTypeByte d 2 r, q, v, x, l⟩
  | .reservedType d r q v x l => ⟨requestTypeByte d 3 r, q, v, x, l⟩

/-- The eight bytes of a request, in the order the host sends them (30 R90). -/
def Request.bytes (r : Request) : List Byte :=
  [r.bmRequestType, r.bRequest, loByte r.wValue, hiByte r.wValue, loByte r.wIndex, hiByte r.wIndex,
   loByte r.wLength, hiByte r.wLength]

/-- The bytes of an instruction. -/
def encode (i : Instr) : List Byte := i.request.bytes

end Sys2Proof
end

