-- ==== Sys2Proof/Machine/State.lean ====
section
/-! DEFINITION. The state of the block as plain data (spec 10 R20 to R45), its value at power-on (70 R390),
and the reasons a run stops (60 R354). Nothing here has a meaning of its own: every reader and writer is in
the other files of Machine/. -/

namespace Sys2Proof.Machine

/-! ## Why a run stops -/

/-- The fault codes of 60 R354. A code is recorded in State.faults by the micro-step that raises it, and every
later step answers it as its fault. Each one is safe: nothing is claimed of what follows. -/
inductive Fault where
  /-- F1 FIFO_OVERFLOW, raised by FIFO_WR (40 R135). Safe. -/
  | fifoOverflow
  /-- F2 BAD_EP0_SIZE, raised by the reset handler (46 R316). Safe. -/
  | badEp0Size
  /-- F3 EP0_NOT_SELECTED, raised by control_in and control_out (42 R209). Safe. -/
  | ep0NotSelected
  /-- F4 EP_RANGE, raised by SEL (40 R130). Safe. -/
  | epRange
  /-- F5 VENDOR_ACTION_REFUSED, raised by the vendor dispatch (43 R232). Safe. -/
  | vendorActionRefused
  /-- F6 OUT_OF_RANGE, raised by the memory accesses (00 R13). Safe. -/
  | outOfRange
  /-- F7 SERIAL_MAP_INVALID, raised by init (46 R320). Safe. -/
  | serialMapInvalid
  /-- F8 UNWRITTEN, raised by a read of core.req or of RAM that nothing has written (10 R22, 20 R63). Safe. -/
  | unwritten
  /-- F9 RESERVED_WRITE, raised by register writes (30 R119, R124), which no agent of a run issues. Safe. -/
  | reservedWrite
  deriving DecidableEq, Repr, Inhabited

/-- Why an instruction has no meaning. -/
inductive Refusal where
  /-- Answered by an arm of exec that has no meaning yet; no arm does. Safe. -/
  | notModelled (mnemonic : String)
  deriving DecidableEq, Repr

/-! ## Core protocol state (10 R21 to R26) -/

/-- DeviceState (10 R21, 41 R190). -/
inductive DeviceState where
  | default
  | address
  | configured
  deriving DecidableEq, Repr, Inhabited

/-- The `core` fields. `req` is `none` while unwritten, which is the spec's own value (10 R22). -/
structure CoreRegs where
  devState : DeviceState
  req : Option Request
  configuredMax : Byte
  ctrlMps : Byte
  activeConfig : Byte
  initialized : Bool
  deriving DecidableEq, Repr

/-! ## Endpoint controller (10 R33 to R39) -/

/-- The number of an endpoint, 0 to NUM_EP - 1 (00 R9). -/
abbrev EpNum := Fin 5

/-- The global fields `EPC` (10 R33). -/
structure Epc where
  sel : EpNum
  addr : BitVec 7
  addrEn : Bool
  eorst : Bool
  eorstEn : Bool
  attached : Bool
  deriving DecidableEq, Repr

/-- One endpoint: its configuration (10 R34), flags (R35), bank (R36) and committed packet (R37). -/
structure Ep where
  en : Bool
  type : BitVec 2
  dir : Dir
  size : BitVec 2
  rxstp : Bool
  txin : Bool
  rxout : Bool
  nakout : Bool
  nakin : Bool
  stallReq : Bool
  fifo : List Byte
  inq : Option (List Byte)
  deriving DecidableEq, Repr

/-- A disabled endpoint with nothing in it: its value at power-on and after a bus reset (70 R390). -/
def Ep.blank : Ep where
  en := false
  type := 0
  dir := .toDevice
  size := 0
  rxstp := false
  txin := false
  rxout := false
  nakout := false
  nakin := false
  stallReq := false
  fifo := []
  inq := none

/-- The endpoint register bank `EP[0..4]`. -/
structure Eps where
  ep0 : Ep
  ep1 : Ep
  ep2 : Ep
  ep3 : Ep
  ep4 : Ep
  deriving DecidableEq, Repr

/-! ## Memory -/

/-- Bytes by address, in canonical form: addresses strictly rising (Memory.wf). -/
abbrev Memory := List Host.Cell

/-! ## The engine's position (10 R40) -/

/-- The locals of `control_in` (42 R202). -/
structure CiVars where
  src : Source
  len : Nat
  i : Nat
  mps : Nat
  zlp : Bool
  deriving DecidableEq, Repr

/-- The lines of `control_in`, numbered as in 42 R202. -/
inductive CiLine where
  /-- Line 1, the endpoint-0 check. -/
  | entry
  /-- Line 2, return without a pending setup. -/
  | pending
  /-- Line 3, CONSUME_SETUP. -/
  | consume
  /-- Line 4, read ctrlMps. -/
  | readMps
  /-- Line 5, the ZLP decision. -/
  | decideZlp
  /-- Line 6, the clamp. -/
  | clamp
  /-- Line 7, i is 0. -/
  | zero
  /-- Line 8, the loop test. -/
  | loop
  /-- Line 9, the wait point WP_IN_DATA. -/
  | waitData
  /-- Line 10, early termination. -/
  | checkNak
  /-- Line 11, the packet size. -/
  | packetSize
  /-- Line 12 with this many bytes still to write, and the bytes of the packet taken from the source so far. -/
  | fill (left : Nat) (packet : List Byte)
  /-- Line 13, COMMIT_IN, with the bytes of the packet. -/
  | commit (packet : List Byte)
  /-- Line 14, whether a ZLP is due. -/
  | checkZlp
  /-- Line 15, the wait point WP_IN_ZLP. -/
  | waitZlp
  /-- Line 16, the ZLP. -/
  | commitZlp
  /-- Line 17, the wait point WP_IN_STATUS. -/
  | waitStatus
  /-- Line 18, RELEASE_OUT. -/
  | release
  /-- Line 19. -/
  | ret
  deriving DecidableEq, Repr

/-- The locals of `control_out` (42 R205). -/
structure CoVars where
  len : Nat
  got : Nat
  deriving DecidableEq, Repr

/-- The lines of `control_out`, numbered as in 42 R205. -/
inductive CoLine where
  /-- Line 1, the endpoint-0 check. -/
  | entry
  /-- Line 2, return without a pending setup. -/
  | pending
  /-- Line 3, CONSUME_SETUP. -/
  | consume
  /-- Line 4, the clamp. -/
  | clamp
  /-- Line 5, got is 0. -/
  | zero
  /-- Line 6, the loop test. -/
  | loop
  /-- Line 7, the wait point WP_OUT_DATA. -/
  | waitData
  /-- Line 8, early termination. -/
  | checkOut
  /-- Line 9, how many bytes to read. -/
  | packetSize
  /-- Line 10 with this many bytes still to read. -/
  | drain (left : Nat)
  /-- Line 11, RELEASE_OUT. -/
  | release
  /-- Line 12, the wait point WP_OUT_STATUS_READY. -/
  | waitReady
  /-- Line 13, the status packet. -/
  | commit
  /-- Line 14, the wait point WP_OUT_STATUS_DONE. -/
  | waitDone
  /-- Line 15. -/
  | ret
  deriving DecidableEq, Repr

/-- The lines of `configure_endpoint` (45 R301). -/
inductive CfgLine where
  /-- Line 2, the order test. -/
  | test
  /-- Line 3, SEL(n). -/
  | select
  /-- Line 4, EP_ENABLE. -/
  | enable
  /-- Line 5, EP_CONFIG. -/
  | program
  /-- Line 6, EP_RESET. -/
  | reset
  /-- Line 7, configuredMax is counted up. -/
  | count
  deriving DecidableEq, Repr

/-- The lines of `init` after its first (46 R320). -/
inductive InitLine where
  /-- Line 2, READ_HWID. -/
  | readId
  /-- Line 3, the character map. -/
  | mapId (id : HwId)
  /-- Lines 4 and 5, the check of the characters. -/
  | check (text : List Byte)
  /-- Line 7, initialized is set. -/
  | done
  /-- Line 8, EVENT_ENABLE. -/
  | eventEnable
  /-- Lines 9 and 10, ATTACH and the return, which is no micro-step of its own (46 R320, log 10). -/
  | attach
  deriving DecidableEq, Repr

/-- The endpoint being served and the bound `m` of 47 R332. -/
structure SvcVars where
  ep : EpNum
  bound : Nat
  deriving DecidableEq, Repr

/-- The lines of a task's step 2 for one selected endpoint (47 R332, R333). -/
inductive SvcLine where
  /-- Line 6, the direction. -/
  | direction
  /-- Line 7, whether the bank is free. -/
  | ready
  /-- Line 9, whether the FIFO window is open. -/
  | window (first : Bool)
  /-- Line 10, the callback for the next byte. -/
  | askByte (first : Bool)
  /-- Lines 11 and 12, the byte is written. -/
  | putByte (b : Byte)
  /-- Line 13, COMMIT_IN. -/
  | commit
  /-- Line 14a, whether a packet arrived. -/
  | arrived
  /-- Line 14b, the byte count. -/
  | count
  /-- Line 14d with `k` bytes read and `left` to read. -/
  | getByte (k left : Nat)
  /-- Line 14e, the event of byte `k`. -/
  | record (k left : Nat) (b : Byte)
  /-- Line 14f, the callback for byte `k`. -/
  | tellByte (k left : Nat) (b : Byte)
  /-- Line 14g, RELEASE_OUT. -/
  | release
  deriving DecidableEq, Repr

/-- The three cases of the resolver and no descriptor (44 R280), with what the resolver is given. -/
inductive DescriptorRow where
  | device
  | configuration
  | string (value index : Half)
  | other
  deriving DecidableEq, Repr

/-- A handler's own tests of the request, of core.devState and of a parameter, each with the fields of the request
it reads (43 R232, R235, R241, R244, R250; 44 R280). -/
inductive Check where
  /-- GET_STATUS, the direction (43 R235). -/
  | statusDirection (dir : Dir) (recip : Recipient) (wIndex : Half)
  /-- GET_STATUS, the recipient. -/
  | statusRecipient (recip : Recipient) (wIndex : Half)
  /-- GET_STATUS, the endpoint number. -/
  | statusNumber (wIndex : Half)
  /-- SET_ADDRESS, the legality check (43 R241). -/
  | address (dir : Dir) (recip : Recipient) (wValue : Half)
  /-- GET_DESCRIPTOR, the direction and the recipient (43 R244). -/
  | descriptor (dir : Dir) (recip : Recipient) (row : DescriptorRow)
  /-- GET_DESCRIPTOR, the resolver's case (44 R280). -/
  | resolve (row : DescriptorRow)
  /-- SET_CONFIGURATION, the legality check (43 R250). -/
  | configuration (dir : Dir) (recip : Recipient) (wValue : Half)
  /-- VENDOR, whether there is a callback (43 R232). -/
  | vendor
  deriving DecidableEq, Repr

/-- One statement of the engine's program with its locals: what one micro-step runs (00 R16). -/
inductive Stmt where
  /-- A line of `init`. -/
  | init (line : InitLine)
  /-- SEL(n). -/
  | sel (n : Nat)
  /-- MemWrite to RAM, one byte a micro-step (20 R67). -/
  | ramWrite (addr : Nat) (bytes : List Byte)
  /-- Line 2 of `task` (47 R331). -/
  | taskSetup
  /-- Line 3 of `task`, the snapshot of configuredMax (47 R332). -/
  | taskBound
  /-- Lines 4 and 5 of `task`: select endpoint `n` of those up to `bound`. -/
  | serveSelect (n bound : Nat)
  /-- A later line of a task's step 2. -/
  | serve (line : SvcLine) (v : SvcVars)
  /-- Line 15 of `task`. -/
  | taskReturn
  /-- Line 1 of `dispatch`, with the bytes read so far (43 R230). -/
  | dispatchRead (got : List Byte)
  /-- Line 2 of `dispatch`, core.req is written. -/
  | dispatchAssemble (got : List Byte)
  /-- Line 3 of `dispatch`, where the instruction in core.req is run. -/
  | classify
  /-- A handler's test. -/
  | check (c : Check)
  /-- Line 2 of the stall path (43 R233). -/
  | stallTest
  /-- Line 3 of the stall path, STALL_REQ. -/
  | stallRequest
  /-- Line 4 of the stall path, CONSUME_SETUP. -/
  | stallConsume
  /-- Line 5 of `dispatch`. -/
  | dispatchReturn
  /-- GET_STATUS reads EP[n].stallReq (43 R235). -/
  | readHalt (n : EpNum)
  /-- ADDR_SET (43 R242). -/
  | addrSet (a : BitVec 7)
  /-- ADDR_ENABLE (43 R243). -/
  | addrEnable
  /-- core.devState is written (43 R243, R252). -/
  | setDevState (d : DeviceState)
  /-- core.activeConfig is written (43 R251). -/
  | setActiveConfig (v : Byte)
  /-- CONFIGURE(core.activeConfig) joins the trace (43 R252). -/
  | recordConfigure
  /-- The callback `configure_endpoints` (43 R252). -/
  | askConfigure
  /-- A line of `configure_endpoint`. -/
  | configure (line : CfgLine) (ed : EndpointDesc)
  /-- The callback `device_descriptor` (44 R281). -/
  | askDevice
  /-- The callback `configuration_descriptor` (44 R282). -/
  | askConfiguration
  /-- The callback `string_descriptor` (44 R283). -/
  | askString (value index : Half)
  /-- The read of `bLength` (44 R281, R283). -/
  | readLength (base : Nat)
  /-- The read of the low byte of `wTotalLength` (44 R282). -/
  | readTotalLow (base : Nat)
  /-- The read of its high byte. -/
  | readTotalHigh (base : Nat) (low : Byte)
  /-- VENDOR(core.req) joins the trace (43 R232). -/
  | recordVendor
  /-- The callback `vendor_request` (43 R232). -/
  | askVendor
  /-- A line of `control_in`. -/
  | controlIn (line : CiLine) (v : CiVars)
  /-- A line of `control_out`. -/
  | controlOut (line : CoLine) (v : CoVars)
  deriving DecidableEq, Repr

/-- The sequencer position (10 R40). A continuation is the statements still to run, the next one first. -/
inductive Engine where
  | preInit
  | idle
  | busy (k : List Stmt)
  deriving DecidableEq, Repr

/-! ## Trace and call history -/

/-- The answers of 40 R157. -/
inductive Response where
  | data (p : List Byte)
  | ack
  | nak
  | stall
  | timeout
  deriving DecidableEq, Repr

/-- The events of 10 R45. -/
inductive Event where
  | transaction (tx : HostTx) (r : Response)
  | busReset
  | outByte (e : Nat) (b : Byte) (first : Bool)
  | vendor (req : Request)
  | configure (v : Byte)
  deriving DecidableEq, Repr

/-- A callback with its arguments (60 R365). -/
inductive Call where
  | deviceDescriptor
  | configurationDescriptor (configValue : Byte)
  | stringDescriptor (value index : Half)
  | vendorRequest (req : Request)
  | configureEndpoints (configValue : Byte)
  | endpointInByte (ep : Nat) (first : Bool)
  | endpointOutByte (ep : Nat) (b : Byte) (first : Bool)
  deriving DecidableEq, Repr

/-- What the environment has already chosen, oldest first, and the counter for the free values that stand in
where a list is empty. The model's own fields (logs 1 and 3). -/
structure Env where
  moves : List Move
  deviceDesc : List (Option Nat)
  configDesc : List (Option Nat)
  stringDesc : List (Option Nat)
  vendor : List VendorAnswer
  configure : List (List EndpointDesc)
  inByte : List Byte
  fifoByte : List Byte
  draws : Nat
  deriving DecidableEq, Repr

/-! ## The state -/

/-- The state of the block (10 R20), with the model's own fields last. -/
structure State where
  core : CoreRegs
  epc : Epc
  eps : Eps
  ctrlDir : Dir
  rom : Memory
  ram : Memory
  engine : Engine
  faults : List Fault
  trace : List Event
  par : Params
  env : Env
  calls : List Call
  burst : Nat
  deriving DecidableEq, Repr

/-- The cells of a ROM of `size` bytes with the given contents; a byte 0 is not listed (log 5). -/
def romCells (size : Nat) (byte : Nat → Byte) : Memory :=
  (List.range size).filterMap fun a => if byte a = 0 then none else some (a, byte a)

/-- Nothing chosen yet. -/
def Env.fresh : Env where
  moves := []
  deviceDesc := []
  configDesc := []
  stringDesc := []
  vendor := []
  configure := []
  inByte := []
  fifoByte := []
  draws := 0

/-- The state after power-on, before `init` (70 R390, R391). -/
def State.reset : State where
  core :=
    { devState := .default, req := none, configuredMax := 0, ctrlMps := 0, activeConfig := 0,
      initialized := false }
  epc :=
    { sel := 0, addr := 0, addrEn := false, eorst := false, eorstEn := false, attached := false }
  eps := ⟨Ep.blank, Ep.blank, Ep.blank, Ep.blank, Ep.blank⟩
  ctrlDir := .toDevice
  rom := romCells Config.params.romSize Config.romByte
  ram := []
  engine := .preInit
  faults := []
  trace := []
  par := Config.params
  env := Env.fresh
  calls := []
  burst := 0

end Sys2Proof.Machine
end

