-- ==== Sys2Proof/Machine/Operands.lean ====
section
/-! DEFINITION. The operand forms: how fields of requests, descriptors and endpoint records are read
(spec 30 R97 to R111, 45 R300, R303), the byte sources' layout (30 R102, R103) and the character check of init. -/

namespace Sys2Proof.Machine

/-! ## Sizes -/

/-- `BANK(c) = 8 << c` bytes for a size class (00 R9, 30 R107). -/
def bankBytes (c : BitVec 2) : Nat := 8 <<< c.toNat

/-- The size class of a maximum packet size; all 16 bits are compared (30 R107, 45 R303). -/
def sizeClass (s : Half) : BitVec 2 :=
  if s.toNat ≤ 8 then 0 else if s.toNat ≤ 16 then 1 else if s.toNat ≤ 32 then 2 else 3

/-- `EP0_MPS_SET` (00 R9). -/
def ep0SizeLegal (mps : Byte) : Bool :=
  mps == 8 || mps == 16 || mps == 32 || mps == 64

/-! ## Endpoint-descriptor records (30 R104 to R106) -/

/-- Endpoint number, `bEndpointAddress[3:0]`. -/
def edNumber (ed : EndpointDesc) : Nat := (ed.bEndpointAddress.extractLsb' 0 4).toNat

/-- Direction, `bEndpointAddress[7]`. -/
def edDir (ed : EndpointDesc) : Dir :=
  if ed.bEndpointAddress.getLsbD 7 then .toHost else .toDevice

/-- Transfer type, `bmAttributes[1:0]`. -/
def edType (ed : EndpointDesc) : BitVec 2 := ed.bmAttributes.extractLsb' 0 2

/-! ## Fields of requests -/

/-- GET_STATUS's endpoint number, `wIndex[3:0]` (30 R109). -/
def statusEndpoint (wIndex : Half) : Nat := (wIndex.extractLsb' 0 4).toNat

/-- SET_ADDRESS's address, `wValue[6:0]` (30 R110). -/
def newAddress (wValue : Half) : BitVec 7 := wValue.extractLsb' 0 7

/-- The status word of an endpoint: its halt bit as bit 0 (30 R108). -/
def haltWord (h : Bool) : Half := if h then 1 else 0

/-- SET_ADDRESS is accepted: OUT, Device, in Default (43 R241). -/
def setAddressLegal (dir : Dir) (recip : Recipient) (d : DeviceState) : Bool :=
  dir == .toDevice && recip == .device && d == .default

/-- SET_CONFIGURATION is accepted: OUT, Device, in Address, the whole `wValue` at most 1 (43 R250, 30 R111). -/
def setConfigurationLegal (dir : Dir) (recip : Recipient) (wValue : Half) (d : DeviceState) : Bool :=
  dir == .toDevice && recip == .device && d == .address && decide (wValue.toNat ≤ 1)

/-- GET_DESCRIPTOR goes on to the resolver: IN, and not for an endpoint (43 R244). -/
def getDescriptorLegal (dir : Dir) (recip : Recipient) : Bool :=
  dir == .toHost && recip != .endpoint

/-! ## The core's own descriptors -/

/-- The built-in language-ID descriptor (10 R30, 30 R102). -/
def langidBytes : List Byte := [0x04, 0x03, 0x09, 0x04]

/-- `SERIAL_CHARS` (00 R9). -/
def serialChars : Nat := 40

/-- The length of the serial descriptor, `2 + 2 * SERIAL_CHARS` (30 R103). -/
def serialLength : Nat := 2 + 2 * serialChars

/-- The serial buffer's bytes for the characters (30 R103, 46 R321). -/
def serialBytes (text : List Byte) : List Byte :=
  [0x52, 0x03] ++ text.flatMap fun c => [c, 0x00]

/-- `serial_map(id)`, as character codes (00 R10, 46 R320 line 3). -/
def serialText (m : SerialMap) (id : HwId) : List Byte :=
  ((m.listed.find? fun c => decide (c.1 = id)).map fun c => c.2).getD m.other

/-- `0-9`, `A-F` or `a-f` as a character code (00 R10). -/
def isHexChar (c : Byte) : Bool :=
  (0x30 ≤ c.toNat && c.toNat ≤ 0x39) || (0x41 ≤ c.toNat && c.toNat ≤ 0x46)
    || (0x61 ≤ c.toNat && c.toNat ≤ 0x66)

/-- The constraint on `serial_map`'s result (46 R320, lines 4 and 5). -/
def serialTextLegal (text : List Byte) : Bool := text.length == serialChars && text.all isHexChar

end Sys2Proof.Machine
end

