-- ==== Sys2Proof/Machine/Flags.lean ====
section
/-! DEFINITION. The flags an endpoint derives from its state (spec 10 R38), the zero-length-packet decision
(42 R201), the address match (40 R150) and what enables the agents (46 R315, 60 R359). -/

namespace Sys2Proof.Machine

/-- `byteCount(n)` of 10 R38. -/
def Ep.byteCount (e : Ep) : Nat := e.fifo.length

/-- `rwal(n)` of 10 R38; `bidirectional` holds for endpoint 0. -/
def Ep.windowOpen (e : Ep) (bidirectional : Bool) : Bool :=
  if e.dir == .toHost || bidirectional then
    e.en && e.txin && decide (e.fifo.length < bankBytes e.size)
  else
    e.en && e.rxout && decide (0 < e.fifo.length)

/-- `with_zlp` of 42 R201, from the caller's own length. -/
def zlpDue (wLength len mps : Nat) : Bool := decide (len < wLength) && decide (len % mps = 0)

/-- `devAddr` of 40 R150(c). -/
def Epc.deviceAddress (c : Epc) : BitVec 7 := if c.addrEn then c.addr else 0

/-- The reset agent is enabled (46 R315). -/
def Epc.resetEnabled (c : Epc) : Bool := c.eorst && c.eorstEn

/-- No fault is recorded and the reset agent is not enabled, so the engine has its move (60 R355, R359). -/
def State.engineEnabled (s : State) : Bool := s.faults.isEmpty && !s.epc.resetEnabled

end Sys2Proof.Machine
end

