-- ==== Sys2Proof/Machine/Ops.lean ====
section
/-! DEFINITION. The named operations over memory, endpoints and registers: memory accesses (spec 00 R13,
20 R60 to R67), the endpoint-controller primitives (40 R130 to R148), the callbacks and free draws
(60 R365), recording a fault (60 R355), and taking the bus-reset event (46 R316, 60 R360). -/

namespace Sys2Proof.Machine

/-! ## Memory -/

/-- The canonical form: addresses strictly rising. -/
def Memory.wf : Memory → Bool
  | [] => true
  | c :: m => m.all (fun d => decide (c.1 < d.1)) && Memory.wf m

/-- The byte listed for an address. -/
def Memory.get? (a : Nat) : Memory → Option Byte
  | [] => none
  | c :: m => if c.1 = a then some c.2 else Memory.get? a m

/-- The memory with one byte written. -/
def Memory.set (a : Nat) (b : Byte) : Memory → Memory
  | [] => [(a, b)]
  | c :: m =>
    if a < c.1 then (a, b) :: c :: m
    else if a = c.1 then (a, b) :: m
    else c :: Memory.set a b m

/-- The memory with a run of bytes written, the first at the lowest address. -/
def Memory.setAll (a : Nat) (bs : List Byte) (m : Memory) : Memory :=
  match bs with
  | [] => m
  | b :: bs => Memory.setAll (a + 1) bs (Memory.set a b m)

/-- What an unlisted RAM address reads as: nothing, because nothing has written it (20 R63, fault F8). -/
def ramUnlisted : Option Byte := none

/-- What an unlisted ROM address reads as; every image is representable (log 5). -/
def romUnlisted : Byte := 0

/-- The LANGID constant's byte at an address, if it lies there (10 R30). -/
def State.langidByte (s : State) (a : Nat) : Option Byte :=
  if s.par.langidAddr ≤ a then langidBytes[a - s.par.langidAddr]? else none

/-- The ROM's byte at an address below ROM_SIZE: the LANGID constant, or the application's image. -/
def State.romByteAt (s : State) (a : Nat) : Byte :=
  (s.langidByte a).getD ((Memory.get? a s.rom).getD romUnlisted)

/-- `MemRead(ROM, a, 1)` (00 R13, 20 R61). -/
def State.romRead (s : State) (a : Nat) : Except Fault Byte :=
  if a < s.par.romSize then .ok (s.romByteAt a) else .error .outOfRange

/-- `MemRead(RAM, a, 1)` (00 R13, 20 R63). -/
def State.ramRead (s : State) (a : Nat) : Except Fault Byte :=
  if a < s.par.ramSize then
    match (Memory.get? a s.ram).or ramUnlisted with
    | some b => .ok b
    | none => .error .unwritten
  else .error .outOfRange

/-- `MemWrite(RAM, a, 1, b)` (00 R13). -/
def State.ramWriteByte (s : State) (a : Nat) (b : Byte) : Except Fault State :=
  if a < s.par.ramSize then .ok { s with ram := Memory.set a b s.ram } else .error .outOfRange

/-- `ByteAt(src, i)` (20 R62). -/
def State.byteAt (s : State) (src : Source) (i : Nat) : Except Fault Byte :=
  match src.space with
  | .rom => s.romRead (src.base + i)
  | .ram => s.ramRead (src.base + i)

/-! ## Endpoints -/

/-- `EP[n]`. -/
def Eps.get (es : Eps) (n : EpNum) : Ep :=
  match n with
  | 0 => es.ep0
  | 1 => es.ep1
  | 2 => es.ep2
  | 3 => es.ep3
  | 4 => es.ep4

/-- The bank of endpoint registers with one replaced. -/
def Eps.set (es : Eps) (n : EpNum) (e : Ep) : Eps :=
  match n with
  | 0 => { es with ep0 := e }
  | 1 => { es with ep1 := e }
  | 2 => { es with ep2 := e }
  | 3 => { es with ep3 := e }
  | 4 => { es with ep4 := e }

/-- `EP[n]` of a state. -/
def State.ep (s : State) (n : EpNum) : Ep := s.eps.get n

/-- A state with `EP[n]` replaced. -/
def State.setEp (s : State) (n : EpNum) (e : Ep) : State := { s with eps := s.eps.set n e }

/-- `EP[EPC.sel]` (00 R12). -/
def State.selected (s : State) : Ep := s.ep s.epc.sel

/-- A state with `EP[EPC.sel]` replaced. -/
def State.setSelected (s : State) (e : Ep) : State := s.setEp s.epc.sel e

/-- An event joins the trace (10 R45). -/
def State.record (s : State) (e : Event) : State := { s with trace := s.trace ++ [e] }

/-! ## Primitives on the selected endpoint -/

/-- `SEL(n)` (40 R130). -/
def State.select (s : State) (n : Nat) : Except Fault State :=
  if h : n < 5 then .ok { s with epc := { s.epc with sel := ⟨n, h⟩ } } else .error .epRange

/-- `EP_ENABLE` (40 R131). -/
def State.epEnable (s : State) : State := s.setSelected { s.selected with en := true }

/-- `EP_DISABLE` (40 R131): the endpoint keeps its configuration only. -/
def State.epDisable (s : State) : State :=
  s.setSelected
    { Ep.blank with type := s.selected.type, dir := s.selected.dir, size := s.selected.size }

/-- `EP_CONFIG(type, dir, size)` (40 R132). -/
def State.epConfig (s : State) (type : BitVec 2) (dir : Dir) (size : BitVec 2) : State :=
  s.setSelected { s.selected with type := type, dir := dir, size := size }

/-- An endpoint's FIFO state after a reset (40 R133). -/
def Ep.fifoReset (e : Ep) : Ep :=
  { e with
    fifo := [], inq := none, rxstp := false, rxout := false, nakout := false, nakin := false,
    stallReq := false, txin := e.en }

/-- `EP_RESET` (40 R133); on endpoint 0 it also turns the control direction to OUT. -/
def State.epReset (s : State) : State :=
  { s.setSelected s.selected.fifoReset with
    ctrlDir := if s.epc.sel = 0 then .toDevice else s.ctrlDir }

/-- `FIFO_WR(b)` (40 R135). -/
def State.fifoWrite (s : State) (b : Byte) : Except Fault State :=
  let e := s.selected
  if !e.en || e.rxstp then .ok s
  else if e.fifo.length < bankBytes e.size ∧ e.inq = none then
    .ok (s.setSelected { e with fifo := e.fifo ++ [b] })
  else .error .fifoOverflow

/-- `RWAL` of the selected endpoint (40 R136). -/
def State.windowOpen (s : State) : Bool := s.selected.windowOpen (decide (s.epc.sel = 0))

/-- `COMMIT_IN` (40 R137). -/
def State.commitIn (s : State) : State :=
  let e := s.selected
  if e.en && e.txin then s.setSelected { e with inq := some e.fifo, fifo := [], txin := false } else s

/-- The commit of a packet that is not in the bank, which keeps what it holds: the zero-length packets of 42 R202 line 16 and
R205 line 13, and line 13 of `control_in` where an OUT packet is in the bank. DESIGN CHOICE (logs 20 and 21): 42 R207 and R208
call the packet zero-length and leave the OUT in the bank, and 42 R210 keeps the OUT's bytes from the host, where 40 R137
would send what is in the bank; for an empty packet and an empty bank the two are one. -/
def State.commitApart (s : State) (packet : List Byte) : State :=
  let e := s.selected
  if e.en && e.txin then s.setSelected { e with inq := some packet, txin := false } else s

/-- `RELEASE_OUT` (40 R138). -/
def State.releaseOut (s : State) : State :=
  let e := s.selected
  if e.en && e.rxout then s.setSelected { e with fifo := [], rxout := false } else s

/-- `CONSUME_SETUP` (40 R139). -/
def State.consumeSetup (s : State) : State :=
  let e := s.selected
  if e.en && e.rxstp then s.setSelected { e with fifo := [], rxstp := false, txin := true } else s

/-- `CLR_NAKOUT` (40 R140). -/
def State.clearNakout (s : State) : State := s.setSelected { s.selected with nakout := false }

/-- `CLR_NAKIN` (40 R140). -/
def State.clearNakin (s : State) : State := s.setSelected { s.selected with nakin := false }

/-- `STALL_REQ` (40 R141). -/
def State.stallRequest (s : State) : State :=
  if s.selected.en then s.setSelected { s.selected with stallReq := true } else s

/-- `STALL_CLR` (40 R142). -/
def State.stallClear (s : State) : State := s.setSelected { s.selected with stallReq := false }

/-! ## Primitives on the global fields -/

/-- `ADDR_SET(a)` (40 R143). -/
def State.addrSet (s : State) (a : BitVec 7) : State :=
  { s with epc := { s.epc with addr := a, addrEn := false } }

/-- `ADDR_ENABLE` (40 R144). -/
def State.addrEnable (s : State) : State := { s with epc := { s.epc with addrEn := true } }

/-- `EVENT_ACK` (40 R145). -/
def State.eventAck (s : State) : State := { s with epc := { s.epc with eorst := false } }

/-- `EVENT_ENABLE` (40 R146). -/
def State.eventEnable (s : State) : State := { s with epc := { s.epc with eorstEn := true } }

/-- `ATTACH` (40 R147). -/
def State.attach (s : State) : State := { s with epc := { s.epc with attached := true } }

/-- `READ_HWID`: SERIAL_ID_LEN bytes (40 R148). -/
def State.readHwid (s : State) : HwId := s.par.hwId

/-! ## Free draws and callbacks

Each takes the oldest answer the environment has chosen; where none is chosen it takes the free value of Config
for the draw counter, which it advances (logs 1, 3). A callback also joins the call history (60 R365). -/

/-- The schedule's next choice (60 R359). -/
def State.nextMove (s : State) : Move × State :=
  match s.env.moves with
  | m :: ms => (m, { s with env := { s.env with moves := ms } })
  | [] => (Config.move s.env.draws, { s with env := { s.env with draws := s.env.draws + 1 } })

/-- A byte nothing constrains (40 R134). -/
def State.drawByte (s : State) : Byte × State :=
  match s.env.fifoByte with
  | b :: bs => (b, { s with env := { s.env with fifoByte := bs } })
  | [] => (Config.fifoByte s.env.draws, { s with env := { s.env with draws := s.env.draws + 1 } })

/-- `n` bytes nothing constrains, the first drawn first. -/
def State.drawBytes (s : State) (n : Nat) : List Byte × State :=
  match n with
  | 0 => ([], s)
  | n + 1 =>
    let (b, t) := s.drawByte
    let (bs, u) := State.drawBytes t n
    (b :: bs, u)

/-- A callback joins the call history. -/
def State.called (s : State) (c : Call) : State := { s with calls := s.calls ++ [c] }

/-- `device_descriptor()`. -/
def State.callDeviceDescriptor (s : State) : Option Nat × State :=
  let t := s.called .deviceDescriptor
  match s.env.deviceDesc with
  | a :: as => (a, { t with env := { t.env with deviceDesc := as } })
  | [] =>
    (Config.deviceDescriptor s.env.draws, { t with env := { t.env with draws := s.env.draws + 1 } })

/-- `configuration_descriptor(configValue)`. -/
def State.callConfigurationDescriptor (s : State) (v : Byte) : Option Nat × State :=
  let t := s.called (.configurationDescriptor v)
  match s.env.configDesc with
  | a :: as => (a, { t with env := { t.env with configDesc := as } })
  | [] =>
    (Config.configurationDescriptor s.env.draws v,
      { t with env := { t.env with draws := s.env.draws + 1 } })

/-- `string_descriptor(value, index)`. -/
def State.callStringDescriptor (s : State) (value index : Half) : Option Nat × State :=
  let t := s.called (.stringDescriptor value index)
  match s.env.stringDesc with
  | a :: as => (a, { t with env := { t.env with stringDesc := as } })
  | [] =>
    (Config.stringDescriptor s.env.draws value index,
      { t with env := { t.env with draws := s.env.draws + 1 } })

/-- `vendor_request(request)`. DESIGN CHOICE (log 22): like every callback it writes no RAM; the spec gives RAM outside the
core's two regions to the application and names no writer of it. -/
def State.callVendorRequest (s : State) (r : Request) : VendorAnswer × State :=
  let t := s.called (.vendorRequest r)
  match s.env.vendor with
  | a :: as => (a, { t with env := { t.env with vendor := as } })
  | [] =>
    (Config.vendorRequest s.env.draws r, { t with env := { t.env with draws := s.env.draws + 1 } })

/-- `configure_endpoints(configValue)`. -/
def State.callConfigureEndpoints (s : State) (v : Byte) : List EndpointDesc × State :=
  let t := s.called (.configureEndpoints v)
  match s.env.configure with
  | a :: as => (a, { t with env := { t.env with configure := as } })
  | [] =>
    (Config.configureEndpoints s.env.draws v,
      { t with env := { t.env with draws := s.env.draws + 1 } })

/-- `endpoint_in_byte(endpoint, first)`. -/
def State.callEndpointInByte (s : State) (n : Nat) (first : Bool) : Byte × State :=
  let t := s.called (.endpointInByte n first)
  match s.env.inByte with
  | a :: as => (a, { t with env := { t.env with inByte := as } })
  | [] =>
    (Config.endpointInByte s.env.draws n first,
      { t with env := { t.env with draws := s.env.draws + 1 } })

/-- `endpoint_out_byte(endpoint, byte, first)`, which returns nothing. -/
def State.callEndpointOutByte (s : State) (n : Nat) (b : Byte) (first : Bool) : State :=
  s.called (.endpointOutByte n b first)

/-- `FIFO_RD` (40 R134): the front byte, or any byte where there is none to read. -/
def State.fifoRead (s : State) : Byte × State :=
  match s.selected.en, s.selected.fifo with
  | true, b :: bs => (b, s.setSelected { s.selected with fifo := bs })
  | _, _ => s.drawByte

/-! ## Faults -/

/-- The record of a fault (60 R355): the state is the one before the micro-step, and the code joins `faults`. -/
def State.raise (s : State) (f : Fault) : State :=
  { s with faults := if f ∈ s.faults then s.faults else s.faults ++ [f] }

/-- The state after a micro-step, which is the record of its fault where it raised one. -/
def State.orRaise (s : State) : Except Fault State → State
  | .ok t => t
  | .error f => s.raise f

/-! ## The engine's position -/

/-- The position with a continuation left to run; with none left the engine is between two tasks. -/
def Engine.ofCont : List Stmt → Engine
  | [] => .idle
  | k => .busy k

/-- The engine goes on at a continuation. -/
def State.goto (s : State) (k : List Stmt) : State := { s with engine := Engine.ofCont k }

/-! ## Taking the bus-reset event (46 R316, R317; 60 R360, R361) -/

/-- Abandonment: an engine inside a poll cycle loses its continuation (46 R317). This is all there is of a return
from the event: the engine goes on at `Idle` (60 R361). -/
def State.abandon (s : State) : State :=
  match s.engine with
  | .busy _ => { s with engine := .idle }
  | _ => s

/-- Lines 7 to 15 of 46 R316, once the packet size is known to be legal. -/
def State.restart (s : State) (mps : Byte) : State :=
  let t := { s with epc := { s.epc with sel := 0 } }
  let u := (t.epEnable.epConfig 0 .toDevice (sizeClass (mps.setWidth 16))).epReset
  ({ u with
      core :=
        { u.core with ctrlMps := mps, devState := .default, activeConfig := 0, configuredMax := 0 } }).abandon

/-- One whole run of the reset handler, one atomic step (46 R315, R316). A fault leaves the state before the run. -/
def State.resetHandler (s : State) : State :=
  let (d, t) := s.eventAck.callDeviceDescriptor
  match d with
  | none => t.abandon
  | some d =>
    match t.romRead (d + 7) with
    | .error f => s.raise f
    | .ok mps => if ep0SizeLegal mps then t.restart mps else s.raise .badEp0Size

end Sys2Proof.Machine
end

