-- ==== Sys2Proof/Machine/Configurator.lean ====
section
/-! DEFINITION. The endpoint configurator: one micro-step of `configure_endpoint` (spec 45 R301, R302). -/

namespace Sys2Proof.Machine

/-- One micro-step of `configure_endpoint(ed)` at a line, before the continuation `k`. -/
def State.configureStep (s : State) (line : CfgLine) (ed : EndpointDesc) (k : List Stmt) : State :=
  match line with
  | .test =>
    if edNumber ed = s.core.configuredMax.toNat + 1 then s.goto (.configure .select ed :: k)
    else s.goto k
  | .select => s.orRaise ((s.select (edNumber ed)).map (·.goto (.configure .enable ed :: k)))
  | .enable => s.epEnable.goto (.configure .program ed :: k)
  | .program =>
    (s.epConfig (edType ed) (edDir ed) (sizeClass ed.wMaxPacketSize)).goto (.configure .reset ed :: k)
  | .reset => s.epReset.goto (.configure .count ed :: k)
  | .count => { s.goto k with core := { s.core with configuredMax := s.core.configuredMax + 1 } }

end Sys2Proof.Machine
end

