-- ==== Sys2Proof/Machine/Transfer.lean ====
section
/-! DEFINITION. The endpoint-0 transfer engine: one micro-step of `control_in` (spec 42 R202) and of
`control_out` (42 R205). `none` is a hold: the engine has no move (60 R358). -/

namespace Sys2Proof.Machine

/-- The first statement of `control_in(src, len)`. -/
def controlIn (src : Source) (len : Nat) : Stmt :=
  .controlIn .entry { src := src, len := len, i := 0, mps := 0, zlp := false }

/-- The first statement of `control_out(len)`. -/
def controlOut (len : Nat) : Stmt := .controlOut .entry { len := len, got := 0 }

/-- Line 12 with `n` bytes to write after those of `packet`; none to write leaves line 13. -/
def ciFill (n : Nat) (packet : List Byte) : CiLine := if n = 0 then .commit packet else .fill n packet

/-- Line 10 with `n` bytes to read; none to read leaves line 11. -/
def coDrain (n : Nat) : CoLine := if n = 0 then .release else .drain n

/-- One byte of line 12: `FIFO_WR`. DESIGN CHOICE (log 21): where an OUT packet has been accepted meanwhile the bank is the
host's, and the byte stays with the packet of the engine's position; 40 R135 would append it to the OUT's bytes, or raise
F1. -/
def State.sendByte (s : State) (b : Byte) : Except Fault State :=
  if (s.ep 0).rxout then .ok s else s.fifoWrite b

/-- Line 13: `COMMIT_IN`. DESIGN CHOICE (log 21): where an OUT packet has been accepted meanwhile, a control read's packet is
discarded (42 R204, 70 R409, 92 D38), and in a request of direction OUT the packet's own bytes are committed beside the OUT
packet in the bank (42 R202, R210); 40 R137 would send what the bank holds. -/
def State.sendPacket (s : State) (packet : List Byte) : State :=
  if (s.ep 0).rxout then (if s.ctrlDir = .toHost then s else s.commitApart packet) else s.commitIn

/-- One byte of line 10 of `control_out`: FIFO_RD and its event (42 R206). -/
def State.receiveByte (s : State) (first : Bool) : State :=
  let (b, t) := s.fifoRead
  t.record (.outByte 0 b first)

/-- One micro-step of `control_in` at a line, before the continuation `k` of its caller. Lines 12 and 13
leave an OUT packet that has been accepted meanwhile alone (log 21), and line 16 commits a zero-length packet whatever the bank
holds (log 20). -/
def State.controlInStep (s : State) (line : CiLine) (v : CiVars) (k : List Stmt) : Option State :=
  let at_ (l : CiLine) (v : CiVars) (t : State) : Option State := some (t.goto (.controlIn l v :: k))
  match line with
  | .entry => if s.epc.sel = 0 then at_ .pending v s else some (s.raise .ep0NotSelected)
  | .pending => if (s.ep 0).rxstp then at_ .consume v s else some (s.goto k)
  | .consume => at_ .readMps v s.consumeSetup
  | .readMps => at_ .decideZlp { v with mps := s.core.ctrlMps.toNat } s
  | .decideZlp =>
    match s.core.req with
    | none => some (s.raise .unwritten)
    | some r => at_ .clamp { v with zlp := zlpDue r.wLength.toNat v.len v.mps } s
  | .clamp =>
    match s.core.req with
    | none => some (s.raise .unwritten)
    | some r => at_ .zero { v with len := min v.len r.wLength.toNat } s
  | .zero => at_ .loop { v with i := 0 } s
  | .loop => if v.i < v.len then at_ .waitData v s else at_ .checkZlp v s
  | .waitData => if (s.ep 0).txin || (s.ep 0).nakout then at_ .checkNak v s else none
  | .checkNak => if (s.ep 0).nakout then at_ .waitStatus v s else at_ .packetSize v s
  | .packetSize => at_ (ciFill (min (v.len - v.i) v.mps) []) v s
  | .fill 0 packet => at_ (.commit packet) v s
  | .fill (n + 1) packet =>
    match s.byteAt v.src v.i with
    | .error f => some (s.raise f)
    | .ok b =>
      some (s.orRaise ((s.sendByte b).map
        (·.goto (.controlIn (ciFill n (packet ++ [b])) { v with i := v.i + 1 } :: k))))
  | .commit packet => at_ .loop v (s.sendPacket packet)
  | .checkZlp => if v.zlp then at_ .waitZlp v s else at_ .waitStatus v s
  | .waitZlp => if (s.ep 0).txin || (s.ep 0).nakout then at_ .commitZlp v s else none
  | .commitZlp => at_ .waitStatus v (if (s.ep 0).nakout then s else s.commitApart [])
  | .waitStatus => if (s.ep 0).rxout then at_ .release v s else none
  | .release => at_ .ret v s.releaseOut
  | .ret => some (s.goto k)

/-- One micro-step of `control_out` at a line, before the continuation `k` of its caller. Line 13 commits a zero-length
packet whatever the bank holds (42 R207, log 20). -/
def State.controlOutStep (s : State) (line : CoLine) (v : CoVars) (k : List Stmt) : Option State :=
  let at_ (l : CoLine) (v : CoVars) (t : State) : Option State := some (t.goto (.controlOut l v :: k))
  match line with
  | .entry => if s.epc.sel = 0 then at_ .pending v s else some (s.raise .ep0NotSelected)
  | .pending => if (s.ep 0).rxstp then at_ .consume v s else some (s.goto k)
  | .consume => at_ .clamp v s.consumeSetup
  | .clamp =>
    match s.core.req with
    | none => some (s.raise .unwritten)
    | some r => at_ .zero { v with len := min v.len r.wLength.toNat } s
  | .zero => at_ .loop { v with got := 0 } s
  | .loop => if v.got < v.len then at_ .waitData v s else at_ .waitReady v s
  | .waitData => if (s.ep 0).rxout || (s.ep 0).nakin then at_ .checkOut v s else none
  | .checkOut => if (s.ep 0).rxout then at_ .packetSize v s else at_ .waitReady v s
  | .packetSize => at_ (coDrain (min s.selected.byteCount (v.len - v.got))) v s
  | .drain 0 => at_ .release v s
  | .drain (n + 1) =>
    at_ (coDrain n) { v with got := v.got + 1 }
      (s.receiveByte (decide (v.got = 0)))
  | .release => at_ .loop v s.releaseOut
  | .waitReady => if (s.ep 0).txin then at_ .commit v s else none
  | .commit => at_ .waitDone v (s.commitApart [])
  | .waitDone => if (s.ep 0).txin then at_ .ret v s else none
  | .ret => some (s.goto k)

end Sys2Proof.Machine
end

