-- ==== Sys2Proof/Machine/Handlers.lean ====
section
/-! DEFINITION. The handlers' own tests and what each goes on to (spec 43 R232, R235, R236, R241 to R244, R250 to R252;
44 R280). A test is a micro-step of its own, because it reads the request or core.devState (00 R16, log 10). -/

namespace Sys2Proof.Machine

/-- The stall causes of 60 R352, which are labels and not state. -/
inductive StallCause where
  | s1
  | s2
  | s3
  | s4
  | s5
  | s6
  | s7
  | s8
  | s9
  | s10
  deriving DecidableEq, Repr

/-- A handler that does nothing, so that the stall path stalls the request (43 R257). -/
def stall (_cause : StallCause) : List Stmt := []

/-! ## GET_STATUS -/

/-- The two bytes of a status word go to STATUS_RAM_ADDR and are sent (43 R236). -/
def statusReply (p : Params) (w : Half) : List Stmt :=
  [.ramWrite p.statusAddr [loByte w, hiByte w], controlIn ⟨.ram, p.statusAddr⟩ 2]

/-- The direction: IN goes on to the recipient (43 R235). -/
def statusDirectionProgram (dir : Dir) (recip : Recipient) (wIndex : Half) : List Stmt :=
  if dir = .toHost then [.check (.statusRecipient recip wIndex)] else stall .s4

/-- The recipient: the device's zero word, or the endpoint's number (43 R235). -/
def statusRecipientProgram (p : Params) (recip : Recipient) (wIndex : Half) : List Stmt :=
  match recip with
  | .device => statusReply p 0
  | .endpoint => [.check (.statusNumber wIndex)]
  | _ => stall .s4

/-- The endpoint's number: the halt bit of endpoint 0 to 4 is read (43 R235). -/
def statusNumberProgram (wIndex : Half) : List Stmt :=
  if h : statusEndpoint wIndex < 5 then
    [.sel (statusEndpoint wIndex), .readHalt ⟨statusEndpoint wIndex, h⟩]
  else stall .s4

/-! ## SET_ADDRESS -/

/-- What an accepted SET_ADDRESS runs (43 R242, R243). -/
def setAddressProgram (wValue : Half) : List Stmt :=
  [.addrSet (newAddress wValue), controlOut 0, .addrEnable, .setDevState .address]

/-- The legality check of SET_ADDRESS (43 R241). -/
def addressProgram (d : DeviceState) (dir : Dir) (recip : Recipient) (wValue : Half) : List Stmt :=
  if setAddressLegal dir recip d then setAddressProgram wValue else stall .s6

/-! ## GET_DESCRIPTOR -/

/-- GET_DESCRIPTOR's check; an accepted one goes on to the resolver (43 R244). -/
def descriptorProgram (dir : Dir) (recip : Recipient) (row : DescriptorRow) : List Stmt :=
  if getDescriptorLegal dir recip then [.check (.resolve row)] else stall .s7

/-- The resolver's case; with no descriptor of that type the request stalls (44 R280, R286). -/
def resolveProgram : DescriptorRow → List Stmt
  | .device => [.askDevice]
  | .configuration => [.askConfiguration]
  | .string value index => [.askString value index]
  | .other => stall .s8

/-! ## SET_CONFIGURATION -/

/-- What an accepted SET_CONFIGURATION runs (43 R251, R252). -/
def setConfigurationProgram (wValue : Half) : List Stmt :=
  [.setActiveConfig (loByte wValue), controlOut 0, .recordConfigure, .askConfigure,
   .setDevState .configured]

/-- The legality check of SET_CONFIGURATION (43 R250). -/
def configurationProgram (d : DeviceState) (dir : Dir) (recip : Recipient) (wValue : Half) :
    List Stmt :=
  if setConfigurationLegal dir recip wValue d then setConfigurationProgram wValue else stall .s10

/-! ## VENDOR -/

/-- Whether there is a vendor callback (43 R232). -/
def vendorPresentProgram (p : Params) : List Stmt :=
  if p.vendorPresent then [.recordVendor, .askVendor] else stall .s2

/-! ## All of them -/

/-- What a handler's test goes on to. -/
def State.checkProgram (s : State) (c : Check) : List Stmt :=
  match c with
  | .statusDirection dir recip wIndex => statusDirectionProgram dir recip wIndex
  | .statusRecipient recip wIndex => statusRecipientProgram s.par recip wIndex
  | .statusNumber wIndex => statusNumberProgram wIndex
  | .address dir recip wValue => addressProgram s.core.devState dir recip wValue
  | .descriptor dir recip row => descriptorProgram dir recip row
  | .resolve row => resolveProgram row
  | .configuration dir recip wValue => configurationProgram s.core.devState dir recip wValue
  | .vendor => vendorPresentProgram s.par

end Sys2Proof.Machine
end

