-- ==== Sys2Proof/Machine/Init.lean ====
section
/-! DEFINITION. `init` (spec 46 R320 to R322): its first line, which the engine runs from `PreInit` and the
application may call again between tasks, and one micro-step of each later line. -/

namespace Sys2Proof.Machine

/-- The lines that follow the check of the characters, the serial buffer's bytes among them (46 R320, R321). -/
def initTail (serialAddr : Nat) (text : List Byte) : List Stmt :=
  [.ramWrite serialAddr (serialBytes text), .init .done, .init .eventEnable, .init .attach]

/-- Line 1 of `init`: a second call changes nothing (46 R322). -/
def State.initEntry (s : State) : State :=
  if s.core.initialized then { s with engine := .idle } else s.goto [.init .readId]

/-- One micro-step of a later line of `init`, before the continuation `k`. -/
def State.initStep (s : State) (line : InitLine) (k : List Stmt) : State :=
  match line with
  | .readId => s.goto (.init (.mapId s.readHwid) :: k)
  | .mapId id => s.goto (.init (.check (serialText s.par.serialMap id)) :: k)
  | .check text =>
    if serialTextLegal text then s.goto (initTail s.par.serialAddr text ++ k)
    else s.raise .serialMapInvalid
  | .done => { s.goto k with core := { s.core with initialized := true } }
  | .eventEnable => s.eventEnable.goto k
  | .attach => s.attach.goto k

/-- One micro-step of a RAM write: the first byte lands, the rest stay to be written (20 R67). -/
def State.ramWriteStep (s : State) (addr : Nat) (bytes : List Byte) (k : List Stmt) : State :=
  match bytes with
  | [] => s.goto k
  | [b] => s.orRaise ((s.ramWriteByte addr b).map (·.goto k))
  | b :: bs => s.orRaise ((s.ramWriteByte addr b).map (·.goto (.ramWrite (addr + 1) bs :: k)))

end Sys2Proof.Machine
end

