-- ==== Sys2Proof/Machine/Resolver.lean ====
section
/-! DEFINITION. The descriptor resolver (spec 44 R280 to R288): each callback and each ROM read is a micro-step,
and a descriptor found goes on to `control_in` (43 R244). With none found the continuation goes on, which is
the stall path (S8). -/

namespace Sys2Proof.Machine

/-- Device: the callback of 44 R281. -/
def State.askDeviceStep (s : State) (k : List Stmt) : State :=
  match s.callDeviceDescriptor with
  | (none, t) => t.goto k
  | (some d, t) => t.goto (.readLength d :: k)

/-- Configuration: the callback of 44 R282, asked for the selected configuration and not for the request's index. -/
def State.askConfigurationStep (s : State) (k : List Stmt) : State :=
  match s.callConfigurationDescriptor s.core.activeConfig with
  | (none, t) => t.goto k
  | (some c, t) => t.goto (.readTotalLow c :: k)

/-- The built-in strings, index 0 first (44 R284, R285). -/
def builtInString (p : Params) (value : Half) : List Stmt :=
  if loByte value = 0 then [controlIn ⟨.rom, p.langidAddr⟩ 4]
  else if loByte value = p.serialIndex then [controlIn ⟨.ram, p.serialAddr⟩ serialLength]
  else []

/-- String: the application first, then the built-ins (44 R283). -/
def State.askStringStep (s : State) (value index : Half) (k : List Stmt) : State :=
  match s.callStringDescriptor value index with
  | (some a, t) => t.goto (.readLength a :: k)
  | (none, t) => t.goto (builtInString s.par value ++ k)

/-- The read of `bLength` at offset 0 (30 R99, R101; 44 R281, R283). -/
def State.readLengthStep (s : State) (base : Nat) (k : List Stmt) : State :=
  match s.romRead base with
  | .error f => s.raise f
  | .ok len => s.goto (controlIn ⟨.rom, base⟩ len.toNat :: k)

/-- The read of the low byte of `wTotalLength` at offset 2 (30 R100, 44 R282). -/
def State.readTotalLowStep (s : State) (base : Nat) (k : List Stmt) : State :=
  match s.romRead (base + 2) with
  | .error f => s.raise f
  | .ok lo => s.goto (.readTotalHigh base lo :: k)

/-- The read of its high byte at offset 3. -/
def State.readTotalHighStep (s : State) (base : Nat) (low : Byte) (k : List Stmt) : State :=
  match s.romRead (base + 3) with
  | .error f => s.raise f
  | .ok hi => s.goto (controlIn ⟨.rom, base⟩ (half low hi).toNat :: k)

end Sys2Proof.Machine
end

