-- ==== Sys2Proof/Machine/Task.lean ====
section
/-! DEFINITION. The poll loop (spec 47 R330 to R335), the reading of a setup packet (43 R230) and the stall
path (43 R233): one micro-step of each line. -/

namespace Sys2Proof.Machine

/-- A `task` from its first line (47 R331). -/
def taskProgram : List Stmt := [.sel 0, .taskSetup]

/-- The stall path and the dispatcher's return, which follow every handler (43 R230, R233). -/
def stallPath : List Stmt := [.sel 0, .stallTest, .dispatchReturn]

/-- Line 2 of `task`: a pending setup is dispatched; then step 2 follows. -/
def State.taskSetupStep (s : State) (k : List Stmt) : State :=
  if (s.ep 0).rxstp then s.goto (.dispatchRead [] :: .taskBound :: k) else s.goto (.taskBound :: k)

/-- Line 4 of `task`: endpoint `n` is next, or the task is over. -/
def serveNext (n bound : Nat) : Stmt := if n ≤ bound then .serveSelect n bound else .taskReturn

/-- Line 3 of `task`: configuredMax is read once (47 R335). -/
def State.taskBoundStep (s : State) (k : List Stmt) : State :=
  s.goto (serveNext 1 s.core.configuredMax.toNat :: k)

/-- Line 5 of `task`: SEL(e). -/
def State.serveSelectStep (s : State) (n bound : Nat) (k : List Stmt) : State :=
  match s.select n with
  | .error f => s.raise f
  | .ok t => t.goto (.serve .direction { ep := t.epc.sel, bound := bound } :: k)

/-- One micro-step of a task's step 2 for the selected endpoint (47 R332, R333). -/
def State.serveStep (s : State) (line : SvcLine) (v : SvcVars) (k : List Stmt) : State :=
  let at_ (l : SvcLine) (t : State) : State := t.goto (.serve l v :: k)
  let next (t : State) : State := t.goto (serveNext (v.ep.val + 1) v.bound :: k)
  match line with
  | .direction => if (s.ep v.ep).dir = .toHost then at_ .ready s else at_ .arrived s
  | .ready => if (s.ep v.ep).txin then at_ (.window true) s else next s
  | .window first => if s.windowOpen then at_ (.askByte first) s else at_ .commit s
  | .askByte first =>
    let (b, t) := s.callEndpointInByte v.ep.val first
    at_ (.putByte b) t
  | .putByte b => s.orRaise ((s.fifoWrite b).map (at_ (.window false)))
  | .commit => next s.commitIn
  | .arrived => if (s.ep v.ep).rxout then at_ .count s else next s
  | .count =>
    if s.selected.byteCount = 0 then at_ .release s else at_ (.getByte 0 s.selected.byteCount) s
  | .getByte n left =>
    let (b, t) := s.fifoRead
    at_ (.record n left b) t
  | .record n left b => at_ (.tellByte n left b) (s.record (.outByte v.ep.val b (decide (n = 0))))
  | .tellByte n left b =>
    at_ (if left ≤ 1 then .release else .getByte (n + 1) (left - 1))
      (s.callEndpointOutByte v.ep.val b (decide (n = 0)))
  | .release => next s.releaseOut

/-- Line 1 of `dispatch`: one FIFO_RD of the eight (43 R230). -/
def State.dispatchReadStep (s : State) (got : List Byte) (k : List Stmt) : State :=
  let (b, t) := s.fifoRead
  t.goto ((if got.length < 7 then .dispatchRead (got ++ [b]) else .dispatchAssemble (got ++ [b])) :: k)

/-- The request the eight bytes read make up (30 R91). -/
def requestOf : List Byte → Option Request
  | [b0, b1, b2, b3, b4, b5, b6, b7] => some (assemble b0 b1 b2 b3 b4 b5 b6 b7)
  | _ => none

/-- Line 2 of `dispatch`: `core.req` is written. -/
def State.dispatchAssembleStep (s : State) (got : List Byte) (k : List Stmt) : State :=
  { s.goto (.classify :: k) with core := { s.core with req := requestOf got } }

/-- Line 2 of the stall path: a setup still pending is stalled and consumed (43 R233). -/
def State.stallTestStep (s : State) (k : List Stmt) : State :=
  if (s.ep 0).rxstp then s.goto (.stallRequest :: .stallConsume :: k) else s.goto k

end Sys2Proof.Machine
end

