-- ==== Sys2Proof/Machine/Engine.lean ====
section
/-! DEFINITION. The engine: one micro-step of its program at its position (spec 00 R16, 10 R40, 47 R330), a run of
micro-steps with no other agent between them, and how an instruction's handler starts (43 R230 to R233). -/

namespace Sys2Proof.Machine

/-- GET_STATUS has selected endpoint `n`: its halt bit is read and endpoint 0 selected again (43 R235). -/
def State.readHaltStep (s : State) (n : EpNum) (k : List Stmt) : State :=
  s.goto (.sel 0 :: statusReply s.par (haltWord (s.ep n).stallReq) ++ k)

/-- VENDOR(core.req) joins the trace (43 R232). -/
def State.recordVendorStep (s : State) (k : List Stmt) : State :=
  match s.core.req with
  | none => s.raise .unwritten
  | some r => (s.record (.vendor r)).goto k

/-- What the dispatcher runs for a vendor callback's answer; `none` is an answer outside the three forms. -/
def vendorProgram : VendorAnswer → Option (List Stmt)
  | .nothing => some []
  | .dataIn src len => some [controlIn src len.toNat]
  | .dataOut len => some [controlOut len.toNat]
  | .refusedForm => none

/-- The vendor callback and the transfer its answer asks for (43 R232). DESIGN CHOICE (log 10): the case on the answer, and
F5 with it, belong to the call's own micro-step, so the state recorded with F5 is the one before the call; 00 R16 merges a
statement on locals with the next micro-step, and the lines of 43 R232 have no numbers. -/
def State.askVendorStep (s : State) (k : List Stmt) : State :=
  match s.core.req with
  | none => s.raise .unwritten
  | some r =>
    let (a, t) := s.callVendorRequest r
    match vendorProgram a with
    | none => s.raise .vendorActionRefused
    | some p => t.goto (p ++ k)

/-- The configuration callback: its answer's records are configured in list order (43 R252). -/
def State.askConfigureStep (s : State) (k : List Stmt) : State :=
  let (eds, t) := s.callConfigureEndpoints s.core.activeConfig
  t.goto (eds.map (.configure .test) ++ k)

/-- One micro-step of a statement before the continuation `k`; `none` where the engine has no move of its own. The
classification is run by the step through exec. -/
def State.stmtStep (s : State) (st : Stmt) (k : List Stmt) : Option State :=
  match st with
  | .init line => some (s.initStep line k)
  | .sel n => some (s.orRaise ((s.select n).map (·.goto k)))
  | .ramWrite addr bytes => some (s.ramWriteStep addr bytes k)
  | .taskSetup => some (s.taskSetupStep k)
  | .taskBound => some (s.taskBoundStep k)
  | .serveSelect n bound => some (s.serveSelectStep n bound k)
  | .serve line v => some (s.serveStep line v k)
  | .taskReturn => some (s.goto k)
  | .dispatchRead got => some (s.dispatchReadStep got k)
  | .dispatchAssemble got => some (s.dispatchAssembleStep got k)
  | .classify => none
  | .check c => some (s.goto (s.checkProgram c ++ k))
  | .stallTest => some (s.stallTestStep k)
  | .stallRequest => some (s.stallRequest.goto k)
  | .stallConsume => some (s.consumeSetup.goto k)
  | .dispatchReturn => some (s.goto k)
  | .readHalt n => some (s.readHaltStep n k)
  | .addrSet a => some ((s.addrSet a).goto k)
  | .addrEnable => some (s.addrEnable.goto k)
  | .setDevState d => some { s.goto k with core := { s.core with devState := d } }
  | .setActiveConfig v => some { s.goto k with core := { s.core with activeConfig := v } }
  | .recordConfigure => some ((s.record (.configure s.core.activeConfig)).goto k)
  | .askConfigure => some (s.askConfigureStep k)
  | .configure line ed => some (s.configureStep line ed k)
  | .askDevice => some (s.askDeviceStep k)
  | .askConfiguration => some (s.askConfigurationStep k)
  | .askString value index => some (s.askStringStep value index k)
  | .readLength base => some (s.readLengthStep base k)
  | .readTotalLow base => some (s.readTotalLowStep base k)
  | .readTotalHigh base low => some (s.readTotalHighStep base low k)
  | .recordVendor => some (s.recordVendorStep k)
  | .askVendor => some (s.askVendorStep k)
  | .controlIn line v => s.controlInStep line v k
  | .controlOut line v => s.controlOutStep line v k

/-- One engine micro-step; `none` where the engine has no move: it is held, a fault is recorded, the reset agent is
enabled, or an instruction is to be run by exec (60 R355, R358, R359). -/
def State.micro (s : State) : Option State :=
  if s.engineEnabled then
    match s.engine with
    | .preInit => some s.initEntry
    | .idle => some (s.goto taskProgram)
    | .busy [] => some { s with engine := .idle }
    | .busy (st :: k) => s.stmtStep st k
  else none

/-- Positions at which a run of micro-steps ends early: between two tasks, at an instruction to be run, and after a
handler and its stall path. -/
def Engine.boundary : Engine → Bool
  | .idle => true
  | .busy (.classify :: _) => true
  | .busy (.dispatchReturn :: _) => true
  | _ => false

/-- At most `n` micro-steps with no other agent between them. -/
def State.runEngine (n : Nat) (s : State) : State :=
  match n with
  | 0 => s
  | n + 1 =>
    if s.engine.boundary then s
    else
      match s.micro with
      | none => s
      | some t => State.runEngine n t

/-- What is left of the task when the classification's handler and stall path are done. -/
def Engine.afterClassify : Engine → List Stmt
  | .busy (_ :: k) => k
  | _ => []

/-- The classification hands over to a handler's program, and the stall path follows it (43 R230, R231, R233). -/
def State.enter (s : State) (handler : List Stmt) : State :=
  s.goto (handler ++ (stallPath ++ s.engine.afterClassify))

/-- An instruction's execution: the classification's micro-step and then at most `burst` further ones (log 2). -/
def State.execute (s : State) (handler : List Stmt) : Host.Outcome State Fault Refusal :=
  .next (State.runEngine s.burst (s.enter handler))

end Sys2Proof.Machine
end

