-- ==== Sys2Proof/Machine/Configuration.lean ====
section
/-! DEFINITION. The meanings of SET_ADDRESS, SET_CONFIGURATION, GET_CONFIGURATION, GET_INTERFACE, SET_INTERFACE and
SYNCH_FRAME (spec 43 R240 to R243, R246, R250 to R255). -/

namespace Sys2Proof.Machine

/-- SET_ADDRESS (43 R240 to R243). -/
def execSetAddress (dir : Dir) (recip : Recipient) (wValue _wIndex _wLength : Half) (s : State) :
    Host.Outcome State Fault Refusal :=
  s.execute [.check (.address dir recip wValue)]

/-- GET_CONFIGURATION has no effect of its own, so it stalls (43 R246). -/
def execGetConfiguration (_dir : Dir) (_recip : Recipient) (_wValue _wIndex _wLength : Half)
    (s : State) : Host.Outcome State Fault Refusal :=
  s.execute (stall .s9)

/-- SET_CONFIGURATION (43 R250 to R252). -/
def execSetConfiguration (dir : Dir) (recip : Recipient) (wValue _wIndex _wLength : Half) (s : State) :
    Host.Outcome State Fault Refusal :=
  s.execute [.check (.configuration dir recip wValue)]

/-- GET_INTERFACE has no effect of its own, so it stalls (43 R253). -/
def execGetInterface (_dir : Dir) (_recip : Recipient) (_wValue _wIndex _wLength : Half) (s : State) :
    Host.Outcome State Fault Refusal :=
  s.execute (stall .s9)

/-- SET_INTERFACE has no effect of its own, so it stalls (43 R254). -/
def execSetInterface (_dir : Dir) (_recip : Recipient) (_wValue _wIndex _wLength : Half) (s : State) :
    Host.Outcome State Fault Refusal :=
  s.execute (stall .s9)

/-- SYNCH_FRAME has no effect of its own, so it stalls (43 R255). -/
def execSynchFrame (_dir : Dir) (_recip : Recipient) (_wValue _wIndex _wLength : Half) (s : State) :
    Host.Outcome State Fault Refusal :=
  s.execute (stall .s9)

end Sys2Proof.Machine
end

