-- ==== Sys2Proof/Machine/Descriptor.lean ====
section
/-! DEFINITION. The meanings of the GET_DESCRIPTOR rows and of SET_DESCRIPTOR (spec 43 R244, R245; 44). -/

namespace Sys2Proof.Machine

/-- GET_DESCRIPTOR.DEVICE (43 R244, 44 R281); the index and `wIndex` are ignored. -/
def execGetDescriptorDevice (dir : Dir) (recip : Recipient) (_index : Byte) (_wIndex _wLength : Half)
    (s : State) : Host.Outcome State Fault Refusal :=
  s.execute [.check (.descriptor dir recip .device)]

/-- GET_DESCRIPTOR.CONFIGURATION (43 R244, 44 R282); the index is ignored. -/
def execGetDescriptorConfiguration (dir : Dir) (recip : Recipient) (_index : Byte)
    (_wIndex _wLength : Half) (s : State) : Host.Outcome State Fault Refusal :=
  s.execute [.check (.descriptor dir recip .configuration)]

/-- GET_DESCRIPTOR.STRING (43 R244, 44 R283 to R285): the callback gets the whole `wValue` and `wIndex`. -/
def execGetDescriptorString (dir : Dir) (recip : Recipient) (index : Byte) (wIndex _wLength : Half)
    (s : State) : Host.Outcome State Fault Refusal :=
  s.execute [.check (.descriptor dir recip (.string (half index 3) wIndex))]

/-- GET_DESCRIPTOR.OTHER: the resolver finds none, so the request stalls on every path (43 R244, 44 R286). -/
def execGetDescriptorOther (dir : Dir) (recip : Recipient) (_descType _index : Byte)
    (_wIndex _wLength : Half) (s : State) : Host.Outcome State Fault Refusal :=
  s.execute [.check (.descriptor dir recip .other)]

/-- SET_DESCRIPTOR has no effect of its own, so it stalls (43 R245). -/
def execSetDescriptor (_dir : Dir) (_recip : Recipient) (_wValue _wIndex _wLength : Half) (s : State) :
    Host.Outcome State Fault Refusal :=
  s.execute (stall .s9)

end Sys2Proof.Machine
end

