-- ==== Sys2Proof/Machine/OtherTypes.lean ====
section
/-! DEFINITION. The meanings of the request types that are not Standard: CLASS, VENDOR and RESERVED_TYPE (spec 43 R232,
R256). -/

namespace Sys2Proof.Machine

/-- CLASS stalls; no callback is asked (43 R256). -/
def execClassRequest (_dir : Dir) (_recip : Recipient) (_bRequest : Byte)
    (_wValue _wIndex _wLength : Half) (s : State) : Host.Outcome State Fault Refusal :=
  s.execute (stall .s1)

/-- VENDOR: the event, the callback and its transfer; without a callback the request stalls (43 R232). -/
def execVendorRequest (_dir : Dir) (_recip : Recipient) (_bRequest : Byte)
    (_wValue _wIndex _wLength : Half) (s : State) : Host.Outcome State Fault Refusal :=
  s.execute [.check .vendor]

/-- RESERVED_TYPE stalls (43 R256). -/
def execReservedType (_dir : Dir) (_recip : Recipient) (_bRequest : Byte)
    (_wValue _wIndex _wLength : Half) (s : State) : Host.Outcome State Fault Refusal :=
  s.execute (stall .s1)

end Sys2Proof.Machine
end

