-- ==== Sys2Proof/Machine/StatusFeature.lean ====
section
/-! DEFINITION. The meanings of GET_STATUS, CLEAR_FEATURE, SET_FEATURE and the reserved standard codes (spec 43 R235 to
R239). -/

namespace Sys2Proof.Machine

/-- GET_STATUS (43 R235, R236). -/
def execGetStatus (dir : Dir) (recip : Recipient) (_wValue wIndex _wLength : Half) (s : State) :
    Host.Outcome State Fault Refusal :=
  s.execute [.check (.statusDirection dir recip wIndex)]

/-- CLEAR_FEATURE has no effect of its own, so it stalls (43 R237). -/
def execClearFeature (_dir : Dir) (_recip : Recipient) (_wValue _wIndex _wLength : Half) (s : State) :
    Host.Outcome State Fault Refusal :=
  s.execute (stall .s5)

/-- STD_RESERVED_02 stalls (43 R239). -/
def execStdReserved02 (_dir : Dir) (_recip : Recipient) (_wValue _wIndex _wLength : Half) (s : State) :
    Host.Outcome State Fault Refusal :=
  s.execute (stall .s3)

/-- SET_FEATURE has no effect of its own, so it stalls (43 R238). -/
def execSetFeature (_dir : Dir) (_recip : Recipient) (_wValue _wIndex _wLength : Half) (s : State) :
    Host.Outcome State Fault Refusal :=
  s.execute (stall .s5)

/-- STD_RESERVED_04 stalls (43 R239). -/
def execStdReserved04 (_dir : Dir) (_recip : Recipient) (_wValue _wIndex _wLength : Half) (s : State) :
    Host.Outcome State Fault Refusal :=
  s.execute (stall .s3)

/-- STD_UNDEFINED stalls (43 R239). -/
def execStdUndefined (_dir : Dir) (_recip : Recipient) (_bRequest : Byte)
    (_wValue _wIndex _wLength : Half) (s : State) : Host.Outcome State Fault Refusal :=
  s.execute (stall .s3)

end Sys2Proof.Machine
end

