-- ==== Sys2Proof/Machine/Dispatch.lean ====
section
/-! DEFINITION. The one dispatch: each instruction's meaning (spec 43 R231, R234). -/

namespace Sys2Proof.Machine

def exec (i : Instr) (s : State) : Host.Outcome State Fault Refusal :=
  match i with
  | .getStatus d r v x l => Sys2Proof.Machine.execGetStatus d r v x l s
  | .clearFeature d r v x l => Sys2Proof.Machine.execClearFeature d r v x l s
  | .stdReserved02 d r v x l => Sys2Proof.Machine.execStdReserved02 d r v x l s
  | .setFeature d r v x l => Sys2Proof.Machine.execSetFeature d r v x l s
  | .stdReserved04 d r v x l => Sys2Proof.Machine.execStdReserved04 d r v x l s
  | .setAddress d r v x l => Sys2Proof.Machine.execSetAddress d r v x l s
  | .getDescriptorDevice d r n x l => Sys2Proof.Machine.execGetDescriptorDevice d r n x l s
  | .getDescriptorConfiguration d r n x l => Sys2Proof.Machine.execGetDescriptorConfiguration d r n x l s
  | .getDescriptorString d r n x l => Sys2Proof.Machine.execGetDescriptorString d r n x l s
  | .getDescriptorOther d r t n x l => Sys2Proof.Machine.execGetDescriptorOther d r t n x l s
  | .setDescriptor d r v x l => Sys2Proof.Machine.execSetDescriptor d r v x l s
  | .getConfiguration d r v x l => Sys2Proof.Machine.execGetConfiguration d r v x l s
  | .setConfiguration d r v x l => Sys2Proof.Machine.execSetConfiguration d r v x l s
  | .getInterface d r v x l => Sys2Proof.Machine.execGetInterface d r v x l s
  | .setInterface d r v x l => Sys2Proof.Machine.execSetInterface d r v x l s
  | .synchFrame d r v x l => Sys2Proof.Machine.execSynchFrame d r v x l s
  | .stdUndefined d r q v x l => Sys2Proof.Machine.execStdUndefined d r q v x l s
  | .classRequest d r q v x l => Sys2Proof.Machine.execClassRequest d r q v x l s
  | .vendorRequest d r q v x l => Sys2Proof.Machine.execVendorRequest d r q v x l s
  | .reservedType d r q v x l => Sys2Proof.Machine.execReservedType d r q v x l s

end Sys2Proof.Machine
end

