-- ==== Sys2Proof/Machine/Bus.lean ====
section
/-! DEFINITION. The host's bus transactions (spec 40 R150 to R157). Each is one atomic step of the host; `none` is a
transaction the host cannot issue in that state (60 R368). -/

namespace Sys2Proof.Machine

/-- A transaction and its answer join the trace (40 R150(e)). -/
def State.answer (s : State) (tx : HostTx) (r : Response) : State := s.record (.transaction tx r)

/-- `H_BUS_RESET` (40 R151): every endpoint is disabled and emptied, the address is cleared, the event is pending. -/
def State.busReset (s : State) : State :=
  ({ s with
      eps := ⟨Ep.blank, Ep.blank, Ep.blank, Ep.blank, Ep.blank⟩
      ctrlDir := .toDevice
      epc := { s.epc with addr := 0, addrEn := false, eorst := true } }).record .busReset

/-- Endpoint 0 with a setup packet in its bank (40 R152). -/
def Ep.withSetup (e : Ep) (bytes : List Byte) : Ep :=
  { e with
    fifo := bytes, rxstp := true, txin := false, rxout := false, nakout := false, nakin := false,
    stallReq := false, inq := none }

/-- The eight bytes a setup packet leaves in the bank: its own where it has 8, with draws for the missing ones where it
has fewer, and draws alone where it has more (60 R368, 93 section 2.2; log 13). -/
def State.setupBytes (s : State) (bytes : List Byte) : List Byte × State :=
  if bytes.length ≤ 8 then
    let (bs, t) := s.drawBytes (8 - bytes.length)
    (bytes ++ bs, t)
  else s.drawBytes 8

/-- `H_SETUP(a, bytes)` (40 R152); no such move while a setup is pending. -/
def State.hostSetup (s : State) (addr : BitVec 7) (bytes : List Byte) : Option State :=
  if (s.ep 0).rxstp then none
  else if addr ≠ s.epc.deviceAddress ∨ (s.ep 0).en = false then
    some (s.answer (.setup addr bytes) .timeout)
  else
    let (bs, t) := s.setupBytes bytes
    some (({ t.setEp 0 ((t.ep 0).withSetup bs) with ctrlDir := dirOf (bs.headD 0) }).answer
      (.setup addr bytes) .ack)

/-- An IN transaction that reaches an endpoint (40 R153, R155). -/
def State.hostInAt (s : State) (tx : HostTx) (n : EpNum) : State :=
  let e := s.ep n
  if e.stallReq then s.answer tx .stall
  else
    match e.inq with
    | some p => (s.setEp n { e with inq := none, txin := true }).answer tx (.data p)
    | none => (s.setEp n { e with nakin := true }).answer tx .nak

/-- `H_IN(a, e)` (40 R150, R153, R155). -/
def State.hostIn (s : State) (addr : BitVec 7) (e : Nat) : State :=
  let tx := HostTx.tokenIn addr e
  if h : e < 5 then
    let n : EpNum := ⟨e, h⟩
    if addr ≠ s.epc.deviceAddress ∨ (s.ep n).en = false ∨ (n ≠ 0 ∧ (s.ep n).dir = .toDevice) then
      s.answer tx .timeout
    else s.hostInAt tx n
  else s.answer tx .timeout

/-- An OUT transaction that reaches endpoint 0 (40 R154). -/
def State.hostOut0 (s : State) (tx : HostTx) (p : List Byte) : State :=
  let e := s.ep 0
  if e.stallReq then s.answer tx .stall
  else if s.ctrlDir = .toHost then
    if e.rxstp = false ∧ e.rxout = false ∧ e.nakout = true then
      (s.setEp 0 { e with fifo := [], rxout := true, inq := none, txin := true }).answer tx .ack
    else (s.setEp 0 { e with nakout := true }).answer tx .nak
  else if e.rxstp = false ∧ e.rxout = false then
    (s.setEp 0 { e with fifo := p, rxout := true }).answer tx .ack
  else (s.setEp 0 { e with nakout := true }).answer tx .nak

/-- An OUT transaction that reaches one of endpoints 1 to 4 (40 R156). -/
def State.hostOutAt (s : State) (tx : HostTx) (n : EpNum) (p : List Byte) : State :=
  let e := s.ep n
  if e.stallReq then s.answer tx .stall
  else if e.rxout = false then (s.setEp n { e with fifo := p, rxout := true }).answer tx .ack
  else (s.setEp n { e with nakout := true }).answer tx .nak

/-- `H_OUT(a, e, p)` (40 R150, R154, R156); with more bytes than the bank it reaches there is no such move (log 12). -/
def State.hostOut (s : State) (addr : BitVec 7) (e : Nat) (p : List Byte) : Option State :=
  let tx := HostTx.tokenOut addr e p
  if h : e < 5 then
    let n : EpNum := ⟨e, h⟩
    if addr ≠ s.epc.deviceAddress ∨ (s.ep n).en = false ∨ (n ≠ 0 ∧ (s.ep n).dir = .toHost) then
      some (s.answer tx .timeout)
    else if bankBytes (s.ep n).size < p.length then none
    else if n = 0 then some (s.hostOut0 tx p)
    else some (s.hostOutAt tx n p)
  else some (s.answer tx .timeout)

/-- One host transaction; none before the device is attached (40 R150(b)). -/
def State.hostStep (s : State) (tx : HostTx) : Option State :=
  if s.epc.attached then
    match tx with
    | .busReset => some s.busReset
    | .setup addr bytes => s.hostSetup addr bytes
    | .tokenIn addr e => some (s.hostIn addr e)
    | .tokenOut addr e p => s.hostOut addr e p
  else none

end Sys2Proof.Machine
end

