-- ==== Sys2Proof/Machine/Route.lean ====
section
/-! DEFINITION. What one step of a run does before it comes to an instruction: which agent moves (spec 60 R355, R359),
and fetching the instruction that core.req holds (43 R230, R231). -/

namespace Sys2Proof.Machine

/-- Where a step goes: it is over, or an instruction is run in a state. -/
inductive Route where
  | over (o : Host.Outcome State Fault Refusal)
  | run (i : Instr) (s : State)

/-- The engine's move: a micro-step and at most `share` further ones. -/
def State.advance (s : State) (share : Nat) : State :=
  match s.micro with
  | none => s
  | some t => State.runEngine share t

/-- The engine is at the classification, where it runs the instruction that core.req holds. -/
def Engine.atClassify : Engine → Bool
  | .busy (.classify :: _) => true
  | _ => false

/-- The instruction fetched: the decoding of core.req (10 R22; 43 R231). -/
def State.fetched (s : State) : Option Instr := s.core.req.map decodeRequest

/-- The engine's move where it has one: at the classification the fetched instruction is run, with the share as its
burst. -/
def State.engineMove (s : State) (share : Nat) : Route :=
  if s.engineEnabled then
    if s.engine.atClassify then
      match s.fetched with
      | none => .over (.next (s.raise .unwritten))
      | some i => .run i { s with burst := share }
    else .over (.next (s.advance share))
  else .over (.next s)

/-- The application calls `init` again, between two tasks (46 R322). -/
def State.initAgain (s : State) : State :=
  if s.engineEnabled && s.engine == .idle then s.initEntry else s

/-- The move taken. A move that is not enabled changes nothing (log 9). -/
def State.take (s : State) (m : Move) : Route :=
  match m with
  | .engine share => s.engineMove share
  | .resetAgent => .over (.next (if s.epc.resetEnabled then s.resetHandler else s))
  | .callInit => .over (.next s.initAgain)
  | .host tx => .over (.next ((s.hostStep tx).getD s))

/-- One step's route: after a fault no agent has a move (60 R355). -/
def State.route (s : State) : Route :=
  match s.faults with
  | f :: _ => .over (.fault f)
  | [] =>
    let (m, t) := s.nextMove
    t.take m

/-- A state whose next step fetches and runs the instruction of a decode key: no fault and no pending reset event
stand in its way, core.req holds the request, the engine is at the classification with a task's step 2 to come,
and the schedule's next choice is the engine, with room for the whole handler. -/
def State.placeRequest (s : State) (r : Request) : State :=
  { s with
    core := { s.core with req := some r }
    epc := { s.epc with eorst := false }
    engine := .busy [.classify, .taskBound]
    faults := []
    env := { s.env with moves := .engine 255 :: s.env.moves } }

end Sys2Proof.Machine
end

