-- ==== Sys2Proof/Machine/Step.lean ====
section
/-! DEFINITION. One step of a run (spec 60 R359): one move of one agent, or the running of a fetched instruction. -/

namespace Sys2Proof.Machine

/-- One step. -/
def step (s : State) : Host.Outcome State Fault Refusal :=
  match s.route with
  | .over o => o
  | .run i t => exec i t

/-- A state whose next step runs the instruction with the bits of `w` below `nbits` and zeros above (log 15). -/
def State.withFetchWord (s : State) (nbits w : Nat) : State :=
  s.placeRequest (keyRequest (BitVec.ofNat 64 (w % 2 ^ nbits)))

end Sys2Proof.Machine
end

