-- ==== Sys2Proof/Machine/Registers.lean ====
section
/-! DEFINITION. The endpoint-controller registers as bytes (spec 30 R115 to R124). A read or a write of a register is
the primitive it stands for; no agent of a run issues one as such (60 R354, F9; log 17). -/

namespace Sys2Proof.Machine

/-- A flag as a bit of a register. -/
def flagBit (b : Bool) (pos : Nat) : Byte := if b then BitVec.ofNat 8 (2 ^ pos) else 0

/-- EPINT as it reads (30 R120). -/
def State.epintByte (s : State) : Byte :=
  let e := s.selected
  flagBit e.txin 0 ||| flagBit e.rxout 2 ||| flagBit e.rxstp 3 ||| flagBit e.nakout 4
    ||| flagBit s.windowOpen 5 ||| flagBit e.nakin 6

/-- A read of a register (30 R115 to R124); reserved bits read 0. Only EPDAT's read has an effect. -/
def State.regRead (s : State) (r : Reg) : Byte × State :=
  let e := s.selected
  match r with
  | .addr => ((if s.epc.addrEn then 1#1 else 0#1) ++ s.epc.addr, s)
  | .epsel => (BitVec.ofNat 8 s.epc.sel.val, s)
  | .epctl => (flagBit e.en 0 ||| flagBit e.stallReq 5, s)
  | .epcfg0 => ((e.type ++ 0#6) ||| flagBit (e.dir == .toHost) 0, s)
  | .epcfg1 => (0#2 ++ e.size ++ 0#4, s)
  | .epint => (s.epintByte, s)
  | .epbc => (BitVec.ofNat 8 e.byteCount, s)
  | .epdat => s.fifoRead
  | .devint => (flagBit s.epc.eorst 3, s)
  | .devien => (flagBit s.epc.eorstEn 3, s)
  | .devcon => (flagBit (!s.epc.attached) 0, s)

/-- EPCTL: EPEN by its bit, and the stall bits written as 1 (30 R117). 30 R117 gives the three actions of one write no
order. DESIGN CHOICE (log 17): the order is any one, the same for every write; it is left to Config.epctlEpenPlace and
Config.epctlStallReqLast, which have no body. -/
def State.writeEpctl (s : State) (b : Byte) : State :=
  let enable (u : State) : State := if b.getLsbD 0 then u.epEnable else u.epDisable
  let clear (u : State) : State := if b.getLsbD 4 then u.stallClear else u
  let request (u : State) : State := if b.getLsbD 5 then u.stallRequest else u
  let first (u : State) : State := if Config.epctlStallReqLast then clear u else request u
  let last (u : State) : State := if Config.epctlStallReqLast then request u else clear u
  match Config.epctlEpenPlace with
  | .beforeStallBits => last (first (enable s))
  | .betweenStallBits => last (enable (first s))
  | .afterStallBits => enable (last (first s))

/-- EPINT: the flags written as 0, in the order 0, 2, 3, 4, 6 (30 R120). -/
def State.writeEpint (s : State) (b : Byte) : State :=
  let s0 := if b.getLsbD 0 then s else s.commitIn
  let s2 := if b.getLsbD 2 then s0 else s0.releaseOut
  let s3 := if b.getLsbD 3 then s2 else s2.consumeSetup
  let s4 := if b.getLsbD 4 then s3 else s3.clearNakout
  if b.getLsbD 6 then s4 else s4.clearNakin

/-- A write of a register (30 R115 to R124); reserved bits are ignored. -/
def State.regWrite (s : State) (r : Reg) (b : Byte) : Except Fault State :=
  match r with
  | .addr =>
    .ok { s with epc := { s.epc with addr := b.extractLsb' 0 7, addrEn := b.getLsbD 7 } }
  | .epsel => s.select (b.extractLsb' 0 3).toNat
  | .epctl => .ok (s.writeEpctl b)
  | .epcfg0 =>
    .ok (s.epConfig (b.extractLsb' 6 2) (if b.getLsbD 0 then .toHost else .toDevice) s.selected.size)
  | .epcfg1 =>
    if b.getLsbD 6 then .error .reservedWrite
    else .ok (s.epConfig s.selected.type s.selected.dir (b.extractLsb' 4 2))
  | .epint => .ok (s.writeEpint b)
  | .epbc => .ok s
  | .epdat => s.fifoWrite b
  | .devint => .ok (if b.getLsbD 3 then s else s.eventAck)
  | .devien => .ok { s with epc := { s.epc with eorstEn := b.getLsbD 3 } }
  | .devcon =>
    if b.getLsbD 0 then (if s.epc.attached then .error .reservedWrite else .ok s) else .ok s.attach

end Sys2Proof.Machine
end

