-- ==== Sys2Proof/Machine/Script.lean ====
section
/-! DEFINITION. Host scripts (spec 30 R114) and the synchronous schedule that runs them (60 R369, R370). -/

namespace Sys2Proof.Machine

/-! ## The states a schedule stops in (60 R369) -/

/-- The engine is at one of the six wait points (10 R40). -/
def Engine.atWaitPoint : Engine → Bool
  | .busy (.controlIn .waitData _ :: _) => true
  | .busy (.controlIn .waitZlp _ :: _) => true
  | .busy (.controlIn .waitStatus _ :: _) => true
  | .busy (.controlOut .waitData _ :: _) => true
  | .busy (.controlOut .waitReady _ :: _) => true
  | .busy (.controlOut .waitDone _ :: _) => true
  | _ => false

/-- Endpoint `n` has nothing for a task to do. -/
def Ep.served (e : Ep) : Bool :=
  match e.dir with
  | .toHost => !e.txin
  | .toDevice => !e.rxout

/-- Quiescent (60 R369). -/
def State.quiescent (s : State) : Bool :=
  s.faults.isEmpty && !s.epc.resetEnabled && s.engine == .idle && !(s.ep 0).rxstp
    && ([1, 2, 3, 4] : List EpNum).all fun n =>
      decide (s.core.configuredMax.toNat < n.val) || (s.ep n).served

/-- Held: at a wait point whose condition is false (60 R369). -/
def State.held (s : State) : Bool :=
  s.faults.isEmpty && !s.epc.resetEnabled && s.engine.atWaitPoint && s.micro.isNone

/-- Stopped: a fault is recorded (60 R369). -/
def State.stopped (s : State) : Bool := !s.faults.isEmpty

/-! ## The synchronous schedule (60 R370) -/

/-- A step with the next choice given. -/
def State.stepWith (s : State) (m : Move) : Host.Outcome State Fault Refusal :=
  step { s with env := { s.env with moves := m :: s.env.moves } }

/-- Run the engine and the reset agent until the state is quiescent, held or stopped. -/
def State.settle (fuel : Nat) (s : State) : State :=
  match fuel with
  | 0 => s
  | fuel + 1 =>
    if s.quiescent || s.held || s.stopped then s
    else
      match s.stepWith (if s.epc.resetEnabled then .resetAgent else .engine 0) with
      | .next t => State.settle fuel t
      | _ => s

/-- One script line: settle, then the transaction. -/
def State.line (fuel : Nat) (s : State) (tx : HostTx) : State :=
  match (s.settle fuel).stepWith (.host tx) with
  | .next t => t
  | _ => s.settle fuel

/-- A script, and the last settling. -/
def State.runScript (fuel : Nat) (s : State) (script : List HostTx) : State :=
  (script.foldl (State.line fuel) s).settle fuel

/-! ## The pseudo-instructions of 30 R114 -/

/-- `SETUP a: t r vvvv iiii llll`. -/
def setupLine (a : BitVec 7) (t r : Byte) (v i l : Half) : HostTx :=
  .setup a (Request.bytes ⟨t, r, v, i, l⟩)

def lineGetStatusDev (a : BitVec 7) (l : Half) : HostTx := setupLine a 0x80 0x00 0 0 l

def lineGetStatusEp (a : BitVec 7) (n : BitVec 4) (l : Half) : HostTx :=
  setupLine a 0x82 0x00 0 (n.setWidth 16) l

def lineGetDesc (a : BitVec 7) (t i : Byte) (lang l : Half) : HostTx :=
  setupLine a 0x80 0x06 (half i t) lang l

def lineSetAddress (a : BitVec 7) (x : Half) : HostTx := setupLine a 0x00 0x05 x 0 0

def lineSetConfig (a : BitVec 7) (v : Half) : HostTx := setupLine a 0x00 0x09 v 0 0

def lineGetConfig (a : BitVec 7) : HostTx := setupLine a 0x80 0x08 0 0 1

def lineSetFeatureEpHalt (a : BitVec 7) (n : BitVec 4) : HostTx :=
  setupLine a 0x02 0x03 0 (n.setWidth 16) 0

def lineVendorIn (a : BitVec 7) (r : Byte) (v i l : Half) : HostTx := setupLine a 0xC0 r v i l

def lineVendorOut (a : BitVec 7) (r : Byte) (v i l : Half) : HostTx := setupLine a 0x40 r v i l

end Sys2Proof.Machine
end

