-- ==== Sys2Proof/Safety.lean ====
section
/-! DEFINITION. What counts as a safe run, in the terms the statements use: the invariants of the block (spec 10 R27,
R36 to R39, 40 R137, R149, 41 R191, 42 R210, 45 R302), and the states the rules say an instruction leads to. -/

namespace Sys2Proof.Machine

/-- The statements the engine is still to run, the next one first; none before `init` and between two tasks. -/
def State.cont (s : State) : List Stmt :=
  match s.engine with
  | .busy k => k
  | _ => []

/-! ## The parameters (00 R10) -/

/-- The constraints of 00 R10 on the parameters: SERIAL_INDEX is at least 1, `serial_map` gives 40 hexadecimal characters
for every identifier, and the three regions the core owns lie in their memories, apart from each other and, in ROM,
from the application's image. `hw_id` has SERIAL_ID_LEN bytes by its type. -/
def State.paramsLegal (s : State) : Prop :=
  1 ≤ s.par.serialIndex.toNat ∧ (∀ id, serialTextLegal (serialText s.par.serialMap id) = true) ∧
    s.par.langidAddr + 4 ≤ s.par.romSize ∧ s.par.serialAddr + serialLength ≤ s.par.ramSize ∧
    s.par.statusAddr + 2 ≤ s.par.ramSize ∧
    (s.par.serialAddr + serialLength ≤ s.par.statusAddr ∨ s.par.statusAddr + 2 ≤ s.par.serialAddr) ∧
    ∀ a, s.par.langidAddr ≤ a → a < s.par.langidAddr + 4 → Memory.get? a s.rom = none

/-! ## Endpoints -/

/-- A disabled endpoint holds nothing and all its flags read 0 (40 R149). -/
def Ep.quietWhenDisabled (e : Ep) : Prop :=
  e.en = false →
    e.rxstp = false ∧ e.txin = false ∧ e.rxout = false ∧ e.nakout = false ∧ e.nakin = false ∧
      e.stallReq = false ∧ e.fifo = [] ∧ e.inq = none

/-- Every disabled endpoint is quiet. -/
def State.DisabledQuiet (s : State) : Prop := ∀ n : EpNum, (s.ep n).quietWhenDisabled

/-- Who owns a bank: a free bank has no committed packet (40 R137), and a pending setup leaves no free bank, no
committed packet and no OUT packet behind (40 R152, 70 R403). -/
def Ep.owned (e : Ep) : Prop :=
  (e.txin = true → e.inq = none) ∧
    (e.rxstp = true → e.txin = false ∧ e.rxout = false ∧ e.inq = none)

/-- Every bank has one owner, and only endpoint 0 ever has a setup pending (10 R39). -/
def State.BanksOwned (s : State) : Prop :=
  (∀ n : EpNum, (s.ep n).owned) ∧ ∀ n : EpNum, n ≠ 0 → (s.ep n).rxstp = false

/-! ## The configurator and the packet size (10 R27, 45 R302) -/

/-- `configure_endpoint` is past its first test. -/
def Stmt.inConfigurator : Stmt → Bool
  | .configure .test _ => false
  | .configure _ _ => true
  | _ => false

/-- What the position of a statement about to run says of the selection, where it is inside the configurator. -/
def State.configuratorAt (s : State) : Stmt → Prop
  | .configure .test _ => True
  | .configure .select ed => edNumber ed = s.core.configuredMax.toNat + 1
  | .configure _ ed =>
    edNumber ed = s.core.configuredMax.toNat + 1 ∧ s.epc.sel.val = edNumber ed
  | _ => True

/-- Only the statement about to run may be inside the configurator, and there the selection is the endpoint being
configured. -/
def State.ConfiguratorPlaced (s : State) : Prop :=
  match s.cont with
  | [] => True
  | st :: k => s.configuratorAt st ∧ ∀ st' ∈ k, st'.inConfigurator = false

/-- 10 R27 and 45 R302: an enabled endpoint 0 has a legal negotiated packet size that is its bank's size, and
configuredMax is at most 4. -/
def State.PacketSizeAgrees (s : State) : Prop :=
  ((s.ep 0).en = true →
      ep0SizeLegal s.core.ctrlMps = true ∧ bankBytes (s.ep 0).size = s.core.ctrlMps.toNat) ∧
    s.core.configuredMax.toNat ≤ 4

/-- The invariant of the packet size and the configurator. -/
def State.SizesInv (s : State) : Prop := s.ConfiguratorPlaced ∧ s.PacketSizeAgrees

/-! ## The device state machine (41 R191) -/

/-- The device state a statement writes. -/
def Stmt.writesState : Stmt → Option DeviceState
  | .setDevState d => some d
  | _ => none

/-- A statement that is on the way to the running of an instruction, or is a test of its handler. -/
def Stmt.leadsToInstr : Stmt → Bool
  | .taskSetup => true
  | .dispatchRead _ => true
  | .dispatchAssemble _ => true
  | .classify => true
  | .check _ => true
  | _ => false

/-- The next device state of 41 R191 by way of a request, from each. -/
def DeviceState.next : DeviceState → Option DeviceState
  | .default => some .address
  | .address => some .configured
  | .configured => none

/-- A continuation leads to at most one instruction; it writes at most one device state, the one 41 R191 allows next, and
then leads to no instruction. -/
def State.StateMachineInv (s : State) : Prop :=
  (s.cont.filter Stmt.leadsToInstr).length ≤ 1 ∧
    (s.cont.filterMap Stmt.writesState = [] ∨
      (∃ d, s.core.devState.next = some d ∧ s.cont.filterMap Stmt.writesState = [d]) ∧
        ∀ st ∈ s.cont, st.leadsToInstr = false)

/-! ## The bound on a transfer's bytes (42 R210) -/

/-- What the position of `control_in` says of its locals: bytes sent and bytes still to send stay within the request's
length. -/
def ciBounded (wLength : Nat) : CiLine → CiVars → Prop
  | .entry, _ | .pending, _ | .consume, _ | .readMps, _ | .decideZlp, _ | .clamp, _ => True
  | .zero, v => v.len ≤ wLength
  | .fill n _, v => v.i + n ≤ v.len ∧ v.len ≤ wLength
  | _, v => v.i ≤ v.len ∧ v.len ≤ wLength

/-- The same for `control_out` and the bytes received. -/
def coBounded (wLength : Nat) : CoLine → CoVars → Prop
  | .entry, _ | .pending, _ | .consume, _ | .clamp, _ => True
  | .zero, v => v.len ≤ wLength
  | .drain n, v => v.got + n ≤ v.len ∧ v.len ≤ wLength
  | _, v => v.got ≤ v.len ∧ v.len ≤ wLength

/-- The bound that goes with the statement about to run. -/
def Stmt.bounded (wLength : Nat) : Stmt → Prop
  | .controlIn line v => ciBounded wLength line v
  | .controlOut line v => coBounded wLength line v
  | _ => True

/-- A transfer that has not begun, or a statement of no transfer. -/
def Stmt.transferUnbegun : Stmt → Bool
  | .controlIn .entry _ => true
  | .controlIn _ _ => false
  | .controlOut .entry _ => true
  | .controlOut _ _ => false
  | _ => true

/-- `wLength` of the current request, 0 while there is none. -/
def State.requestLength (s : State) : Nat :=
  match s.core.req with
  | some r => r.wLength.toNat
  | none => 0

/-- The invariant behind 42 R210. -/
def State.TransferBounded (s : State) : Prop :=
  match s.cont with
  | [] => True
  | st :: k => st.bounded s.requestLength ∧ ∀ st' ∈ k, st'.transferUnbegun = true

/-! ## The selection (42 R209, 60 R351, 70 R406) -/

/-- The statements that act on endpoint 0 by way of the selection, or lead to one that does before the next SEL. -/
def Stmt.needsZero : Stmt → Bool
  | .taskSetup | .dispatchRead _ | .dispatchAssemble _ | .classify | .check _ | .stallTest | .stallRequest
  | .stallConsume | .askDevice | .askConfiguration | .askString _ _ | .readLength _ | .readTotalLow _ | .readTotalHigh _ _
  | .askVendor | .controlIn _ _ | .controlOut _ _ => true
  | .init _ | .sel _ | .ramWrite _ _ | .taskBound | .serveSelect _ _ | .serve _ _ | .taskReturn
  | .dispatchReturn | .readHalt _ | .addrSet _ | .addrEnable | .setDevState _ | .setActiveConfig _
  | .recordConfigure | .askConfigure | .configure _ _ | .recordVendor => false

/-- Whether endpoint 0 is sure to be selected when a statement is done, given whether it is before. -/
def Stmt.leavesZero (z : Bool) : Stmt → Bool
  | .sel n => n == 0
  | .readHalt _ => true
  | .taskSetup | .check _ | .taskBound | .serveSelect _ _ | .serve _ _ | .askConfigure | .configure _ _ => false
  | .init _ | .ramWrite _ _ | .taskReturn | .dispatchRead _ | .dispatchAssemble _ | .classify | .stallTest
  | .stallRequest | .stallConsume | .dispatchReturn | .addrSet _ | .addrEnable | .setDevState _
  | .setActiveConfig _ | .recordConfigure | .askDevice | .askConfiguration | .askString _ _ | .readLength _
  | .readTotalLow _ | .readTotalHigh _ _ | .recordVendor | .askVendor | .controlIn _ _ | .controlOut _ _ => z

/-- A program in which every statement that needs endpoint 0 selected has it, given whether it is at the start. -/
def selectionFits : Bool → List Stmt → Bool
  | _, [] => true
  | z, st :: k => (!st.needsZero || z) && selectionFits (st.leavesZero z) k

/-- Every statement still to run that acts on endpoint 0 will find it selected. -/
def State.SelectionInv (s : State) : Prop := selectionFits (decide (s.epc.sel = 0)) s.cont = true

/-! ## The premises of the statements -/

/-- The schedule's next choice is `m`, no fault is recorded, and `u` is the state with the choice taken. -/
abbrev State.chooses (s : State) (m : Move) (u : State) : Prop := s.faults = [] ∧ s.nextMove = (m, u)

/-- The engine has the next move and is at a continuation. -/
abbrev State.engineAt (s : State) (k : List Stmt) : Prop := s.engineEnabled = true ∧ s.engine = .busy k

/-- The engine has the next move and is at the classification of a request, with `k` to follow the handler. -/
abbrev State.atInstr (s : State) (k : List Stmt) : Prop := s.engineAt (.classify :: k)

/-- The instruction of the request `r` is about to run as `dispatch` leaves it (43 R230): endpoint 0 is selected, enabled
and has its setup pending, and the schedule gives the handler room for a whole packet. -/
abbrev State.pendingAt (s : State) (k : List Stmt) (r : Request) : Prop :=
  s.atInstr k ∧ s.epc.sel = 0 ∧ s.core.req = some r ∧ (s.ep 0).en = true ∧ (s.ep 0).rxstp = true ∧
    100 ≤ s.burst

/-- Endpoint 0's bank holds one packet of the negotiated size (10 R27). -/
abbrev State.packetFits (s : State) : Prop :=
  ep0SizeLegal s.core.ctrlMps = true ∧ bankBytes (s.ep 0).size = s.core.ctrlMps.toNat

/-- The same with endpoint 0's bank as H_SETUP leaves it (40 R152): nothing committed, no OUT packet, and no OUT refused
since; and one packet fits it. -/
abbrev State.readyAt (s : State) (k : List Stmt) (r : Request) : Prop :=
  s.pendingAt k r ∧ (s.ep 0).rxout = false ∧ (s.ep 0).inq = none ∧ (s.ep 0).nakout = false ∧ s.packetFits

/-- The bytes a byte source holds from an offset on, each of which can be read (20 R62). -/
abbrev State.sourceBytes (s : State) (src : Source) (i : Nat) (bs : List Byte) : Prop :=
  ∀ j, (h : j < bs.length) → s.byteAt src (i + j) = .ok bs[j]

/-! ## The states the rules lead to -/

/-- Endpoint 0 after the stall path (43 R233): a setup still pending on it is stalled and consumed. -/
def Ep.stalled (e : Ep) : Ep :=
  if e.en = true ∧ e.rxstp = true then
    { e with stallReq := true, fifo := [], rxstp := false, txin := true }
  else e

/-- The state after a handler that does nothing and the stall path: endpoint 0 selected and stalled, the engine at the
dispatcher's return. -/
def State.afterStall (s : State) (k : List Stmt) : State :=
  { s with
    epc := { s.epc with sel := 0 }
    eps := s.eps.set 0 (s.ep 0).stalled
    engine := .busy (.dispatchReturn :: k) }

/-- Endpoint 0 after the setup is consumed (40 R139). -/
def Ep.setupConsumed (e : Ep) : Ep := { e with fifo := [], rxstp := false, txin := true }

/-- Endpoint 0 after the setup is consumed and a packet committed (40 R137). -/
def Ep.committed (e : Ep) (p : List Byte) : Ep :=
  { e with fifo := [], rxstp := false, txin := false, inq := some p }

/-- Where `control_in` holds after its first packet, or with no packet to send (42 R202). -/
def ciHold (src : Source) (len wLength mps : Nat) : Stmt :=
  let zlp := zlpDue wLength len mps
  let total := min len wLength
  let n := min total mps
  let v : CiVars := { src := src, len := total, i := n, mps := mps, zlp := zlp }
  if n < total then .controlIn .waitData v
  else if zlp = true ∧ 0 < n then .controlIn .waitZlp v
  else .controlIn .waitStatus v

/-- What endpoint 0 then holds: the first packet, the zero-length packet of an empty source, or nothing. -/
def ciFirst (e : Ep) (bs : List Byte) (len wLength mps : Nat) : Ep :=
  if 0 < min len wLength ∨ zlpDue wLength len mps = true then
    e.committed (bs.take (min (min len wLength) mps))
  else e.setupConsumed

/-- The state once `control_in(src, len)` has its first packet committed and holds, `bs` being the source's bytes. -/
def State.firstPacket (s : State) (src : Source) (len wLength : Nat) (bs : List Byte) (k : List Stmt) :
    State :=
  { s with
    eps := s.eps.set 0 (ciFirst (s.ep 0) bs len wLength s.core.ctrlMps.toNat)
    engine := .busy (ciHold src len wLength s.core.ctrlMps.toNat :: (stallPath ++ k)) }

/-- The state once `control_out(0)` has its status packet committed and holds (42 R207). -/
def State.statusPacket (s : State) (k : List Stmt) : State :=
  { s with
    eps := s.eps.set 0 ((s.ep 0).committed [])
    engine := .busy (.controlOut .waitDone { len := 0, got := 0 } :: k) }

/-- An endpoint that `configure_endpoint` has brought up (45 R301): its record's type, direction and size class, and an
empty, free bank. -/
def Ep.configured (ed : EndpointDesc) : Ep :=
  { Ep.blank with
    en := true, type := edType ed, dir := edDir ed, size := sizeClass ed.wMaxPacketSize, txin := true }

/-- The engine's position after an abandonment (46 R317). -/
def Engine.abandoned : Engine → Engine
  | .busy _ => .idle
  | e => e

end Sys2Proof.Machine
end

