-- ==== Sys2Proof/Certificates/Slice0/Obligations.lean ====
section
/-! DEFINITION. The statements for the provers, in five groups: encoding, steps and fetching, instructions, agents other
than the dispatcher, and what every step keeps. -/

open Sys2Proof Sys2Proof.Machine

/-! ## Encoding -/

/-- 30 R90 to R98: no bit of an encoding is dropped. -/
def Obligations.DecodeOfEncode : Prop := ∀ i : Instr, i.wf = true → decode (encode i) = .ok i

/-- 30 R112: every 8-byte packet decodes, to a well-formed instruction, and that instruction encodes to the packet. -/
def Obligations.EncodeOfDecode : Prop :=
  ∀ b0 b1 b2 b3 b4 b5 b6 b7 : Byte, ∃ i : Instr,
    decode [b0, b1, b2, b3, b4, b5, b6, b7] = .ok i ∧ i.wf = true ∧
      encode i = [b0, b1, b2, b3, b4, b5, b6, b7]

/-- 30 R112: the row the scan of the table selects for the key of a packet is the row of the instruction decoded. -/
def Obligations.DecoderScansOpcodeTable : Prop :=
  ∀ b0 b1 b2 b3 b4 b5 b6 b7 : Byte, ∃ i : Instr,
    decode [b0, b1, b2, b3, b4, b5, b6, b7] = .ok i ∧
      tableMnemonic (b7 ++ b6 ++ b5 ++ b4 ++ b3 ++ b2 ++ b1 ++ b0) = some i.mnemonic

/-- Packets of the spec's own examples, and lengths other than 8 (30 R90). -/
def Obligations.ExamplePacketsDecode : Prop :=
  decode [0x80, 0x06, 0x00, 0x01, 0x00, 0x00, 0x40, 0x00] =
      .ok (.getDescriptorDevice .toHost .device 0 0 0x40) ∧
    decode [0x00, 0x05, 0x07, 0x00, 0x00, 0x00, 0x00, 0x00] =
      .ok (.setAddress .toDevice .device 7 0 0) ∧
    decode [0x82, 0x00, 0x00, 0x00, 0x07, 0x00, 0x02, 0x00] =
      .ok (.getStatus .toHost .endpoint 0 7 2) ∧
    decode [0xA1, 0x01, 0x00, 0x01, 0x00, 0x00, 0x40, 0x00] =
      .ok (.classRequest .toHost .interface 1 0x100 0 0x40) ∧
    decode [0xC0, 0x01, 0x00, 0x00, 0x00, 0x00, 0x04, 0x00] =
      .ok (.vendorRequest .toHost .device 1 0 0 4) ∧
    decode [] = .error .tooShort ∧
    decode [0x80, 0x06, 0x00, 0x01, 0x00, 0x00, 0x40] = .error .tooShort ∧
    decode [0x80, 0x06, 0x00, 0x01, 0x00, 0x00, 0x40, 0x00, 0x00] = .error .tooLong

/-! ## Steps and fetching -/

/-- 43 R231: when the engine has the move and is at the classification, the step runs the instruction that core.req decodes
to, which is well-formed, with the schedule's share as its burst; nothing else is around it. -/
def Obligations.StepRunsFetchedInstruction : Prop :=
  ∀ (s u : State) (n : Nat) (k : List Stmt) (r : Request), s.chooses (.engine n) u → u.atInstr k →
    u.core.req = some r →
    (decodeRequest r).wf = true ∧ step s = exec (decodeRequest r) { u with burst := n }

/-- The model's own log 15: the step after the placing of a word runs the instruction the decoder reads from it. -/
def Obligations.StepRunsPlacedWord : Prop :=
  ∀ (s : State) (nbits w : Nat), ∃ i : Instr, decodeTableWord nbits w = some i ∧
    step (s.withFetchWord nbits w) =
      exec i { s.withFetchWord nbits w with env := s.env, burst := 255 }

/-- 43 R230, 47 R331: from between two tasks, with a setup pending and its eight bytes in the bank, the engine selects
endpoint 0, drains the bank into core.req and comes to the classification; step 2 of the task is still to follow. -/
def Obligations.TaskFetchesSetupPacket : Prop :=
  ∀ (s u : State) (n : Nat) (b0 b1 b2 b3 b4 b5 b6 b7 : Byte), s.chooses (.engine n) u → 11 ≤ n →
    u.engineEnabled = true → u.engine = .idle → (u.ep 0).en = true → (u.ep 0).rxstp = true →
    (u.ep 0).fifo = [b0, b1, b2, b3, b4, b5, b6, b7] →
    step s = .next
      { u with
        core := { u.core with req := some ⟨b0, b1, b3 ++ b2, b5 ++ b4, b7 ++ b6⟩ }
        epc := { u.epc with sel := 0 }
        eps := u.eps.set 0 { u.ep 0 with fifo := [] }
        engine := .busy [.classify, .taskBound] }

/-- 60 R355, 10 R44: once a fault is recorded every step answers a recorded fault, and a micro-step that records one
changes nothing else (60 R356). -/
def Obligations.FaultsStopAndArePrecise : Prop :=
  (∀ (s : State) (f : Fault) (fs : List Fault), s.faults = f :: fs → step s = .fault f) ∧
    ∀ s t : State, s.micro = some t → t.faults = [] ∨ ∃ f, t = { s with faults := [f] }

/-- 60 R358, R359: the engine has no move while the reset agent is enabled, nor while it is held at a wait point. That a
step at which the engine is chosen all the same answers a next state, with only the choice taken, is the model's own DESIGN
CHOICE (log 9); the rules say only that there is no move. -/
def Obligations.EngineWaits : Prop :=
  ∀ (s u : State) (n : Nat), s.chooses (.engine n) u →
    (u.epc.eorst = true ∧ u.epc.eorstEn = true → step s = .next u) ∧
    (∀ v k, u.engineAt (.controlIn .waitData v :: k) → (u.ep 0).txin = false →
      (u.ep 0).nakout = false → step s = .next u) ∧
    (∀ v k, u.engineAt (.controlIn .waitZlp v :: k) → (u.ep 0).txin = false →
      (u.ep 0).nakout = false → step s = .next u) ∧
    (∀ v k, u.engineAt (.controlIn .waitStatus v :: k) → (u.ep 0).rxout = false → step s = .next u) ∧
    (∀ v k, u.engineAt (.controlOut .waitData v :: k) → (u.ep 0).rxout = false →
      (u.ep 0).nakin = false → step s = .next u) ∧
    (∀ v k, u.engineAt (.controlOut .waitReady v :: k) → (u.ep 0).txin = false → step s = .next u) ∧
    ∀ v k, u.engineAt (.controlOut .waitDone v :: k) → (u.ep 0).txin = false → step s = .next u

/-! ## Instructions that stall on every path -/

/-- 43 R237, R238, R245, R246, R253, R254, R255: the standard requests without an effect of their own complete by the stall
path, for every recipient, direction, field and state; the whole next state says that nothing but endpoint 0, the selection and
the engine's position changes. -/
def Obligations.RequestsWithoutEffectStall : Prop :=
  ∀ (s : State) (k : List Stmt) (d : Dir) (p : Recipient) (v x l : Half), s.atInstr k → 4 ≤ s.burst →
    exec (.clearFeature d p v x l) s = .next (s.afterStall k) ∧
      exec (.setFeature d p v x l) s = .next (s.afterStall k) ∧
      exec (.setDescriptor d p v x l) s = .next (s.afterStall k) ∧
      exec (.getConfiguration d p v x l) s = .next (s.afterStall k) ∧
      exec (.getInterface d p v x l) s = .next (s.afterStall k) ∧
      exec (.setInterface d p v x l) s = .next (s.afterStall k) ∧
      exec (.synchFrame d p v x l) s = .next (s.afterStall k)

/-- 43 R239, R256: the reserved and the undefined standard codes, and the Class and Reserved request types, complete by the
stall path, and no callback is asked (the calls are those of before). -/
def Obligations.ReservedCodesAndTypesStall : Prop :=
  ∀ (s : State) (k : List Stmt) (d : Dir) (p : Recipient) (q : Byte) (v x l : Half), s.atInstr k →
    4 ≤ s.burst →
    exec (.stdReserved02 d p v x l) s = .next (s.afterStall k) ∧
      exec (.stdReserved04 d p v x l) s = .next (s.afterStall k) ∧
      exec (.stdUndefined d p q v x l) s = .next (s.afterStall k) ∧
      exec (.classRequest d p q v x l) s = .next (s.afterStall k) ∧
      exec (.reservedType d p q v x l) s = .next (s.afterStall k)

/-- 44 R286: a descriptor type other than 1, 2 and 3 stalls, in either direction and for every recipient. -/
def Obligations.OtherDescriptorTypesStall : Prop :=
  ∀ (s : State) (k : List Stmt) (d : Dir) (p : Recipient) (t n : Byte) (x l : Half), s.atInstr k →
    6 ≤ s.burst → exec (.getDescriptorOther d p t n x l) s = .next (s.afterStall k)

/-- 43 R235, R241, R244, R250, R232: a request that fails its own check completes by the stall path. -/
def Obligations.FailedChecksStall : Prop :=
  ∀ (s : State) (k : List Stmt) (d : Dir) (p : Recipient) (n q : Byte) (v x l : Half), s.atInstr k →
    7 ≤ s.burst →
    (d = .toDevice ∨ (p ≠ .device ∧ p ≠ .endpoint) ∨ (p = .endpoint ∧ 4 < (x.extractLsb' 0 4).toNat) →
        exec (.getStatus d p v x l) s = .next (s.afterStall k)) ∧
      (d = .toHost ∨ p ≠ .device ∨ s.core.devState ≠ .default →
        exec (.setAddress d p v x l) s = .next (s.afterStall k)) ∧
      (d = .toHost ∨ p ≠ .device ∨ s.core.devState ≠ .address ∨ 1 < v.toNat →
        exec (.setConfiguration d p v x l) s = .next (s.afterStall k)) ∧
      (d = .toDevice ∨ p = .endpoint →
        exec (.getDescriptorDevice d p n x l) s = .next (s.afterStall k) ∧
          exec (.getDescriptorConfiguration d p n x l) s = .next (s.afterStall k) ∧
          exec (.getDescriptorString d p n x l) s = .next (s.afterStall k)) ∧
      (s.par.vendorPresent = false → exec (.vendorRequest d p q v x l) s = .next (s.afterStall k))

/-- 60 R351, 70 R407: a request stalled while its setup was pending leaves every IN and OUT transaction to endpoint 0
answered STALL and without effect. -/
def Obligations.StalledRequestAnswersStall : Prop :=
  ∀ (s : State) (k : List Stmt) (p : List Byte), s.epc.attached = true → (s.ep 0).en = true →
    (s.ep 0).rxstp = true → p.length ≤ bankBytes (s.ep 0).size →
    (s.afterStall k).hostStep (.tokenIn s.epc.deviceAddress 0) =
        some ((s.afterStall k).answer (.tokenIn s.epc.deviceAddress 0) .stall) ∧
      (s.afterStall k).hostStep (.tokenOut s.epc.deviceAddress 0 p) =
        some ((s.afterStall k).answer (.tokenOut s.epc.deviceAddress 0 p) .stall)

/-- 43 R233, 70 R411: the stall path stalls and consumes whatever setup is pending when it comes to it. -/
def Obligations.StallPathConsumesPendingSetup : Prop :=
  ∀ (s u : State) (n : Nat) (k : List Stmt), s.chooses (.engine n) u → 3 ≤ n →
    u.engineAt (.sel 0 :: .stallTest :: .dispatchReturn :: k) →
    step s = .next
      { u with
        epc := { u.epc with sel := 0 }
        eps := u.eps.set 0
          (if (u.ep 0).en = true ∧ (u.ep 0).rxstp = true then
            { u.ep 0 with stallReq := true, fifo := [], rxstp := false, txin := true }
          else u.ep 0)
        engine := .busy (.dispatchReturn :: k) }

/-! ## GET_STATUS -/

/-- 43 R235, R236: GET_STATUS for the device writes a zero word to STATUS_RAM_ADDR and sends it; the rest of the state,
and every other byte of RAM, is as before. -/
def Obligations.GetStatusDeviceSendsZero : Prop :=
  ∀ (s : State) (k : List Stmt) (r : Request) (v x l : Half), s.readyAt k r →
    s.par.statusAddr + 1 < s.par.ramSize →
    exec (.getStatus .toHost .device v x l) s = .next
      (State.firstPacket { s with ram := Memory.setAll s.par.statusAddr [0, 0] s.ram }
        ⟨.ram, s.par.statusAddr⟩ 2 r.wLength.toNat [0, 0] k)

/-- 43 R235, R236, 30 R108, R109: GET_STATUS for endpoint `wIndex[3:0]`, at most 4, sends the endpoint's halt bit. -/
def Obligations.GetStatusEndpointSendsHaltBit : Prop :=
  ∀ (s : State) (k : List Stmt) (r : Request) (v x l : Half) (n : EpNum), s.readyAt k r →
    s.par.statusAddr + 1 < s.par.ramSize → (x.extractLsb' 0 4).toNat = n.val →
    exec (.getStatus .toHost .endpoint v x l) s = .next
      (State.firstPacket
        { s with
          ram := Memory.setAll s.par.statusAddr [if (s.ep n).stallReq then 1 else 0, 0] s.ram }
        ⟨.ram, s.par.statusAddr⟩ 2 r.wLength.toNat [if (s.ep n).stallReq then 1 else 0, 0] k)

/-- GET_STATUS stores to the two bytes of the status word alone, whatever its operands, the state and the burst (43 R236);
every other instruction stores to no byte at all. That no callback of the application stores either is the model's own DESIGN
CHOICE (log 22). -/
def Obligations.InstructionsStoreOnlyStatusWord : Prop :=
  ∀ (i : Instr) (s t : State), exec i s = .next t →
    (∀ a, a ≠ s.par.statusAddr → a ≠ s.par.statusAddr + 1 →
        Memory.get? a t.ram = Memory.get? a s.ram) ∧
      ((∀ d p v x l, i ≠ .getStatus d p v x l) → t.ram = s.ram)

/-! ## SET_ADDRESS -/

/-- 43 R241, R242: an accepted SET_ADDRESS programs `wValue[6:0]` with recognition off and commits the status packet; the
enable and the state write are still to come. -/
def Obligations.SetAddressCommitsStatus : Prop :=
  ∀ (s : State) (k : List Stmt) (r : Request) (v x l : Half), s.pendingAt k r →
    s.core.devState = .default →
    exec (.setAddress .toDevice .device v x l) s = .next
      (State.statusPacket
        { s with epc := { s.epc with addr := v.extractLsb' 0 7, addrEn := false } }
        (.addrEnable :: .setDevState .address :: (.sel 0 :: .stallTest :: .dispatchReturn :: k)))

/-- 43 R243: once the host has the status packet, recognition is enabled and the state is Address; with no new setup pending
the stall path does nothing. -/
def Obligations.SetAddressEnablesAfterStatus : Prop :=
  ∀ (s u : State) (n : Nat) (k : List Stmt) (v : CoVars), s.chooses (.engine n) u → 5 ≤ n →
    u.engineAt (.controlOut .waitDone v :: .addrEnable :: .setDevState .address ::
      .sel 0 :: .stallTest :: .dispatchReturn :: k) →
    (u.ep 0).txin = true → (u.ep 0).rxstp = false →
    step s = .next
      { u with
        core := { u.core with devState := .address }
        epc := { u.epc with addrEn := true, sel := 0 }
        engine := .busy (.dispatchReturn :: k) }

/-- 70 R400, 42 R207: the whole of SET_ADDRESS in three moves. The status packet is taken at address 0, and the new address
is recognised only after that. -/
def Obligations.SetAddressTakesEffectAfterStatus : Prop :=
  ∀ (s : State) (k : List Stmt) (r : Request) (v x l : Half), s.pendingAt k r →
    s.core.devState = .default → s.epc.attached = true → (s.ep 0).stallReq = false →
    ∃ t u w : State, exec (.setAddress .toDevice .device v x l) s = .next t ∧
      t.epc.deviceAddress = 0 ∧ t.core.devState = .default ∧ t.hostStep (.tokenIn 0 0) = some u ∧
      u.trace = s.trace ++ [.transaction (.tokenIn 0 0) (.data [])] ∧ u.epc.deviceAddress = 0 ∧
      w = State.runEngine 6 u ∧ w.epc.deviceAddress = v.extractLsb' 0 7 ∧
      w.core.devState = .address ∧ w.engine = .busy (.dispatchReturn :: k)

/-! ## SET_CONFIGURATION -/

/-- 43 R250, R251: an accepted SET_CONFIGURATION records the value and commits the status packet. -/
def Obligations.SetConfigurationCommitsStatus : Prop :=
  ∀ (s : State) (k : List Stmt) (r : Request) (v x l : Half), s.pendingAt k r →
    s.core.devState = .address → v.toNat ≤ 1 →
    exec (.setConfiguration .toDevice .device v x l) s = .next
      (State.statusPacket { s with core := { s.core with activeConfig := v.extractLsb' 0 8 } }
        (.recordConfigure :: .askConfigure :: .setDevState .configured ::
          (.sel 0 :: .stallTest :: .dispatchReturn :: k)))

/-- 43 R252: once the host has the status packet, the event joins the trace and the callback is asked for the configuration;
the records of its answer are configured in list order, and after them the state becomes Configured, and with no new setup
pending the stall path only selects endpoint 0. -/
def Obligations.SetConfigurationFinishes : Prop :=
  ∀ (s u : State) (n : Nat) (k : List Stmt), s.chooses (.engine n) u →
    (∀ (v : CoVars) (eds : List EndpointDesc) (t : State), n = 3 →
        u.engineAt (.controlOut .waitDone v :: .recordConfigure :: .askConfigure ::
          .setDevState .configured :: .sel 0 :: .stallTest :: .dispatchReturn :: k) →
        (u.ep 0).txin = true →
        (State.callConfigureEndpoints
          { u with trace := u.trace ++ [.configure u.core.activeConfig] } u.core.activeConfig) =
            (eds, t) →
        step s = .next
          { t with
            engine := .busy (eds.map (.configure .test) ++
              .setDevState .configured :: .sel 0 :: .stallTest :: .dispatchReturn :: k) }) ∧
      (2 ≤ n →
        u.engineAt (.setDevState .configured :: .sel 0 :: .stallTest :: .dispatchReturn :: k) →
        (u.ep 0).rxstp = false →
        step s = .next
          { u with
            core := { u.core with devState := .configured }
            epc := { u.epc with sel := 0 }
            engine := .busy (.dispatchReturn :: k) })

/-- 45 R301, R302: a record for the next endpoint in order brings that endpoint up, selects it and counts it; a record for any
other number is skipped; a fifth endpoint is fault F4 before any other effect. -/
def Obligations.ConfigureEndpointInOrder : Prop :=
  ∀ (s u : State) (m : Nat) (k : List Stmt) (ed : EndpointDesc), s.chooses (.engine m) u →
    u.engineAt (.configure .test ed :: k) →
    (∀ n : EpNum, m = 5 → edNumber ed = n.val → n.val = u.core.configuredMax.toNat + 1 →
        step s = .next
          { u with
            core := { u.core with configuredMax := u.core.configuredMax + 1 }
            epc := { u.epc with sel := n }
            eps := u.eps.set n (Ep.configured ed)
            engine := Engine.ofCont k }) ∧
      (m = 0 → edNumber ed ≠ u.core.configuredMax.toNat + 1 →
        step s = .next { u with engine := Engine.ofCont k }) ∧
      (m = 1 → edNumber ed = u.core.configuredMax.toNat + 1 → 5 ≤ edNumber ed →
        step s = .next
          { u with engine := .busy (.configure .select ed :: k), faults := [.epRange] })

/-! ## GET_DESCRIPTOR -/

/-- 43 R244, 44 R281: GET_DESCRIPTOR.DEVICE sends the descriptor at the callback's address, with its own `bLength`. -/
def Obligations.GetDescriptorDeviceSends : Prop :=
  ∀ (s t : State) (k : List Stmt) (r : Request) (p : Recipient) (i : Byte) (x l : Half) (a : Nat)
    (len : Byte) (bs : List Byte), s.readyAt k r → p ≠ .endpoint →
    s.callDeviceDescriptor = (some a, t) → s.romRead a = .ok len →
    s.sourceBytes ⟨.rom, a⟩ 0 bs →
    bs.length = min (min len.toNat r.wLength.toNat) s.core.ctrlMps.toNat →
    exec (.getDescriptorDevice .toHost p i x l) s = .next
      (t.firstPacket ⟨.rom, a⟩ len.toNat r.wLength.toNat bs k)

/-- 43 R244, 44 R282: GET_DESCRIPTOR.CONFIGURATION asks for the configuration selected and sends `wTotalLength` bytes. -/
def Obligations.GetDescriptorConfigurationSends : Prop :=
  ∀ (s t : State) (k : List Stmt) (r : Request) (p : Recipient) (i : Byte) (x l : Half) (a : Nat)
    (lo hi : Byte) (bs : List Byte), s.readyAt k r → p ≠ .endpoint →
    s.callConfigurationDescriptor s.core.activeConfig = (some a, t) → s.romRead (a + 2) = .ok lo →
    s.romRead (a + 3) = .ok hi → s.sourceBytes ⟨.rom, a⟩ 0 bs →
    bs.length =
      min (min (lo.toNat + 256 * hi.toNat) r.wLength.toNat) s.core.ctrlMps.toNat →
    exec (.getDescriptorConfiguration .toHost p i x l) s = .next
      (t.firstPacket ⟨.rom, a⟩ (lo.toNat + 256 * hi.toNat) r.wLength.toNat bs k)

/-- 43 R244, 44 R283: GET_DESCRIPTOR.STRING gives the callback the whole `wValue` and `wIndex`, and a descriptor it claims
is sent with its own `bLength`, whatever the index. -/
def Obligations.GetDescriptorStringSends : Prop :=
  ∀ (s t : State) (k : List Stmt) (r : Request) (p : Recipient) (i : Byte) (x l : Half) (a : Nat)
    (len : Byte) (bs : List Byte), s.readyAt k r → p ≠ .endpoint →
    s.callStringDescriptor (3#8 ++ i) x = (some a, t) → s.romRead a = .ok len →
    s.sourceBytes ⟨.rom, a⟩ 0 bs →
    bs.length = min (min len.toNat r.wLength.toNat) s.core.ctrlMps.toNat →
    exec (.getDescriptorString .toHost p i x l) s = .next
      (t.firstPacket ⟨.rom, a⟩ len.toNat r.wLength.toNat bs k)

/-- 44 R284, R285, 10 R30: an index the callback does not claim gives the language-ID constant for 0 and the serial buffer
for SERIAL_INDEX. -/
def Obligations.BuiltInStringsSend : Prop :=
  ∀ (s t : State) (k : List Stmt) (r : Request) (p : Recipient) (i : Byte) (x l : Half)
    (bs : List Byte), s.readyAt k r → p ≠ .endpoint →
    s.callStringDescriptor (3#8 ++ i) x = (none, t) →
    (i = 0 → s.par.langidAddr + 3 < s.par.romSize →
        exec (.getDescriptorString .toHost p i x l) s = .next
          (t.firstPacket ⟨.rom, s.par.langidAddr⟩ 4 r.wLength.toNat [0x04, 0x03, 0x09, 0x04] k)) ∧
      (i ≠ 0 → i = s.par.serialIndex → s.sourceBytes ⟨.ram, s.par.serialAddr⟩ 0 bs →
        bs.length = min (min 82 r.wLength.toNat) s.core.ctrlMps.toNat →
        exec (.getDescriptorString .toHost p i x l) s = .next
          (t.firstPacket ⟨.ram, s.par.serialAddr⟩ 82 r.wLength.toNat bs k))

/-- 44 R286: with no descriptor from the callback, and no built-in string, the request stalls. -/
def Obligations.MissingDescriptorsStall : Prop :=
  ∀ (s t : State) (k : List Stmt) (p : Recipient) (i : Byte) (x l : Half), s.atInstr k →
    7 ≤ s.burst → p ≠ .endpoint →
    (s.callDeviceDescriptor = (none, t) →
        exec (.getDescriptorDevice .toHost p i x l) s = .next (t.afterStall k)) ∧
      (s.callConfigurationDescriptor s.core.activeConfig = (none, t) →
        exec (.getDescriptorConfiguration .toHost p i x l) s = .next (t.afterStall k)) ∧
      (s.callStringDescriptor (3#8 ++ i) x = (none, t) → i ≠ 0 → i ≠ s.par.serialIndex →
        exec (.getDescriptorString .toHost p i x l) s = .next (t.afterStall k))

/-- 20 R61, 44 R281 to R283: a descriptor with a byte of its length outside ROM is fault F6: `bLength` of a device or string
descriptor, and either byte of a configuration's `wTotalLength`. The call has been made, and the state is otherwise the one
before the read. -/
def Obligations.DescriptorOutsideRomFaults : Prop :=
  ∀ (s t : State) (k : List Stmt) (p : Recipient) (i : Byte) (x l : Half) (a : Nat), s.atInstr k →
    5 ≤ s.burst → p ≠ .endpoint →
    (s.par.romSize ≤ a → s.callDeviceDescriptor = (some a, t) →
        exec (.getDescriptorDevice .toHost p i x l) s = .next
          { t with
            engine := .busy (.readLength a :: .sel 0 :: .stallTest :: .dispatchReturn :: k)
            faults := [.outOfRange] }) ∧
      (s.par.romSize ≤ a → s.callStringDescriptor (3#8 ++ i) x = (some a, t) →
        exec (.getDescriptorString .toHost p i x l) s = .next
          { t with
            engine := .busy (.readLength a :: .sel 0 :: .stallTest :: .dispatchReturn :: k)
            faults := [.outOfRange] }) ∧
      (s.par.romSize ≤ a + 2 → s.callConfigurationDescriptor s.core.activeConfig = (some a, t) →
        exec (.getDescriptorConfiguration .toHost p i x l) s = .next
          { t with
            engine := .busy (.readTotalLow a :: .sel 0 :: .stallTest :: .dispatchReturn :: k)
            faults := [.outOfRange] }) ∧
      ∀ lo, s.romRead (a + 2) = .ok lo → s.par.romSize ≤ a + 3 →
        s.callConfigurationDescriptor s.core.activeConfig = (some a, t) →
        exec (.getDescriptorConfiguration .toHost p i x l) s = .next
          { t with
            engine := .busy (.readTotalHigh a lo :: .sel 0 :: .stallTest :: .dispatchReturn :: k)
            faults := [.outOfRange] }

/-! ## VENDOR -/

/-- 43 R232: with a callback that answers `none` the event and the call are recorded and the request stalls; with `In` the
source is sent. -/
def Obligations.VendorRequestAnswered : Prop :=
  ∀ (s t : State) (k : List Stmt) (r : Request) (d : Dir) (p : Recipient) (q : Byte) (v x l : Half)
    (a : VendorAnswer) (src : Source) (len : Half) (bs : List Byte), s.readyAt k r →
    s.par.vendorPresent = true →
    State.callVendorRequest { s with trace := s.trace ++ [.vendor r] } r = (a, t) →
    (a = .nothing → exec (.vendorRequest d p q v x l) s = .next (t.afterStall k)) ∧
      (a = .dataIn src len → s.sourceBytes src 0 bs →
        bs.length = min (min len.toNat r.wLength.toNat) s.core.ctrlMps.toNat →
        exec (.vendorRequest d p q v x l) s = .next
          (t.firstPacket src len.toNat r.wLength.toNat bs k))

/-- 43 R232, 42 R205: with `Out` the engine waits for data, or with nothing to receive commits the status packet. -/
def Obligations.VendorOutWaitsForData : Prop :=
  ∀ (s t : State) (k : List Stmt) (r : Request) (d : Dir) (p : Recipient) (q : Byte) (v x l : Half)
    (len : Half), s.pendingAt k r → s.par.vendorPresent = true →
    State.callVendorRequest { s with trace := s.trace ++ [.vendor r] } r = (.dataOut len, t) →
    (0 < min len.toNat r.wLength.toNat → (s.ep 0).rxout = false → (s.ep 0).nakin = false →
        exec (.vendorRequest d p q v x l) s = .next
          { t with
            eps := t.eps.set 0 (s.ep 0).setupConsumed
            engine := .busy
              (.controlOut .waitData { len := min len.toNat r.wLength.toNat, got := 0 } ::
                .sel 0 :: .stallTest :: .dispatchReturn :: k) }) ∧
      (min len.toNat r.wLength.toNat = 0 →
        exec (.vendorRequest d p q v x l) s = .next
          (t.statusPacket (.sel 0 :: .stallTest :: .dispatchReturn :: k)))

/-- 43 R232: an answer outside the three forms is fault F5. The micro-step that raises it has no other effect (60 R355). That it
is the call's own, so that the state is the one after the event and before the call, is the model's DESIGN CHOICE (log 10). -/
def Obligations.VendorAnswerRefusedFaults : Prop :=
  ∀ (s : State) (k : List Stmt) (r : Request) (d : Dir) (p : Recipient) (q : Byte) (v x l : Half),
    s.atInstr k → s.core.req = some r → 3 ≤ s.burst → s.par.vendorPresent = true →
    (State.callVendorRequest { s with trace := s.trace ++ [.vendor r] } r).1 = .refusedForm →
    exec (.vendorRequest d p q v x l) s = .next
      { s with
        trace := s.trace ++ [.vendor r]
        engine := .busy (.askVendor :: .sel 0 :: .stallTest :: .dispatchReturn :: k)
        faults := [.vendorActionRefused] }

/-! ## The transfers after their first packet -/

/-- 42 R202, lines 9 to 13: when the host has taken a packet, the next one is written and committed. Where an OUT has been
accepted, before line 12 or within it, a control read's packet is discarded (42 R204, 70 R409), and in a request of direction
OUT the packet is committed whole while the OUT packet stays in the bank (42 R202, R210). That lines 12 and 13 are then not 40
R135's and R137's is the model's own DESIGN CHOICE (log 21). -/
def Obligations.ControlInSendsNextPacket : Prop :=
  ∀ (s u : State) (n : Nat) (k : List Stmt) (v : CiVars) (bs : List Byte), s.chooses (.engine n) u →
    u.sourceBytes v.src v.i bs →
    (n = bs.length + 3 → u.engineAt (.controlIn .waitData v :: k) → (u.ep 0).txin = true →
        (u.ep 0).nakout = false → bs.length = min (v.len - v.i) v.mps →
        (u.epc.sel = 0 → (u.ep 0).en = true → (u.ep 0).rxstp = false → (u.ep 0).rxout = false →
            (u.ep 0).fifo = [] → (u.ep 0).inq = none → v.mps ≤ bankBytes (u.ep 0).size →
            step s = .next
              { u with
                eps := u.eps.set 0 { u.ep 0 with txin := false, inq := some bs }
                engine := .busy (.controlIn .loop { v with i := v.i + bs.length } :: k) }) ∧
          ((u.ep 0).rxout = true → u.ctrlDir = .toDevice → u.epc.sel = 0 → (u.ep 0).en = true →
            step s = .next
              { u with
                eps := u.eps.set 0 { u.ep 0 with txin := false, inq := some bs }
                engine := .busy (.controlIn .loop { v with i := v.i + bs.length } :: k) }) ∧
          ((u.ep 0).rxout = true → u.ctrlDir = .toHost →
            step s = .next
              { u with engine := .busy (.controlIn .loop { v with i := v.i + bs.length } :: k) })) ∧
      ∀ p, n = bs.length → u.engineAt (.controlIn (ciFill bs.length p) v :: k) →
        (u.ep 0).rxout = true →
        (u.ctrlDir = .toDevice → u.epc.sel = 0 → (u.ep 0).en = true → (u.ep 0).txin = true →
            step s = .next
              { u with
                eps := u.eps.set 0 { u.ep 0 with txin := false, inq := some (p ++ bs) }
                engine := .busy (.controlIn .loop { v with i := v.i + bs.length } :: k) }) ∧
          (u.ctrlDir = .toHost →
            step s = .next
              { u with engine := .busy (.controlIn .loop { v with i := v.i + bs.length } :: k) })

/-- 42 R202, lines 9, 10 and 14 to 19, 70 R409: an OUT the host sent early ends the data stage at the next packet boundary with
no further packet; with no OUT refused the zero-length packet that is due is committed once the bank is free, whatever it
holds (log 20); and the status OUT is released and `control_in` returns. -/
def Obligations.ControlInEnds : Prop :=
  ∀ (s u : State) (n : Nat) (k : List Stmt) (v : CiVars), s.chooses (.engine n) u →
    (∀ l, 1 ≤ n → l = .waitData ∨ l = .waitZlp → u.engineAt (.controlIn l v :: k) →
        (u.ep 0).nakout = true → (u.ep 0).rxout = false →
        step s = .next { u with engine := .busy (.controlIn .waitStatus v :: k) }) ∧
      (n = 1 → u.engineAt (.controlIn .waitZlp v :: k) → u.epc.sel = 0 → (u.ep 0).en = true →
        (u.ep 0).txin = true → (u.ep 0).nakout = false →
        step s = .next
          { u with
            eps := u.eps.set 0 { u.ep 0 with txin := false, inq := some [] }
            engine := .busy (.controlIn .waitStatus v :: k) }) ∧
      (n = 2 → u.engineAt (.controlIn .waitStatus v :: k) → u.epc.sel = 0 → (u.ep 0).en = true →
        (u.ep 0).rxout = true →
        step s = .next
          { u with
            eps := u.eps.set 0 { u.ep 0 with fifo := [], rxout := false }
            engine := Engine.ofCont k })

/-- 42 R205, lines 6 to 15, R206, R207: one OUT packet is read up to the bytes still expected, each byte is an event, and the
rest of the packet is dropped; the data stage ends with the bytes expected, or with an IN the host sent while no OUT packet was
waiting; and the status stage, whatever went before it, commits a zero-length packet and returns once the host has taken it.
That an OUT packet the host has put in the bank before the commit stays there is 42 R208's; that the commit is then not 40
R137's is the model's own DESIGN CHOICE (log 20). -/
def Obligations.ControlOutReadsPacket : Prop :=
  ∀ (s u : State) (k : List Stmt) (v : CoVars) (n : Nat), s.chooses (.engine n) u →
    (n = min (u.ep 0).fifo.length (v.len - v.got) + 3 → u.engineAt (.controlOut .waitData v :: k) →
        u.epc.sel = 0 → (u.ep 0).en = true → (u.ep 0).rxout = true →
        step s = .next
          { u with
            eps := u.eps.set 0 { u.ep 0 with fifo := [], rxout := false }
            trace := u.trace ++ ((u.ep 0).fifo.take (v.len - v.got)).mapIdx
              (fun j b => .outByte 0 b (decide (v.got + j = 0)))
            engine := .busy (.controlOut .loop
              { v with got := v.got + min (u.ep 0).fifo.length (v.len - v.got) } :: k) }) ∧
      (n = 0 → u.engineAt (.controlOut .loop v :: k) →
        step s = .next
          { u with
            engine := .busy (.controlOut (if v.got < v.len then .waitData else .waitReady) v :: k) }) ∧
      (n = 1 → u.engineAt (.controlOut .waitData v :: k) → (u.ep 0).rxout = false →
        (u.ep 0).nakin = true →
        step s = .next { u with engine := .busy (.controlOut .waitReady v :: k) }) ∧
      (n = 1 → u.engineAt (.controlOut .waitReady v :: k) → u.epc.sel = 0 → (u.ep 0).en = true →
        (u.ep 0).txin = true →
        step s = .next
          { u with
            eps := u.eps.set 0 { u.ep 0 with txin := false, inq := some [] }
            engine := .busy (.controlOut .waitDone v :: k) }) ∧
      (n = 1 → u.engineAt (.controlOut .waitDone v :: k) → (u.ep 0).txin = true →
        step s = .next { u with engine := Engine.ofCont k })

/-! ## The host's transactions -/

/-- 40 R151: a bus reset. -/
def Obligations.BusResetDisablesEndpoints : Prop :=
  ∀ s u : State, s.chooses (.host .busReset) u → u.epc.attached = true →
    step s = .next
      { u with
        eps := ⟨Ep.blank, Ep.blank, Ep.blank, Ep.blank, Ep.blank⟩
        ctrlDir := .toDevice
        epc := { u.epc with addr := 0, addrEn := false, eorst := true }
        trace := u.trace ++ [.busReset] }

/-- 40 R152: a setup transaction. There is none while a setup is pending; one at another address or to a disabled endpoint 0
times out; any other is accepted, and clears the stall and whatever the bank held. That a setup chosen while one is pending
answers a next state, with only the choice taken, is the model's own DESIGN CHOICE (log 9); the rule says only that there is no
move. -/
def Obligations.SetupTransactions : Prop :=
  ∀ (s u : State) (a : BitVec 7) (b0 b1 b2 b3 b4 b5 b6 b7 : Byte),
    s.chooses (.host (.setup a [b0, b1, b2, b3, b4, b5, b6, b7])) u → u.epc.attached = true →
    step s = .next
      (if (u.ep 0).rxstp = true then u
      else if a ≠ (if u.epc.addrEn then u.epc.addr else 0) ∨ (u.ep 0).en = false then
        { u with trace := u.trace ++ [.transaction (.setup a [b0, b1, b2, b3, b4, b5, b6, b7]) .timeout] }
      else
        { u with
          eps := u.eps.set 0
            { u.ep 0 with
              fifo := [b0, b1, b2, b3, b4, b5, b6, b7], rxstp := true, txin := false, rxout := false,
              nakout := false, nakin := false, stallReq := false, inq := none }
          ctrlDir := if b0.getLsbD 7 then .toHost else .toDevice
          trace := u.trace ++ [.transaction (.setup a [b0, b1, b2, b3, b4, b5, b6, b7]) .ack] })

/-- 40 R150: before the device is attached the host has no move; a transaction to an endpoint that does not exist times out, at
whatever address, and changes nothing. That a transaction chosen before the device is attached answers a next state, with only
the choice taken, is the model's own DESIGN CHOICE (log 9); the rule says only that the move is not enabled. -/
def Obligations.UnansweredTransactions : Prop :=
  ∀ (s u : State) (tx : HostTx), s.chooses (.host tx) u →
    (u.epc.attached = false → step s = .next u) ∧
      (∀ a e, tx = .tokenIn a e → u.epc.attached = true → 5 ≤ e →
        step s = .next { u with trace := u.trace ++ [.transaction tx .timeout] }) ∧
      ∀ a e p, tx = .tokenOut a e p → u.epc.attached = true → 5 ≤ e →
        step s = .next { u with trace := u.trace ++ [.transaction tx .timeout] }

/-- 40 R153, R155: an IN times out at another address, at a disabled endpoint and against the direction of endpoints 1 to 4; else
it is answered STALL, or takes the committed packet, or is answered NAK. -/
def Obligations.InTransactions : Prop :=
  ∀ (s u : State) (a : BitVec 7) (n : EpNum), s.chooses (.host (.tokenIn a n.val)) u →
    u.epc.attached = true →
    step s = .next
      (if a ≠ (if u.epc.addrEn then u.epc.addr else 0) ∨ (u.ep n).en = false ∨
          (n ≠ 0 ∧ (u.ep n).dir = .toDevice) then
        { u with trace := u.trace ++ [.transaction (.tokenIn a n.val) .timeout] }
      else if (u.ep n).stallReq = true then
        { u with trace := u.trace ++ [.transaction (.tokenIn a n.val) .stall] }
      else
        match (u.ep n).inq with
        | some p =>
          { u with
            eps := u.eps.set n { u.ep n with inq := none, txin := true }
            trace := u.trace ++ [.transaction (.tokenIn a n.val) (.data p)] }
        | none =>
          { u with
            eps := u.eps.set n { u.ep n with nakin := true }
            trace := u.trace ++ [.transaction (.tokenIn a n.val) .nak] })

/-- 40 R154: an OUT to endpoint 0, by the direction of the control transfer. -/
def Obligations.OutTransactionsToEndpointZero : Prop :=
  ∀ (s u : State) (a : BitVec 7) (p : List Byte), s.chooses (.host (.tokenOut a 0 p)) u →
    u.epc.attached = true → p.length ≤ bankBytes (u.ep 0).size →
    step s = .next
      (if a ≠ (if u.epc.addrEn then u.epc.addr else 0) ∨ (u.ep 0).en = false then
        { u with trace := u.trace ++ [.transaction (.tokenOut a 0 p) .timeout] }
      else if (u.ep 0).stallReq = true then
        { u with trace := u.trace ++ [.transaction (.tokenOut a 0 p) .stall] }
      else if u.ctrlDir = .toHost then
        if (u.ep 0).rxstp = false ∧ (u.ep 0).rxout = false ∧ (u.ep 0).nakout = true then
          { u with
            eps := u.eps.set 0 { u.ep 0 with fifo := [], rxout := true, inq := none, txin := true }
            trace := u.trace ++ [.transaction (.tokenOut a 0 p) .ack] }
        else
          { u with
            eps := u.eps.set 0 { u.ep 0 with nakout := true }
            trace := u.trace ++ [.transaction (.tokenOut a 0 p) .nak] }
      else if (u.ep 0).rxstp = false ∧ (u.ep 0).rxout = false then
        { u with
          eps := u.eps.set 0 { u.ep 0 with fifo := p, rxout := true }
          trace := u.trace ++ [.transaction (.tokenOut a 0 p) .ack] }
      else
        { u with
          eps := u.eps.set 0 { u.ep 0 with nakout := true }
          trace := u.trace ++ [.transaction (.tokenOut a 0 p) .nak] })

/-- 40 R156: an OUT to one of endpoints 1 to 4. -/
def Obligations.OutTransactionsToOtherEndpoints : Prop :=
  ∀ (s u : State) (a : BitVec 7) (n : EpNum) (p : List Byte), s.chooses (.host (.tokenOut a n.val p)) u →
    u.epc.attached = true → n ≠ 0 → p.length ≤ bankBytes (u.ep n).size →
    step s = .next
      (if a ≠ (if u.epc.addrEn then u.epc.addr else 0) ∨ (u.ep n).en = false ∨
          (u.ep n).dir = .toHost then
        { u with trace := u.trace ++ [.transaction (.tokenOut a n.val p) .timeout] }
      else if (u.ep n).stallReq = true then
        { u with trace := u.trace ++ [.transaction (.tokenOut a n.val p) .stall] }
      else if (u.ep n).rxout = false then
        { u with
          eps := u.eps.set n { u.ep n with fifo := p, rxout := true }
          trace := u.trace ++ [.transaction (.tokenOut a n.val p) .ack] }
      else
        { u with
          eps := u.eps.set n { u.ep n with nakout := true }
          trace := u.trace ++ [.transaction (.tokenOut a n.val p) .nak] })

/-! ## Reset, initialisation and the reset handler -/

/-- 70 R390, R391, first column: every field the spec gives a power-on value. -/
def Obligations.PowerOnValues : Prop :=
  State.reset.core =
      { devState := .default, req := none, configuredMax := 0, ctrlMps := 0, activeConfig := 0,
        initialized := false } ∧
    State.reset.epc =
      { sel := 0, addr := 0, addrEn := false, eorst := false, eorstEn := false, attached := false } ∧
    (∀ n : EpNum, State.reset.ep n =
      { en := false, type := 0, dir := .toDevice, size := 0, rxstp := false, txin := false,
        rxout := false, nakout := false, nakin := false, stallReq := false, fifo := [], inq := none }) ∧
    State.reset.ctrlDir = .toDevice ∧ (∀ a, Memory.get? a State.reset.ram = none) ∧
    State.reset.engine = .preInit ∧ State.reset.faults = [] ∧ State.reset.trace = []

/-- 46 R316, R318: a run of the reset handler that finds a descriptor with a legal packet size. -/
def Obligations.ResetHandlerCompletes : Prop :=
  ∀ (s u t : State) (d : Nat) (mps : Byte), s.chooses .resetAgent u → u.epc.eorst = true →
    u.epc.eorstEn = true → u.eventAck.callDeviceDescriptor = (some d, t) →
    u.romRead (d + 7) = .ok mps → mps = 8 ∨ mps = 16 ∨ mps = 32 ∨ mps = 64 →
    step s = .next
      { t with
        core :=
          { u.core with ctrlMps := mps, devState := .default, activeConfig := 0, configuredMax := 0 }
        epc := { u.epc with eorst := false, sel := 0 }
        eps := u.eps.set 0
          { en := true, type := 0, dir := .toDevice, size := sizeClass (mps.setWidth 16),
            rxstp := false, txin := true, rxout := false, nakout := false, nakin := false,
            stallReq := false, fifo := [], inq := none }
        ctrlDir := .toDevice
        engine := u.engine.abandoned }

/-- 46 R316, R317, 70 R408: a run that finds no descriptor changes `eorst` and the engine's position only; one whose packet size
is illegal is fault F2, and one whose size byte lies outside ROM fault F6, with no other effect. -/
def Obligations.ResetHandlerAbortsOrFaults : Prop :=
  ∀ (s u t : State) (c : Option Nat), s.chooses .resetAgent u → u.epc.eorst = true →
    u.epc.eorstEn = true → u.eventAck.callDeviceDescriptor = (c, t) →
    (c = none →
        step s = .next
          { t with epc := { u.epc with eorst := false }, engine := u.engine.abandoned }) ∧
      (∀ d mps, c = some d → u.romRead (d + 7) = .ok mps → mps ≠ 8 → mps ≠ 16 → mps ≠ 32 →
        mps ≠ 64 → step s = .next { u with faults := [.badEp0Size] }) ∧
      ∀ d, c = some d → u.par.romSize ≤ d + 7 → step s = .next { u with faults := [.outOfRange] }

/-- 46 R320, R321: `init` from power-on, as one run of the engine: the serial buffer is written, and the reset event enabled and
the device attached after it. -/
def Obligations.InitAttachesDevice : Prop :=
  ∀ (s u : State) (n : Nat), s.chooses (.engine n) u → 88 ≤ n → u.engineEnabled = true →
    u.engine = .preInit → u.core.initialized = false → u.epc.eorst = false →
    serialTextLegal (serialText u.par.serialMap u.par.hwId) = true →
    u.par.serialAddr + 82 ≤ u.par.ramSize →
    step s = .next
      { u with
        core := { u.core with initialized := true }
        epc := { u.epc with eorstEn := true, attached := true }
        ram := Memory.setAll u.par.serialAddr
          ([0x52, 0x03] ++ (serialText u.par.serialMap u.par.hwId).flatMap fun c => [c, 0x00]) u.ram
        engine := .idle }

/-- 46 R320, R322: a character map that breaks its constraint is fault F7 before anything is written; a second call of `init`
changes nothing. -/
def Obligations.InitRejectsOrIsIdempotent : Prop :=
  ∀ s u : State,
    (s.chooses (.engine 3) u → u.engineEnabled = true → u.engine = .preInit →
        u.core.initialized = false →
        serialTextLegal (serialText u.par.serialMap u.par.hwId) = false →
        step s = .next
          { u with
            engine := .busy [.init (.check (serialText u.par.serialMap u.par.hwId))]
            faults := [.serialMapInvalid] }) ∧
      (s.chooses .callInit u → u.engine = .idle → u.core.initialized = true → step s = .next u)

/-! ## The poll loop -/

/-- 47 R332: an IN endpoint whose bank is free is filled from the callback's bytes and committed; `bs` are the answers already
chosen for it, a whole bank of them. -/
def Obligations.TaskFillsInEndpoint : Prop :=
  ∀ (s u : State) (k : List Stmt) (n : EpNum) (m : Nat) (bs rest : List Byte),
    s.chooses (.engine (3 * bs.length + 4)) u → u.engineAt (.serveSelect n.val m :: k) → n ≠ 0 →
    (u.ep n).dir = .toHost → (u.ep n).en = true → (u.ep n).txin = true → (u.ep n).rxstp = false →
    (u.ep n).inq = none → (u.ep n).fifo = [] → u.env.inByte = bs ++ rest →
    bs.length = bankBytes (u.ep n).size →
    step s = .next
      { u with
        epc := { u.epc with sel := n }
        eps := u.eps.set n { u.ep n with txin := false, inq := some bs }
        env := { u.env with inByte := rest }
        calls := u.calls ++ bs.mapIdx fun j _ => .endpointInByte n.val (decide (j = 0))
        engine := .busy ((if n.val + 1 ≤ m then .serveSelect (n.val + 1) m else .taskReturn) :: k) }

/-- 47 R333: an OUT endpoint with a packet is drained: an event and a call for each byte, and the bank released. -/
def Obligations.TaskDrainsOutEndpoint : Prop :=
  ∀ (s u : State) (k : List Stmt) (n : EpNum) (m : Nat),
    s.chooses (.engine (3 * (u.ep n).fifo.length + 4)) u → u.engineAt (.serveSelect n.val m :: k) →
    (u.ep n).dir = .toDevice → (u.ep n).en = true → (u.ep n).rxout = true →
    step s = .next
      { u with
        epc := { u.epc with sel := n }
        eps := u.eps.set n { u.ep n with fifo := [], rxout := false }
        trace := u.trace ++ (u.ep n).fifo.mapIdx fun j b => .outByte n.val b (decide (j = 0))
        calls := u.calls ++ (u.ep n).fifo.mapIdx fun j b =>
          .endpointOutByte n.val b (decide (j = 0))
        engine := .busy ((if n.val + 1 ≤ m then .serveSelect (n.val + 1) m else .taskReturn) :: k) }

/-! ## The register view -/

/-- 30 R115 to R124: what a write of each register and a read of each does. The model's own choices (log 17) are in it only
where the text below says so: reserved bits are ignored when written and read 0, EPSEL's number being bits 2:0; a write of EPBC
is ignored. EPCTL is stated where the order of one write's actions, which 30 R117 leaves open, does not matter. -/
def Obligations.RegisterWrites : Prop :=
  ∀ (s : State) (b : Byte),
    -- writes of the address, the selection and the control register
    (s.regWrite .addr b =
        .ok { s with epc := { s.epc with addr := b.extractLsb' 0 7, addrEn := b.getLsbD 7 } } ∧
      (∀ n : EpNum, b.toNat % 8 = n.val →
        s.regWrite .epsel b = .ok { s with epc := { s.epc with sel := n } }) ∧
      (5 ≤ b.toNat % 8 → s.regWrite .epsel b = .error .epRange) ∧
      (b.getLsbD 0 = false → s.regWrite .epctl b = .ok (s.setSelected
        { Ep.blank with type := s.selected.type, dir := s.selected.dir, size := s.selected.size })) ∧
      (b.getLsbD 0 = true → b.getLsbD 5 = false → s.regWrite .epctl b = .ok (s.setSelected
        { s.selected with
          en := true, stallReq := if b.getLsbD 4 then false else s.selected.stallReq })) ∧
      (b.getLsbD 0 = true → b.getLsbD 5 = true → b.getLsbD 4 = false → s.selected.en = true →
        s.regWrite .epctl b = .ok (s.setSelected { s.selected with stallReq := true }))) ∧
    -- writes of the configuration registers
    (s.regWrite .epcfg0 b = .ok (s.setSelected
        { s.selected with
          type := b.extractLsb' 6 2, dir := if b.getLsbD 0 then .toHost else .toDevice }) ∧
      (b.getLsbD 6 = true → s.regWrite .epcfg1 b = .error .reservedWrite) ∧
      (b.getLsbD 6 = false →
        s.regWrite .epcfg1 b = .ok (s.setSelected { s.selected with size := b.extractLsb' 4 2 }))) ∧
    -- EPINT: a flag written as 0 acts, and several act in the order 0, 2, 3, 4, 6
    (s.regWrite .epint (b ||| 0x5D) = .ok s ∧
      s.regWrite .epint (b &&& 0xA2 ||| 0x5C) =
        .ok (if s.selected.en = true ∧ s.selected.txin = true then
          s.setSelected { s.selected with inq := some s.selected.fifo, fifo := [], txin := false }
        else s) ∧
      s.regWrite .epint (b &&& 0xA2 ||| 0x59) =
        .ok (if s.selected.en = true ∧ s.selected.rxout = true then
          s.setSelected { s.selected with fifo := [], rxout := false }
        else s) ∧
      s.regWrite .epint (b &&& 0xA2 ||| 0x55) =
        .ok (if s.selected.en = true ∧ s.selected.rxstp = true then
          s.setSelected { s.selected with fifo := [], rxstp := false, txin := true }
        else s) ∧
      s.regWrite .epint (b &&& 0xA2 ||| 0x4D) = .ok (s.setSelected { s.selected with nakout := false }) ∧
      s.regWrite .epint (b &&& 0xA2 ||| 0x1D) = .ok (s.setSelected { s.selected with nakin := false }) ∧
      s.regWrite .epint b =
        ((((s.regWrite .epint (b ||| 0x5C)).bind (·.regWrite .epint (b ||| 0x59))).bind
          (·.regWrite .epint (b ||| 0x55))).bind (·.regWrite .epint (b ||| 0x4D))).bind
          (·.regWrite .epint (b ||| 0x1D))) ∧
    -- EPBC and EPDAT
    (s.regWrite .epbc b = .ok s ∧
      s.regWrite .epdat b =
        (if s.selected.en = false ∨ s.selected.rxstp = true then .ok s
        else if s.selected.fifo.length < bankBytes s.selected.size ∧ s.selected.inq = none then
          .ok (s.setSelected { s.selected with fifo := s.selected.fifo ++ [b] })
        else .error .fifoOverflow)) ∧
    -- the device's event and attachment
    ((b.getLsbD 3 = false → s.regWrite .devint b = .ok { s with epc := { s.epc with eorst := false } }) ∧
      (b.getLsbD 3 = true → s.regWrite .devint b = .ok s) ∧
      s.regWrite .devien b = .ok { s with epc := { s.epc with eorstEn := b.getLsbD 3 } } ∧
      (b.getLsbD 0 = false → s.regWrite .devcon b = .ok { s with epc := { s.epc with attached := true } }) ∧
      (b.getLsbD 0 = true → s.epc.attached = true → s.regWrite .devcon b = .error .reservedWrite)) ∧
    -- reads: only EPDAT's has an effect
    ((∀ r, r ≠ .epdat → (s.regRead r).2 = s) ∧
      (∀ c bs, s.selected.en = true → s.selected.fifo = c :: bs →
        s.regRead .epdat = (c, s.setSelected { s.selected with fifo := bs })) ∧
      (∀ n, (s.regRead .addr).1.getLsbD n =
        if n = 7 then s.epc.addrEn else s.epc.addr.getLsbD n) ∧
      (s.regRead .epsel).1.toNat = s.epc.sel.val ∧
      (∀ n, (s.regRead .epctl).1.getLsbD n =
        (decide (n = 0) && s.selected.en || decide (n = 5) && s.selected.stallReq)) ∧
      (∀ n, (s.regRead .epcfg0).1.getLsbD n =
        if n = 0 then decide (s.selected.dir = .toHost)
        else decide (6 ≤ n) && s.selected.type.getLsbD (n - 6)) ∧
      (∀ n, (s.regRead .epcfg1).1.getLsbD n = (decide (4 ≤ n) && s.selected.size.getLsbD (n - 4))) ∧
      (∀ n, (s.regRead .epint).1.getLsbD n =
        (decide (n = 0) && s.selected.txin || decide (n = 2) && s.selected.rxout
          || decide (n = 3) && s.selected.rxstp || decide (n = 4) && s.selected.nakout
          || decide (n = 5) && s.windowOpen || decide (n = 6) && s.selected.nakin)) ∧
      (s.regRead .epbc).1.toNat = s.selected.fifo.length % 256 ∧
      (∀ n, (s.regRead .devint).1.getLsbD n = (decide (n = 3) && s.epc.eorst)) ∧
      (∀ n, (s.regRead .devien).1.getLsbD n = (decide (n = 3) && s.epc.eorstEn)) ∧
      ∀ n, (s.regRead .devcon).1.getLsbD n = (decide (n = 0) && !s.epc.attached))

/-! ## What every step keeps -/

/-- The model's own memory form (logs 5 and 6): both memories keep it in every step. -/
def Obligations.StepKeepsMemoriesCanonical : Prop :=
  ∀ s t : State, Memory.wf s.rom = true ∧ Memory.wf s.ram = true → step s = .next t →
    Memory.wf t.rom = true ∧ Memory.wf t.ram = true

/-- 40 R149: a disabled endpoint keeps all its flags at 0, its bank empty and nothing committed. -/
def Obligations.StepKeepsDisabledQuiet : Prop :=
  ∀ s t : State, s.DisabledQuiet → step s = .next t → t.DisabledQuiet

/-- 40 R137, R152, 10 R39, 70 R403: every bank keeps one owner, and only endpoint 0 ever has a setup pending. -/
def Obligations.StepKeepsBanksOwned : Prop :=
  ∀ s t : State, s.BanksOwned → step s = .next t → t.BanksOwned

/-- 10 R27, 45 R302: an enabled endpoint 0 keeps a legal packet size that is its bank's size, and configuredMax stays at most
4. -/
def Obligations.StepKeepsPacketSize : Prop :=
  ∀ s t : State, s.SizesInv → step s = .next t → t.SizesInv

/-- 41 R191: what the engine is still to run writes at most one device state, the one the table allows next. -/
def Obligations.StepKeepsStateMachine : Prop :=
  ∀ s t : State, s.StateMachineInv → step s = .next t → t.StateMachineInv

/-- 42 R210: the bytes `control_in` takes from its source and `control_out` records stay within the request's length. -/
def Obligations.StepKeepsTransferBounded : Prop :=
  ∀ s t : State, s.TransferBounded → step s = .next t → t.TransferBounded

/-- 42 R209, 70 R406: whatever acts on endpoint 0 by way of the selection finds it selected, so fault F3 is never recorded. -/
def Obligations.StepKeepsSelection : Prop :=
  ∀ s t : State, s.SelectionInv → step s = .next t →
    t.SelectionInv ∧ (.ep0NotSelected ∈ t.faults → .ep0NotSelected ∈ s.faults)

/-- Every invariant holds at power-on. -/
def Obligations.InvariantsHoldAtReset : Prop :=
  Memory.wf State.reset.rom = true ∧ Memory.wf State.reset.ram = true ∧ State.reset.DisabledQuiet ∧
    State.reset.BanksOwned ∧ State.reset.SizesInv ∧ State.reset.StateMachineInv ∧
    State.reset.TransferBounded ∧ State.reset.SelectionInv

/-- 41 R191, R193: a step changes the device state only along the table: Default to Address or Address to Configured by a move
of the engine, or to Default by the reset agent. -/
def Obligations.DeviceStateTransitions : Prop :=
  ∀ s t : State, s.StateMachineInv → step s = .next t →
    t.core.devState = s.core.devState ∨
      (∃ n, s.nextMove.1 = .engine n ∧ s.core.devState.next = some t.core.devState) ∨
      (s.nextMove.1 = .resetAgent ∧ t.core.devState = .default)

/-- 10 R24, R26, R30, R44, R45, 20 R61: ROM and the parameters never change, the negotiated size is the reset agent's alone to
write, and the trace, `initialized`, `eorstEn` and `attached` only grow. -/
def Obligations.StepKeepsFixedState : Prop :=
  ∀ s t : State, step s = .next t →
    t.rom = s.rom ∧ t.par = s.par ∧
      (s.nextMove.1 ≠ .resetAgent → t.core.ctrlMps = s.core.ctrlMps) ∧
      (∃ es, t.trace = s.trace ++ es) ∧
      (s.core.initialized = true → t.core.initialized = true) ∧
      (s.epc.eorstEn = true → t.epc.eorstEn = true) ∧
      (s.epc.attached = true → t.epc.attached = true)
end

