-- ==== Sys2Proof/Laws/State.lean ====
section
/-! SUPPORT. What each named update of the state does to each field, so that no proof unfolds a record update. -/

namespace Sys2Proof.Machine

/-! ## Plain updates -/

@[simp] theorem State.goto_core (s : State) (k : List Stmt) : (s.goto k).core = s.core := rfl
@[simp] theorem State.goto_epc (s : State) (k : List Stmt) : (s.goto k).epc = s.epc := rfl
@[simp] theorem State.goto_eps (s : State) (k : List Stmt) : (s.goto k).eps = s.eps := rfl
@[simp] theorem State.goto_ctrlDir (s : State) (k : List Stmt) : (s.goto k).ctrlDir = s.ctrlDir := rfl
@[simp] theorem State.goto_rom (s : State) (k : List Stmt) : (s.goto k).rom = s.rom := rfl
@[simp] theorem State.goto_ram (s : State) (k : List Stmt) : (s.goto k).ram = s.ram := rfl
@[simp] theorem State.goto_engine (s : State) (k : List Stmt) : (s.goto k).engine = Engine.ofCont k := rfl
@[simp] theorem State.goto_faults (s : State) (k : List Stmt) : (s.goto k).faults = s.faults := rfl
@[simp] theorem State.goto_trace (s : State) (k : List Stmt) : (s.goto k).trace = s.trace := rfl
@[simp] theorem State.goto_par (s : State) (k : List Stmt) : (s.goto k).par = s.par := rfl
@[simp] theorem State.goto_env (s : State) (k : List Stmt) : (s.goto k).env = s.env := rfl
@[simp] theorem State.goto_calls (s : State) (k : List Stmt) : (s.goto k).calls = s.calls := rfl
@[simp] theorem State.goto_burst (s : State) (k : List Stmt) : (s.goto k).burst = s.burst := rfl

@[simp] theorem State.record_core (s : State) (e : Event) : (s.record e).core = s.core := rfl
@[simp] theorem State.record_epc (s : State) (e : Event) : (s.record e).epc = s.epc := rfl
@[simp] theorem State.record_eps (s : State) (e : Event) : (s.record e).eps = s.eps := rfl
@[simp] theorem State.record_ctrlDir (s : State) (e : Event) : (s.record e).ctrlDir = s.ctrlDir := rfl
@[simp] theorem State.record_rom (s : State) (e : Event) : (s.record e).rom = s.rom := rfl
@[simp] theorem State.record_ram (s : State) (e : Event) : (s.record e).ram = s.ram := rfl
@[simp] theorem State.record_engine (s : State) (e : Event) : (s.record e).engine = s.engine := rfl
@[simp] theorem State.record_faults (s : State) (e : Event) : (s.record e).faults = s.faults := rfl
@[simp] theorem State.record_trace (s : State) (e : Event) : (s.record e).trace = s.trace ++ [e] := rfl
@[simp] theorem State.record_par (s : State) (e : Event) : (s.record e).par = s.par := rfl
@[simp] theorem State.record_env (s : State) (e : Event) : (s.record e).env = s.env := rfl
@[simp] theorem State.record_calls (s : State) (e : Event) : (s.record e).calls = s.calls := rfl
@[simp] theorem State.record_burst (s : State) (e : Event) : (s.record e).burst = s.burst := rfl

@[simp] theorem State.called_core (s : State) (c : Call) : (s.called c).core = s.core := rfl
@[simp] theorem State.called_epc (s : State) (c : Call) : (s.called c).epc = s.epc := rfl
@[simp] theorem State.called_eps (s : State) (c : Call) : (s.called c).eps = s.eps := rfl
@[simp] theorem State.called_ctrlDir (s : State) (c : Call) : (s.called c).ctrlDir = s.ctrlDir := rfl
@[simp] theorem State.called_rom (s : State) (c : Call) : (s.called c).rom = s.rom := rfl
@[simp] theorem State.called_ram (s : State) (c : Call) : (s.called c).ram = s.ram := rfl
@[simp] theorem State.called_engine (s : State) (c : Call) : (s.called c).engine = s.engine := rfl
@[simp] theorem State.called_faults (s : State) (c : Call) : (s.called c).faults = s.faults := rfl
@[simp] theorem State.called_trace (s : State) (c : Call) : (s.called c).trace = s.trace := rfl
@[simp] theorem State.called_par (s : State) (c : Call) : (s.called c).par = s.par := rfl
@[simp] theorem State.called_env (s : State) (c : Call) : (s.called c).env = s.env := rfl
@[simp] theorem State.called_calls (s : State) (c : Call) : (s.called c).calls = s.calls ++ [c] := rfl
@[simp] theorem State.called_burst (s : State) (c : Call) : (s.called c).burst = s.burst := rfl

@[simp] theorem State.raise_core (s : State) (f : Fault) : (s.raise f).core = s.core := rfl
@[simp] theorem State.raise_epc (s : State) (f : Fault) : (s.raise f).epc = s.epc := rfl
@[simp] theorem State.raise_eps (s : State) (f : Fault) : (s.raise f).eps = s.eps := rfl
@[simp] theorem State.raise_ctrlDir (s : State) (f : Fault) : (s.raise f).ctrlDir = s.ctrlDir := rfl
@[simp] theorem State.raise_rom (s : State) (f : Fault) : (s.raise f).rom = s.rom := rfl
@[simp] theorem State.raise_ram (s : State) (f : Fault) : (s.raise f).ram = s.ram := rfl
@[simp] theorem State.raise_engine (s : State) (f : Fault) : (s.raise f).engine = s.engine := rfl
@[simp] theorem State.raise_faults (s : State) (f : Fault) : (s.raise f).faults = if f ∈ s.faults then s.faults else s.faults ++ [f] := rfl
@[simp] theorem State.raise_trace (s : State) (f : Fault) : (s.raise f).trace = s.trace := rfl
@[simp] theorem State.raise_par (s : State) (f : Fault) : (s.raise f).par = s.par := rfl
@[simp] theorem State.raise_env (s : State) (f : Fault) : (s.raise f).env = s.env := rfl
@[simp] theorem State.raise_calls (s : State) (f : Fault) : (s.raise f).calls = s.calls := rfl
@[simp] theorem State.raise_burst (s : State) (f : Fault) : (s.raise f).burst = s.burst := rfl

@[simp] theorem State.setEp_core (s : State) (n : EpNum) (e : Ep) : (s.setEp n e).core = s.core := rfl
@[simp] theorem State.setEp_epc (s : State) (n : EpNum) (e : Ep) : (s.setEp n e).epc = s.epc := rfl
@[simp] theorem State.setEp_eps (s : State) (n : EpNum) (e : Ep) : (s.setEp n e).eps = s.eps.set n e := rfl
@[simp] theorem State.setEp_ctrlDir (s : State) (n : EpNum) (e : Ep) : (s.setEp n e).ctrlDir = s.ctrlDir := rfl
@[simp] theorem State.setEp_rom (s : State) (n : EpNum) (e : Ep) : (s.setEp n e).rom = s.rom := rfl
@[simp] theorem State.setEp_ram (s : State) (n : EpNum) (e : Ep) : (s.setEp n e).ram = s.ram := rfl
@[simp] theorem State.setEp_engine (s : State) (n : EpNum) (e : Ep) : (s.setEp n e).engine = s.engine := rfl
@[simp] theorem State.setEp_faults (s : State) (n : EpNum) (e : Ep) : (s.setEp n e).faults = s.faults := rfl
@[simp] theorem State.setEp_trace (s : State) (n : EpNum) (e : Ep) : (s.setEp n e).trace = s.trace := rfl
@[simp] theorem State.setEp_par (s : State) (n : EpNum) (e : Ep) : (s.setEp n e).par = s.par := rfl
@[simp] theorem State.setEp_env (s : State) (n : EpNum) (e : Ep) : (s.setEp n e).env = s.env := rfl
@[simp] theorem State.setEp_calls (s : State) (n : EpNum) (e : Ep) : (s.setEp n e).calls = s.calls := rfl
@[simp] theorem State.setEp_burst (s : State) (n : EpNum) (e : Ep) : (s.setEp n e).burst = s.burst := rfl

@[simp] theorem State.setSelected_core (s : State) (e : Ep) : (s.setSelected e).core = s.core := rfl
@[simp] theorem State.setSelected_epc (s : State) (e : Ep) : (s.setSelected e).epc = s.epc := rfl
@[simp] theorem State.setSelected_eps (s : State) (e : Ep) : (s.setSelected e).eps = s.eps.set s.epc.sel e := rfl
@[simp] theorem State.setSelected_ctrlDir (s : State) (e : Ep) : (s.setSelected e).ctrlDir = s.ctrlDir := rfl
@[simp] theorem State.setSelected_rom (s : State) (e : Ep) : (s.setSelected e).rom = s.rom := rfl
@[simp] theorem State.setSelected_ram (s : State) (e : Ep) : (s.setSelected e).ram = s.ram := rfl
@[simp] theorem State.setSelected_engine (s : State) (e : Ep) : (s.setSelected e).engine = s.engine := rfl
@[simp] theorem State.setSelected_faults (s : State) (e : Ep) : (s.setSelected e).faults = s.faults := rfl
@[simp] theorem State.setSelected_trace (s : State) (e : Ep) : (s.setSelected e).trace = s.trace := rfl
@[simp] theorem State.setSelected_par (s : State) (e : Ep) : (s.setSelected e).par = s.par := rfl
@[simp] theorem State.setSelected_env (s : State) (e : Ep) : (s.setSelected e).env = s.env := rfl
@[simp] theorem State.setSelected_calls (s : State) (e : Ep) : (s.setSelected e).calls = s.calls := rfl
@[simp] theorem State.setSelected_burst (s : State) (e : Ep) : (s.setSelected e).burst = s.burst := rfl

@[simp] theorem State.answer_core (s : State) (tx : HostTx) (r : Response) : (s.answer tx r).core = s.core := rfl
@[simp] theorem State.answer_epc (s : State) (tx : HostTx) (r : Response) : (s.answer tx r).epc = s.epc := rfl
@[simp] theorem State.answer_eps (s : State) (tx : HostTx) (r : Response) : (s.answer tx r).eps = s.eps := rfl
@[simp] theorem State.answer_ctrlDir (s : State) (tx : HostTx) (r : Response) : (s.answer tx r).ctrlDir = s.ctrlDir := rfl
@[simp] theorem State.answer_rom (s : State) (tx : HostTx) (r : Response) : (s.answer tx r).rom = s.rom := rfl
@[simp] theorem State.answer_ram (s : State) (tx : HostTx) (r : Response) : (s.answer tx r).ram = s.ram := rfl
@[simp] theorem State.answer_engine (s : State) (tx : HostTx) (r : Response) : (s.answer tx r).engine = s.engine := rfl
@[simp] theorem State.answer_faults (s : State) (tx : HostTx) (r : Response) : (s.answer tx r).faults = s.faults := rfl
@[simp] theorem State.answer_trace (s : State) (tx : HostTx) (r : Response) : (s.answer tx r).trace = s.trace ++ [.transaction tx r] := rfl
@[simp] theorem State.answer_par (s : State) (tx : HostTx) (r : Response) : (s.answer tx r).par = s.par := rfl
@[simp] theorem State.answer_env (s : State) (tx : HostTx) (r : Response) : (s.answer tx r).env = s.env := rfl
@[simp] theorem State.answer_calls (s : State) (tx : HostTx) (r : Response) : (s.answer tx r).calls = s.calls := rfl
@[simp] theorem State.answer_burst (s : State) (tx : HostTx) (r : Response) : (s.answer tx r).burst = s.burst := rfl

/-! ## Primitives on the selected endpoint -/

@[simp] theorem State.epEnable_core (s : State) : (s.epEnable).core = s.core := rfl
@[simp] theorem State.epEnable_epc (s : State) : (s.epEnable).epc = s.epc := rfl
@[simp] theorem State.epEnable_eps (s : State) : (s.epEnable).eps = s.eps.set s.epc.sel { s.selected with en := true } := rfl
@[simp] theorem State.epEnable_ctrlDir (s : State) : (s.epEnable).ctrlDir = s.ctrlDir := rfl
@[simp] theorem State.epEnable_rom (s : State) : (s.epEnable).rom = s.rom := rfl
@[simp] theorem State.epEnable_ram (s : State) : (s.epEnable).ram = s.ram := rfl
@[simp] theorem State.epEnable_engine (s : State) : (s.epEnable).engine = s.engine := rfl
@[simp] theorem State.epEnable_faults (s : State) : (s.epEnable).faults = s.faults := rfl
@[simp] theorem State.epEnable_trace (s : State) : (s.epEnable).trace = s.trace := rfl
@[simp] theorem State.epEnable_par (s : State) : (s.epEnable).par = s.par := rfl
@[simp] theorem State.epEnable_env (s : State) : (s.epEnable).env = s.env := rfl
@[simp] theorem State.epEnable_calls (s : State) : (s.epEnable).calls = s.calls := rfl
@[simp] theorem State.epEnable_burst (s : State) : (s.epEnable).burst = s.burst := rfl

@[simp] theorem State.epDisable_core (s : State) : (s.epDisable).core = s.core := rfl
@[simp] theorem State.epDisable_epc (s : State) : (s.epDisable).epc = s.epc := rfl
@[simp] theorem State.epDisable_eps (s : State) : (s.epDisable).eps = 
      s.eps.set s.epc.sel 
        { Ep.blank with
          type := s.selected.type, dir := s.selected.dir, size := s.selected.size } := rfl
@[simp] theorem State.epDisable_ctrlDir (s : State) : (s.epDisable).ctrlDir = s.ctrlDir := rfl
@[simp] theorem State.epDisable_rom (s : State) : (s.epDisable).rom = s.rom := rfl
@[simp] theorem State.epDisable_ram (s : State) : (s.epDisable).ram = s.ram := rfl
@[simp] theorem State.epDisable_engine (s : State) : (s.epDisable).engine = s.engine := rfl
@[simp] theorem State.epDisable_faults (s : State) : (s.epDisable).faults = s.faults := rfl
@[simp] theorem State.epDisable_trace (s : State) : (s.epDisable).trace = s.trace := rfl
@[simp] theorem State.epDisable_par (s : State) : (s.epDisable).par = s.par := rfl
@[simp] theorem State.epDisable_env (s : State) : (s.epDisable).env = s.env := rfl
@[simp] theorem State.epDisable_calls (s : State) : (s.epDisable).calls = s.calls := rfl
@[simp] theorem State.epDisable_burst (s : State) : (s.epDisable).burst = s.burst := rfl

@[simp] theorem State.epConfig_core (s : State) (y : BitVec 2) (d : Dir) (z : BitVec 2) : (s.epConfig y d z).core = s.core := rfl
@[simp] theorem State.epConfig_epc (s : State) (y : BitVec 2) (d : Dir) (z : BitVec 2) : (s.epConfig y d z).epc = s.epc := rfl
@[simp] theorem State.epConfig_eps (s : State) (y : BitVec 2) (d : Dir) (z : BitVec 2) : (s.epConfig y d z).eps = 
      s.eps.set s.epc.sel { s.selected with type := y, dir := d, size := z } := rfl
@[simp] theorem State.epConfig_ctrlDir (s : State) (y : BitVec 2) (d : Dir) (z : BitVec 2) : (s.epConfig y d z).ctrlDir = s.ctrlDir := rfl
@[simp] theorem State.epConfig_rom (s : State) (y : BitVec 2) (d : Dir) (z : BitVec 2) : (s.epConfig y d z).rom = s.rom := rfl
@[simp] theorem State.epConfig_ram (s : State) (y : BitVec 2) (d : Dir) (z : BitVec 2) : (s.epConfig y d z).ram = s.ram := rfl
@[simp] theorem State.epConfig_engine (s : State) (y : BitVec 2) (d : Dir) (z : BitVec 2) : (s.epConfig y d z).engine = s.engine := rfl
@[simp] theorem State.epConfig_faults (s : State) (y : BitVec 2) (d : Dir) (z : BitVec 2) : (s.epConfig y d z).faults = s.faults := rfl
@[simp] theorem State.epConfig_trace (s : State) (y : BitVec 2) (d : Dir) (z : BitVec 2) : (s.epConfig y d z).trace = s.trace := rfl
@[simp] theorem State.epConfig_par (s : State) (y : BitVec 2) (d : Dir) (z : BitVec 2) : (s.epConfig y d z).par = s.par := rfl
@[simp] theorem State.epConfig_env (s : State) (y : BitVec 2) (d : Dir) (z : BitVec 2) : (s.epConfig y d z).env = s.env := rfl
@[simp] theorem State.epConfig_calls (s : State) (y : BitVec 2) (d : Dir) (z : BitVec 2) : (s.epConfig y d z).calls = s.calls := rfl
@[simp] theorem State.epConfig_burst (s : State) (y : BitVec 2) (d : Dir) (z : BitVec 2) : (s.epConfig y d z).burst = s.burst := rfl

@[simp] theorem State.epReset_core (s : State) : (s.epReset).core = s.core := rfl
@[simp] theorem State.epReset_epc (s : State) : (s.epReset).epc = s.epc := rfl
@[simp] theorem State.epReset_eps (s : State) : (s.epReset).eps = s.eps.set s.epc.sel s.selected.fifoReset := rfl
@[simp] theorem State.epReset_ctrlDir (s : State) : (s.epReset).ctrlDir = (if s.epc.sel = 0 then .toDevice else s.ctrlDir) := rfl
@[simp] theorem State.epReset_rom (s : State) : (s.epReset).rom = s.rom := rfl
@[simp] theorem State.epReset_ram (s : State) : (s.epReset).ram = s.ram := rfl
@[simp] theorem State.epReset_engine (s : State) : (s.epReset).engine = s.engine := rfl
@[simp] theorem State.epReset_faults (s : State) : (s.epReset).faults = s.faults := rfl
@[simp] theorem State.epReset_trace (s : State) : (s.epReset).trace = s.trace := rfl
@[simp] theorem State.epReset_par (s : State) : (s.epReset).par = s.par := rfl
@[simp] theorem State.epReset_env (s : State) : (s.epReset).env = s.env := rfl
@[simp] theorem State.epReset_calls (s : State) : (s.epReset).calls = s.calls := rfl
@[simp] theorem State.epReset_burst (s : State) : (s.epReset).burst = s.burst := rfl

@[simp] theorem State.clearNakout_core (s : State) : (s.clearNakout).core = s.core := rfl
@[simp] theorem State.clearNakout_epc (s : State) : (s.clearNakout).epc = s.epc := rfl
@[simp] theorem State.clearNakout_eps (s : State) : (s.clearNakout).eps = s.eps.set s.epc.sel { s.selected with nakout := false } := rfl
@[simp] theorem State.clearNakout_ctrlDir (s : State) : (s.clearNakout).ctrlDir = s.ctrlDir := rfl
@[simp] theorem State.clearNakout_rom (s : State) : (s.clearNakout).rom = s.rom := rfl
@[simp] theorem State.clearNakout_ram (s : State) : (s.clearNakout).ram = s.ram := rfl
@[simp] theorem State.clearNakout_engine (s : State) : (s.clearNakout).engine = s.engine := rfl
@[simp] theorem State.clearNakout_faults (s : State) : (s.clearNakout).faults = s.faults := rfl
@[simp] theorem State.clearNakout_trace (s : State) : (s.clearNakout).trace = s.trace := rfl
@[simp] theorem State.clearNakout_par (s : State) : (s.clearNakout).par = s.par := rfl
@[simp] theorem State.clearNakout_env (s : State) : (s.clearNakout).env = s.env := rfl
@[simp] theorem State.clearNakout_calls (s : State) : (s.clearNakout).calls = s.calls := rfl
@[simp] theorem State.clearNakout_burst (s : State) : (s.clearNakout).burst = s.burst := rfl

@[simp] theorem State.clearNakin_core (s : State) : (s.clearNakin).core = s.core := rfl
@[simp] theorem State.clearNakin_epc (s : State) : (s.clearNakin).epc = s.epc := rfl
@[simp] theorem State.clearNakin_eps (s : State) : (s.clearNakin).eps = s.eps.set s.epc.sel { s.selected with nakin := false } := rfl
@[simp] theorem State.clearNakin_ctrlDir (s : State) : (s.clearNakin).ctrlDir = s.ctrlDir := rfl
@[simp] theorem State.clearNakin_rom (s : State) : (s.clearNakin).rom = s.rom := rfl
@[simp] theorem State.clearNakin_ram (s : State) : (s.clearNakin).ram = s.ram := rfl
@[simp] theorem State.clearNakin_engine (s : State) : (s.clearNakin).engine = s.engine := rfl
@[simp] theorem State.clearNakin_faults (s : State) : (s.clearNakin).faults = s.faults := rfl
@[simp] theorem State.clearNakin_trace (s : State) : (s.clearNakin).trace = s.trace := rfl
@[simp] theorem State.clearNakin_par (s : State) : (s.clearNakin).par = s.par := rfl
@[simp] theorem State.clearNakin_env (s : State) : (s.clearNakin).env = s.env := rfl
@[simp] theorem State.clearNakin_calls (s : State) : (s.clearNakin).calls = s.calls := rfl
@[simp] theorem State.clearNakin_burst (s : State) : (s.clearNakin).burst = s.burst := rfl

@[simp] theorem State.stallClear_core (s : State) : (s.stallClear).core = s.core := rfl
@[simp] theorem State.stallClear_epc (s : State) : (s.stallClear).epc = s.epc := rfl
@[simp] theorem State.stallClear_eps (s : State) : (s.stallClear).eps = s.eps.set s.epc.sel { s.selected with stallReq := false } := rfl
@[simp] theorem State.stallClear_ctrlDir (s : State) : (s.stallClear).ctrlDir = s.ctrlDir := rfl
@[simp] theorem State.stallClear_rom (s : State) : (s.stallClear).rom = s.rom := rfl
@[simp] theorem State.stallClear_ram (s : State) : (s.stallClear).ram = s.ram := rfl
@[simp] theorem State.stallClear_engine (s : State) : (s.stallClear).engine = s.engine := rfl
@[simp] theorem State.stallClear_faults (s : State) : (s.stallClear).faults = s.faults := rfl
@[simp] theorem State.stallClear_trace (s : State) : (s.stallClear).trace = s.trace := rfl
@[simp] theorem State.stallClear_par (s : State) : (s.stallClear).par = s.par := rfl
@[simp] theorem State.stallClear_env (s : State) : (s.stallClear).env = s.env := rfl
@[simp] theorem State.stallClear_calls (s : State) : (s.stallClear).calls = s.calls := rfl
@[simp] theorem State.stallClear_burst (s : State) : (s.stallClear).burst = s.burst := rfl

theorem State.commitIn_update (s : State) : ∃ es, s.commitIn = { s with eps := es } := by
  simp only [State.commitIn]; split <;> exact ⟨_, rfl⟩

@[simp] theorem State.commitIn_core (s : State) : (s.commitIn).core = s.core := by
  obtain ⟨_, h⟩ := s.commitIn_update; rw [h]
@[simp] theorem State.commitIn_epc (s : State) : (s.commitIn).epc = s.epc := by
  obtain ⟨_, h⟩ := s.commitIn_update; rw [h]
@[simp] theorem State.commitIn_ctrlDir (s : State) : (s.commitIn).ctrlDir = s.ctrlDir := by
  obtain ⟨_, h⟩ := s.commitIn_update; rw [h]
@[simp] theorem State.commitIn_rom (s : State) : (s.commitIn).rom = s.rom := by
  obtain ⟨_, h⟩ := s.commitIn_update; rw [h]
@[simp] theorem State.commitIn_ram (s : State) : (s.commitIn).ram = s.ram := by
  obtain ⟨_, h⟩ := s.commitIn_update; rw [h]
@[simp] theorem State.commitIn_engine (s : State) : (s.commitIn).engine = s.engine := by
  obtain ⟨_, h⟩ := s.commitIn_update; rw [h]
@[simp] theorem State.commitIn_faults (s : State) : (s.commitIn).faults = s.faults := by
  obtain ⟨_, h⟩ := s.commitIn_update; rw [h]
@[simp] theorem State.commitIn_trace (s : State) : (s.commitIn).trace = s.trace := by
  obtain ⟨_, h⟩ := s.commitIn_update; rw [h]
@[simp] theorem State.commitIn_par (s : State) : (s.commitIn).par = s.par := by
  obtain ⟨_, h⟩ := s.commitIn_update; rw [h]
@[simp] theorem State.commitIn_env (s : State) : (s.commitIn).env = s.env := by
  obtain ⟨_, h⟩ := s.commitIn_update; rw [h]
@[simp] theorem State.commitIn_calls (s : State) : (s.commitIn).calls = s.calls := by
  obtain ⟨_, h⟩ := s.commitIn_update; rw [h]
@[simp] theorem State.commitIn_burst (s : State) : (s.commitIn).burst = s.burst := by
  obtain ⟨_, h⟩ := s.commitIn_update; rw [h]

theorem State.releaseOut_update (s : State) : ∃ es, s.releaseOut = { s with eps := es } := by
  simp only [State.releaseOut]; split <;> exact ⟨_, rfl⟩

@[simp] theorem State.releaseOut_core (s : State) : (s.releaseOut).core = s.core := by
  obtain ⟨_, h⟩ := s.releaseOut_update; rw [h]
@[simp] theorem State.releaseOut_epc (s : State) : (s.releaseOut).epc = s.epc := by
  obtain ⟨_, h⟩ := s.releaseOut_update; rw [h]
@[simp] theorem State.releaseOut_ctrlDir (s : State) : (s.releaseOut).ctrlDir = s.ctrlDir := by
  obtain ⟨_, h⟩ := s.releaseOut_update; rw [h]
@[simp] theorem State.releaseOut_rom (s : State) : (s.releaseOut).rom = s.rom := by
  obtain ⟨_, h⟩ := s.releaseOut_update; rw [h]
@[simp] theorem State.releaseOut_ram (s : State) : (s.releaseOut).ram = s.ram := by
  obtain ⟨_, h⟩ := s.releaseOut_update; rw [h]
@[simp] theorem State.releaseOut_engine (s : State) : (s.releaseOut).engine = s.engine := by
  obtain ⟨_, h⟩ := s.releaseOut_update; rw [h]
@[simp] theorem State.releaseOut_faults (s : State) : (s.releaseOut).faults = s.faults := by
  obtain ⟨_, h⟩ := s.releaseOut_update; rw [h]
@[simp] theorem State.releaseOut_trace (s : State) : (s.releaseOut).trace = s.trace := by
  obtain ⟨_, h⟩ := s.releaseOut_update; rw [h]
@[simp] theorem State.releaseOut_par (s : State) : (s.releaseOut).par = s.par := by
  obtain ⟨_, h⟩ := s.releaseOut_update; rw [h]
@[simp] theorem State.releaseOut_env (s : State) : (s.releaseOut).env = s.env := by
  obtain ⟨_, h⟩ := s.releaseOut_update; rw [h]
@[simp] theorem State.releaseOut_calls (s : State) : (s.releaseOut).calls = s.calls := by
  obtain ⟨_, h⟩ := s.releaseOut_update; rw [h]
@[simp] theorem State.releaseOut_burst (s : State) : (s.releaseOut).burst = s.burst := by
  obtain ⟨_, h⟩ := s.releaseOut_update; rw [h]

theorem State.consumeSetup_update (s : State) : ∃ es, s.consumeSetup = { s with eps := es } := by
  simp only [State.consumeSetup]; split <;> exact ⟨_, rfl⟩

@[simp] theorem State.consumeSetup_core (s : State) : (s.consumeSetup).core = s.core := by
  obtain ⟨_, h⟩ := s.consumeSetup_update; rw [h]
@[simp] theorem State.consumeSetup_epc (s : State) : (s.consumeSetup).epc = s.epc := by
  obtain ⟨_, h⟩ := s.consumeSetup_update; rw [h]
@[simp] theorem State.consumeSetup_ctrlDir (s : State) : (s.consumeSetup).ctrlDir = s.ctrlDir := by
  obtain ⟨_, h⟩ := s.consumeSetup_update; rw [h]
@[simp] theorem State.consumeSetup_rom (s : State) : (s.consumeSetup).rom = s.rom := by
  obtain ⟨_, h⟩ := s.consumeSetup_update; rw [h]
@[simp] theorem State.consumeSetup_ram (s : State) : (s.consumeSetup).ram = s.ram := by
  obtain ⟨_, h⟩ := s.consumeSetup_update; rw [h]
@[simp] theorem State.consumeSetup_engine (s : State) : (s.consumeSetup).engine = s.engine := by
  obtain ⟨_, h⟩ := s.consumeSetup_update; rw [h]
@[simp] theorem State.consumeSetup_faults (s : State) : (s.consumeSetup).faults = s.faults := by
  obtain ⟨_, h⟩ := s.consumeSetup_update; rw [h]
@[simp] theorem State.consumeSetup_trace (s : State) : (s.consumeSetup).trace = s.trace := by
  obtain ⟨_, h⟩ := s.consumeSetup_update; rw [h]
@[simp] theorem State.consumeSetup_par (s : State) : (s.consumeSetup).par = s.par := by
  obtain ⟨_, h⟩ := s.consumeSetup_update; rw [h]
@[simp] theorem State.consumeSetup_env (s : State) : (s.consumeSetup).env = s.env := by
  obtain ⟨_, h⟩ := s.consumeSetup_update; rw [h]
@[simp] theorem State.consumeSetup_calls (s : State) : (s.consumeSetup).calls = s.calls := by
  obtain ⟨_, h⟩ := s.consumeSetup_update; rw [h]
@[simp] theorem State.consumeSetup_burst (s : State) : (s.consumeSetup).burst = s.burst := by
  obtain ⟨_, h⟩ := s.consumeSetup_update; rw [h]

theorem State.stallRequest_update (s : State) : ∃ es, s.stallRequest = { s with eps := es } := by
  simp only [State.stallRequest]; split <;> exact ⟨_, rfl⟩

@[simp] theorem State.stallRequest_core (s : State) : (s.stallRequest).core = s.core := by
  obtain ⟨_, h⟩ := s.stallRequest_update; rw [h]
@[simp] theorem State.stallRequest_epc (s : State) : (s.stallRequest).epc = s.epc := by
  obtain ⟨_, h⟩ := s.stallRequest_update; rw [h]
@[simp] theorem State.stallRequest_ctrlDir (s : State) : (s.stallRequest).ctrlDir = s.ctrlDir := by
  obtain ⟨_, h⟩ := s.stallRequest_update; rw [h]
@[simp] theorem State.stallRequest_rom (s : State) : (s.stallRequest).rom = s.rom := by
  obtain ⟨_, h⟩ := s.stallRequest_update; rw [h]
@[simp] theorem State.stallRequest_ram (s : State) : (s.stallRequest).ram = s.ram := by
  obtain ⟨_, h⟩ := s.stallRequest_update; rw [h]
@[simp] theorem State.stallRequest_engine (s : State) : (s.stallRequest).engine = s.engine := by
  obtain ⟨_, h⟩ := s.stallRequest_update; rw [h]
@[simp] theorem State.stallRequest_faults (s : State) : (s.stallRequest).faults = s.faults := by
  obtain ⟨_, h⟩ := s.stallRequest_update; rw [h]
@[simp] theorem State.stallRequest_trace (s : State) : (s.stallRequest).trace = s.trace := by
  obtain ⟨_, h⟩ := s.stallRequest_update; rw [h]
@[simp] theorem State.stallRequest_par (s : State) : (s.stallRequest).par = s.par := by
  obtain ⟨_, h⟩ := s.stallRequest_update; rw [h]
@[simp] theorem State.stallRequest_env (s : State) : (s.stallRequest).env = s.env := by
  obtain ⟨_, h⟩ := s.stallRequest_update; rw [h]
@[simp] theorem State.stallRequest_calls (s : State) : (s.stallRequest).calls = s.calls := by
  obtain ⟨_, h⟩ := s.stallRequest_update; rw [h]
@[simp] theorem State.stallRequest_burst (s : State) : (s.stallRequest).burst = s.burst := by
  obtain ⟨_, h⟩ := s.stallRequest_update; rw [h]

theorem State.commitApart_update (s : State) (p : List Byte) : ∃ es, s.commitApart p = { s with eps := es } := by
  simp only [State.commitApart]; split <;> exact ⟨_, rfl⟩

@[simp] theorem State.commitApart_core (s : State) (p : List Byte) : (s.commitApart p).core = s.core := by
  obtain ⟨_, h⟩ := s.commitApart_update p; rw [h]
@[simp] theorem State.commitApart_epc (s : State) (p : List Byte) : (s.commitApart p).epc = s.epc := by
  obtain ⟨_, h⟩ := s.commitApart_update p; rw [h]
@[simp] theorem State.commitApart_ctrlDir (s : State) (p : List Byte) : (s.commitApart p).ctrlDir = s.ctrlDir := by
  obtain ⟨_, h⟩ := s.commitApart_update p; rw [h]
@[simp] theorem State.commitApart_rom (s : State) (p : List Byte) : (s.commitApart p).rom = s.rom := by
  obtain ⟨_, h⟩ := s.commitApart_update p; rw [h]
@[simp] theorem State.commitApart_ram (s : State) (p : List Byte) : (s.commitApart p).ram = s.ram := by
  obtain ⟨_, h⟩ := s.commitApart_update p; rw [h]
@[simp] theorem State.commitApart_engine (s : State) (p : List Byte) : (s.commitApart p).engine = s.engine := by
  obtain ⟨_, h⟩ := s.commitApart_update p; rw [h]
@[simp] theorem State.commitApart_faults (s : State) (p : List Byte) : (s.commitApart p).faults = s.faults := by
  obtain ⟨_, h⟩ := s.commitApart_update p; rw [h]
@[simp] theorem State.commitApart_trace (s : State) (p : List Byte) : (s.commitApart p).trace = s.trace := by
  obtain ⟨_, h⟩ := s.commitApart_update p; rw [h]
@[simp] theorem State.commitApart_par (s : State) (p : List Byte) : (s.commitApart p).par = s.par := by
  obtain ⟨_, h⟩ := s.commitApart_update p; rw [h]
@[simp] theorem State.commitApart_env (s : State) (p : List Byte) : (s.commitApart p).env = s.env := by
  obtain ⟨_, h⟩ := s.commitApart_update p; rw [h]
@[simp] theorem State.commitApart_calls (s : State) (p : List Byte) : (s.commitApart p).calls = s.calls := by
  obtain ⟨_, h⟩ := s.commitApart_update p; rw [h]
@[simp] theorem State.commitApart_burst (s : State) (p : List Byte) : (s.commitApart p).burst = s.burst := by
  obtain ⟨_, h⟩ := s.commitApart_update p; rw [h]

theorem State.sendPacket_update (s : State) (p : List Byte) : ∃ es, s.sendPacket p = { s with eps := es } := by
  simp only [State.sendPacket]
  split
  · split
    · exact ⟨_, rfl⟩
    · exact s.commitApart_update p
  · exact s.commitIn_update

@[simp] theorem State.sendPacket_core (s : State) (p : List Byte) : (s.sendPacket p).core = s.core := by
  obtain ⟨_, h⟩ := s.sendPacket_update p; rw [h]
@[simp] theorem State.sendPacket_epc (s : State) (p : List Byte) : (s.sendPacket p).epc = s.epc := by
  obtain ⟨_, h⟩ := s.sendPacket_update p; rw [h]
@[simp] theorem State.sendPacket_ctrlDir (s : State) (p : List Byte) : (s.sendPacket p).ctrlDir = s.ctrlDir := by
  obtain ⟨_, h⟩ := s.sendPacket_update p; rw [h]
@[simp] theorem State.sendPacket_rom (s : State) (p : List Byte) : (s.sendPacket p).rom = s.rom := by
  obtain ⟨_, h⟩ := s.sendPacket_update p; rw [h]
@[simp] theorem State.sendPacket_ram (s : State) (p : List Byte) : (s.sendPacket p).ram = s.ram := by
  obtain ⟨_, h⟩ := s.sendPacket_update p; rw [h]
@[simp] theorem State.sendPacket_engine (s : State) (p : List Byte) : (s.sendPacket p).engine = s.engine := by
  obtain ⟨_, h⟩ := s.sendPacket_update p; rw [h]
@[simp] theorem State.sendPacket_faults (s : State) (p : List Byte) : (s.sendPacket p).faults = s.faults := by
  obtain ⟨_, h⟩ := s.sendPacket_update p; rw [h]
@[simp] theorem State.sendPacket_trace (s : State) (p : List Byte) : (s.sendPacket p).trace = s.trace := by
  obtain ⟨_, h⟩ := s.sendPacket_update p; rw [h]
@[simp] theorem State.sendPacket_par (s : State) (p : List Byte) : (s.sendPacket p).par = s.par := by
  obtain ⟨_, h⟩ := s.sendPacket_update p; rw [h]
@[simp] theorem State.sendPacket_env (s : State) (p : List Byte) : (s.sendPacket p).env = s.env := by
  obtain ⟨_, h⟩ := s.sendPacket_update p; rw [h]
@[simp] theorem State.sendPacket_calls (s : State) (p : List Byte) : (s.sendPacket p).calls = s.calls := by
  obtain ⟨_, h⟩ := s.sendPacket_update p; rw [h]
@[simp] theorem State.sendPacket_burst (s : State) (p : List Byte) : (s.sendPacket p).burst = s.burst := by
  obtain ⟨_, h⟩ := s.sendPacket_update p; rw [h]

/-! ## Primitives on the global fields -/

@[simp] theorem State.addrSet_core (s : State) (a : BitVec 7) : (s.addrSet a).core = s.core := rfl
@[simp] theorem State.addrSet_epc (s : State) (a : BitVec 7) : (s.addrSet a).epc = { s.epc with addr := a, addrEn := false } := rfl
@[simp] theorem State.addrSet_eps (s : State) (a : BitVec 7) : (s.addrSet a).eps = s.eps := rfl
@[simp] theorem State.addrSet_ctrlDir (s : State) (a : BitVec 7) : (s.addrSet a).ctrlDir = s.ctrlDir := rfl
@[simp] theorem State.addrSet_rom (s : State) (a : BitVec 7) : (s.addrSet a).rom = s.rom := rfl
@[simp] theorem State.addrSet_ram (s : State) (a : BitVec 7) : (s.addrSet a).ram = s.ram := rfl
@[simp] theorem State.addrSet_engine (s : State) (a : BitVec 7) : (s.addrSet a).engine = s.engine := rfl
@[simp] theorem State.addrSet_faults (s : State) (a : BitVec 7) : (s.addrSet a).faults = s.faults := rfl
@[simp] theorem State.addrSet_trace (s : State) (a : BitVec 7) : (s.addrSet a).trace = s.trace := rfl
@[simp] theorem State.addrSet_par (s : State) (a : BitVec 7) : (s.addrSet a).par = s.par := rfl
@[simp] theorem State.addrSet_env (s : State) (a : BitVec 7) : (s.addrSet a).env = s.env := rfl
@[simp] theorem State.addrSet_calls (s : State) (a : BitVec 7) : (s.addrSet a).calls = s.calls := rfl
@[simp] theorem State.addrSet_burst (s : State) (a : BitVec 7) : (s.addrSet a).burst = s.burst := rfl

@[simp] theorem State.addrEnable_core (s : State) : (s.addrEnable).core = s.core := rfl
@[simp] theorem State.addrEnable_epc (s : State) : (s.addrEnable).epc = { s.epc with addrEn := true } := rfl
@[simp] theorem State.addrEnable_eps (s : State) : (s.addrEnable).eps = s.eps := rfl
@[simp] theorem State.addrEnable_ctrlDir (s : State) : (s.addrEnable).ctrlDir = s.ctrlDir := rfl
@[simp] theorem State.addrEnable_rom (s : State) : (s.addrEnable).rom = s.rom := rfl
@[simp] theorem State.addrEnable_ram (s : State) : (s.addrEnable).ram = s.ram := rfl
@[simp] theorem State.addrEnable_engine (s : State) : (s.addrEnable).engine = s.engine := rfl
@[simp] theorem State.addrEnable_faults (s : State) : (s.addrEnable).faults = s.faults := rfl
@[simp] theorem State.addrEnable_trace (s : State) : (s.addrEnable).trace = s.trace := rfl
@[simp] theorem State.addrEnable_par (s : State) : (s.addrEnable).par = s.par := rfl
@[simp] theorem State.addrEnable_env (s : State) : (s.addrEnable).env = s.env := rfl
@[simp] theorem State.addrEnable_calls (s : State) : (s.addrEnable).calls = s.calls := rfl
@[simp] theorem State.addrEnable_burst (s : State) : (s.addrEnable).burst = s.burst := rfl

@[simp] theorem State.eventAck_core (s : State) : (s.eventAck).core = s.core := rfl
@[simp] theorem State.eventAck_epc (s : State) : (s.eventAck).epc = { s.epc with eorst := false } := rfl
@[simp] theorem State.eventAck_eps (s : State) : (s.eventAck).eps = s.eps := rfl
@[simp] theorem State.eventAck_ctrlDir (s : State) : (s.eventAck).ctrlDir = s.ctrlDir := rfl
@[simp] theorem State.eventAck_rom (s : State) : (s.eventAck).rom = s.rom := rfl
@[simp] theorem State.eventAck_ram (s : State) : (s.eventAck).ram = s.ram := rfl
@[simp] theorem State.eventAck_engine (s : State) : (s.eventAck).engine = s.engine := rfl
@[simp] theorem State.eventAck_faults (s : State) : (s.eventAck).faults = s.faults := rfl
@[simp] theorem State.eventAck_trace (s : State) : (s.eventAck).trace = s.trace := rfl
@[simp] theorem State.eventAck_par (s : State) : (s.eventAck).par = s.par := rfl
@[simp] theorem State.eventAck_env (s : State) : (s.eventAck).env = s.env := rfl
@[simp] theorem State.eventAck_calls (s : State) : (s.eventAck).calls = s.calls := rfl
@[simp] theorem State.eventAck_burst (s : State) : (s.eventAck).burst = s.burst := rfl

@[simp] theorem State.eventEnable_core (s : State) : (s.eventEnable).core = s.core := rfl
@[simp] theorem State.eventEnable_epc (s : State) : (s.eventEnable).epc = { s.epc with eorstEn := true } := rfl
@[simp] theorem State.eventEnable_eps (s : State) : (s.eventEnable).eps = s.eps := rfl
@[simp] theorem State.eventEnable_ctrlDir (s : State) : (s.eventEnable).ctrlDir = s.ctrlDir := rfl
@[simp] theorem State.eventEnable_rom (s : State) : (s.eventEnable).rom = s.rom := rfl
@[simp] theorem State.eventEnable_ram (s : State) : (s.eventEnable).ram = s.ram := rfl
@[simp] theorem State.eventEnable_engine (s : State) : (s.eventEnable).engine = s.engine := rfl
@[simp] theorem State.eventEnable_faults (s : State) : (s.eventEnable).faults = s.faults := rfl
@[simp] theorem State.eventEnable_trace (s : State) : (s.eventEnable).trace = s.trace := rfl
@[simp] theorem State.eventEnable_par (s : State) : (s.eventEnable).par = s.par := rfl
@[simp] theorem State.eventEnable_env (s : State) : (s.eventEnable).env = s.env := rfl
@[simp] theorem State.eventEnable_calls (s : State) : (s.eventEnable).calls = s.calls := rfl
@[simp] theorem State.eventEnable_burst (s : State) : (s.eventEnable).burst = s.burst := rfl

@[simp] theorem State.attach_core (s : State) : (s.attach).core = s.core := rfl
@[simp] theorem State.attach_epc (s : State) : (s.attach).epc = { s.epc with attached := true } := rfl
@[simp] theorem State.attach_eps (s : State) : (s.attach).eps = s.eps := rfl
@[simp] theorem State.attach_ctrlDir (s : State) : (s.attach).ctrlDir = s.ctrlDir := rfl
@[simp] theorem State.attach_rom (s : State) : (s.attach).rom = s.rom := rfl
@[simp] theorem State.attach_ram (s : State) : (s.attach).ram = s.ram := rfl
@[simp] theorem State.attach_engine (s : State) : (s.attach).engine = s.engine := rfl
@[simp] theorem State.attach_faults (s : State) : (s.attach).faults = s.faults := rfl
@[simp] theorem State.attach_trace (s : State) : (s.attach).trace = s.trace := rfl
@[simp] theorem State.attach_par (s : State) : (s.attach).par = s.par := rfl
@[simp] theorem State.attach_env (s : State) : (s.attach).env = s.env := rfl
@[simp] theorem State.attach_calls (s : State) : (s.attach).calls = s.calls := rfl
@[simp] theorem State.attach_burst (s : State) : (s.attach).burst = s.burst := rfl

/-! ## Callbacks and draws

One lemma says everything each of them can do; the facts of the fields are read off it. -/

theorem State.callDeviceDescriptor_update (s : State) : ∃ e, s.callDeviceDescriptor.2 = { s with env := e, calls := s.calls ++ [.deviceDescriptor] } := by
  simp only [State.callDeviceDescriptor]; split <;> exact ⟨_, rfl⟩

@[simp] theorem State.callDeviceDescriptor_core (s : State) : (s.callDeviceDescriptor.2).core = s.core := by
  obtain ⟨_, h⟩ := s.callDeviceDescriptor_update; rw [h]
@[simp] theorem State.callDeviceDescriptor_epc (s : State) : (s.callDeviceDescriptor.2).epc = s.epc := by
  obtain ⟨_, h⟩ := s.callDeviceDescriptor_update; rw [h]
@[simp] theorem State.callDeviceDescriptor_eps (s : State) : (s.callDeviceDescriptor.2).eps = s.eps := by
  obtain ⟨_, h⟩ := s.callDeviceDescriptor_update; rw [h]
@[simp] theorem State.callDeviceDescriptor_ctrlDir (s : State) : (s.callDeviceDescriptor.2).ctrlDir = s.ctrlDir := by
  obtain ⟨_, h⟩ := s.callDeviceDescriptor_update; rw [h]
@[simp] theorem State.callDeviceDescriptor_rom (s : State) : (s.callDeviceDescriptor.2).rom = s.rom := by
  obtain ⟨_, h⟩ := s.callDeviceDescriptor_update; rw [h]
@[simp] theorem State.callDeviceDescriptor_ram (s : State) : (s.callDeviceDescriptor.2).ram = s.ram := by
  obtain ⟨_, h⟩ := s.callDeviceDescriptor_update; rw [h]
@[simp] theorem State.callDeviceDescriptor_engine (s : State) : (s.callDeviceDescriptor.2).engine = s.engine := by
  obtain ⟨_, h⟩ := s.callDeviceDescriptor_update; rw [h]
@[simp] theorem State.callDeviceDescriptor_faults (s : State) : (s.callDeviceDescriptor.2).faults = s.faults := by
  obtain ⟨_, h⟩ := s.callDeviceDescriptor_update; rw [h]
@[simp] theorem State.callDeviceDescriptor_trace (s : State) : (s.callDeviceDescriptor.2).trace = s.trace := by
  obtain ⟨_, h⟩ := s.callDeviceDescriptor_update; rw [h]
@[simp] theorem State.callDeviceDescriptor_par (s : State) : (s.callDeviceDescriptor.2).par = s.par := by
  obtain ⟨_, h⟩ := s.callDeviceDescriptor_update; rw [h]
@[simp] theorem State.callDeviceDescriptor_calls (s : State) : (s.callDeviceDescriptor.2).calls = s.calls ++ [.deviceDescriptor] := by
  obtain ⟨_, h⟩ := s.callDeviceDescriptor_update; rw [h]
@[simp] theorem State.callDeviceDescriptor_burst (s : State) : (s.callDeviceDescriptor.2).burst = s.burst := by
  obtain ⟨_, h⟩ := s.callDeviceDescriptor_update; rw [h]

theorem State.callConfigurationDescriptor_update (s : State) (v : Byte) : ∃ e, (s.callConfigurationDescriptor v).2 = { s with env := e, calls := s.calls ++ [.configurationDescriptor v] } := by
  simp only [State.callConfigurationDescriptor]; split <;> exact ⟨_, rfl⟩

@[simp] theorem State.callConfigurationDescriptor_core (s : State) (v : Byte) : ((s.callConfigurationDescriptor v).2).core = s.core := by
  obtain ⟨_, h⟩ := s.callConfigurationDescriptor_update v; rw [h]
@[simp] theorem State.callConfigurationDescriptor_epc (s : State) (v : Byte) : ((s.callConfigurationDescriptor v).2).epc = s.epc := by
  obtain ⟨_, h⟩ := s.callConfigurationDescriptor_update v; rw [h]
@[simp] theorem State.callConfigurationDescriptor_eps (s : State) (v : Byte) : ((s.callConfigurationDescriptor v).2).eps = s.eps := by
  obtain ⟨_, h⟩ := s.callConfigurationDescriptor_update v; rw [h]
@[simp] theorem State.callConfigurationDescriptor_ctrlDir (s : State) (v : Byte) : ((s.callConfigurationDescriptor v).2).ctrlDir = s.ctrlDir := by
  obtain ⟨_, h⟩ := s.callConfigurationDescriptor_update v; rw [h]
@[simp] theorem State.callConfigurationDescriptor_rom (s : State) (v : Byte) : ((s.callConfigurationDescriptor v).2).rom = s.rom := by
  obtain ⟨_, h⟩ := s.callConfigurationDescriptor_update v; rw [h]
@[simp] theorem State.callConfigurationDescriptor_ram (s : State) (v : Byte) : ((s.callConfigurationDescriptor v).2).ram = s.ram := by
  obtain ⟨_, h⟩ := s.callConfigurationDescriptor_update v; rw [h]
@[simp] theorem State.callConfigurationDescriptor_engine (s : State) (v : Byte) : ((s.callConfigurationDescriptor v).2).engine = s.engine := by
  obtain ⟨_, h⟩ := s.callConfigurationDescriptor_update v; rw [h]
@[simp] theorem State.callConfigurationDescriptor_faults (s : State) (v : Byte) : ((s.callConfigurationDescriptor v).2).faults = s.faults := by
  obtain ⟨_, h⟩ := s.callConfigurationDescriptor_update v; rw [h]
@[simp] theorem State.callConfigurationDescriptor_trace (s : State) (v : Byte) : ((s.callConfigurationDescriptor v).2).trace = s.trace := by
  obtain ⟨_, h⟩ := s.callConfigurationDescriptor_update v; rw [h]
@[simp] theorem State.callConfigurationDescriptor_par (s : State) (v : Byte) : ((s.callConfigurationDescriptor v).2).par = s.par := by
  obtain ⟨_, h⟩ := s.callConfigurationDescriptor_update v; rw [h]
@[simp] theorem State.callConfigurationDescriptor_calls (s : State) (v : Byte) : ((s.callConfigurationDescriptor v).2).calls = s.calls ++ [.configurationDescriptor v] := by
  obtain ⟨_, h⟩ := s.callConfigurationDescriptor_update v; rw [h]
@[simp] theorem State.callConfigurationDescriptor_burst (s : State) (v : Byte) : ((s.callConfigurationDescriptor v).2).burst = s.burst := by
  obtain ⟨_, h⟩ := s.callConfigurationDescriptor_update v; rw [h]

theorem State.callStringDescriptor_update (s : State) (v x : Half) : ∃ e, (s.callStringDescriptor v x).2 = { s with env := e, calls := s.calls ++ [.stringDescriptor v x] } := by
  simp only [State.callStringDescriptor]; split <;> exact ⟨_, rfl⟩

@[simp] theorem State.callStringDescriptor_core (s : State) (v x : Half) : ((s.callStringDescriptor v x).2).core = s.core := by
  obtain ⟨_, h⟩ := s.callStringDescriptor_update v x; rw [h]
@[simp] theorem State.callStringDescriptor_epc (s : State) (v x : Half) : ((s.callStringDescriptor v x).2).epc = s.epc := by
  obtain ⟨_, h⟩ := s.callStringDescriptor_update v x; rw [h]
@[simp] theorem State.callStringDescriptor_eps (s : State) (v x : Half) : ((s.callStringDescriptor v x).2).eps = s.eps := by
  obtain ⟨_, h⟩ := s.callStringDescriptor_update v x; rw [h]
@[simp] theorem State.callStringDescriptor_ctrlDir (s : State) (v x : Half) : ((s.callStringDescriptor v x).2).ctrlDir = s.ctrlDir := by
  obtain ⟨_, h⟩ := s.callStringDescriptor_update v x; rw [h]
@[simp] theorem State.callStringDescriptor_rom (s : State) (v x : Half) : ((s.callStringDescriptor v x).2).rom = s.rom := by
  obtain ⟨_, h⟩ := s.callStringDescriptor_update v x; rw [h]
@[simp] theorem State.callStringDescriptor_ram (s : State) (v x : Half) : ((s.callStringDescriptor v x).2).ram = s.ram := by
  obtain ⟨_, h⟩ := s.callStringDescriptor_update v x; rw [h]
@[simp] theorem State.callStringDescriptor_engine (s : State) (v x : Half) : ((s.callStringDescriptor v x).2).engine = s.engine := by
  obtain ⟨_, h⟩ := s.callStringDescriptor_update v x; rw [h]
@[simp] theorem State.callStringDescriptor_faults (s : State) (v x : Half) : ((s.callStringDescriptor v x).2).faults = s.faults := by
  obtain ⟨_, h⟩ := s.callStringDescriptor_update v x; rw [h]
@[simp] theorem State.callStringDescriptor_trace (s : State) (v x : Half) : ((s.callStringDescriptor v x).2).trace = s.trace := by
  obtain ⟨_, h⟩ := s.callStringDescriptor_update v x; rw [h]
@[simp] theorem State.callStringDescriptor_par (s : State) (v x : Half) : ((s.callStringDescriptor v x).2).par = s.par := by
  obtain ⟨_, h⟩ := s.callStringDescriptor_update v x; rw [h]
@[simp] theorem State.callStringDescriptor_calls (s : State) (v x : Half) : ((s.callStringDescriptor v x).2).calls = s.calls ++ [.stringDescriptor v x] := by
  obtain ⟨_, h⟩ := s.callStringDescriptor_update v x; rw [h]
@[simp] theorem State.callStringDescriptor_burst (s : State) (v x : Half) : ((s.callStringDescriptor v x).2).burst = s.burst := by
  obtain ⟨_, h⟩ := s.callStringDescriptor_update v x; rw [h]

theorem State.callVendorRequest_update (s : State) (r : Request) : ∃ e, (s.callVendorRequest r).2 = { s with env := e, calls := s.calls ++ [.vendorRequest r] } := by
  simp only [State.callVendorRequest]; split <;> exact ⟨_, rfl⟩

@[simp] theorem State.callVendorRequest_core (s : State) (r : Request) : ((s.callVendorRequest r).2).core = s.core := by
  obtain ⟨_, h⟩ := s.callVendorRequest_update r; rw [h]
@[simp] theorem State.callVendorRequest_epc (s : State) (r : Request) : ((s.callVendorRequest r).2).epc = s.epc := by
  obtain ⟨_, h⟩ := s.callVendorRequest_update r; rw [h]
@[simp] theorem State.callVendorRequest_eps (s : State) (r : Request) : ((s.callVendorRequest r).2).eps = s.eps := by
  obtain ⟨_, h⟩ := s.callVendorRequest_update r; rw [h]
@[simp] theorem State.callVendorRequest_ctrlDir (s : State) (r : Request) : ((s.callVendorRequest r).2).ctrlDir = s.ctrlDir := by
  obtain ⟨_, h⟩ := s.callVendorRequest_update r; rw [h]
@[simp] theorem State.callVendorRequest_rom (s : State) (r : Request) : ((s.callVendorRequest r).2).rom = s.rom := by
  obtain ⟨_, h⟩ := s.callVendorRequest_update r; rw [h]
@[simp] theorem State.callVendorRequest_ram (s : State) (r : Request) : ((s.callVendorRequest r).2).ram = s.ram := by
  obtain ⟨_, h⟩ := s.callVendorRequest_update r; rw [h]
@[simp] theorem State.callVendorRequest_engine (s : State) (r : Request) : ((s.callVendorRequest r).2).engine = s.engine := by
  obtain ⟨_, h⟩ := s.callVendorRequest_update r; rw [h]
@[simp] theorem State.callVendorRequest_faults (s : State) (r : Request) : ((s.callVendorRequest r).2).faults = s.faults := by
  obtain ⟨_, h⟩ := s.callVendorRequest_update r; rw [h]
@[simp] theorem State.callVendorRequest_trace (s : State) (r : Request) : ((s.callVendorRequest r).2).trace = s.trace := by
  obtain ⟨_, h⟩ := s.callVendorRequest_update r; rw [h]
@[simp] theorem State.callVendorRequest_par (s : State) (r : Request) : ((s.callVendorRequest r).2).par = s.par := by
  obtain ⟨_, h⟩ := s.callVendorRequest_update r; rw [h]
@[simp] theorem State.callVendorRequest_calls (s : State) (r : Request) : ((s.callVendorRequest r).2).calls = s.calls ++ [.vendorRequest r] := by
  obtain ⟨_, h⟩ := s.callVendorRequest_update r; rw [h]
@[simp] theorem State.callVendorRequest_burst (s : State) (r : Request) : ((s.callVendorRequest r).2).burst = s.burst := by
  obtain ⟨_, h⟩ := s.callVendorRequest_update r; rw [h]

theorem State.callConfigureEndpoints_update (s : State) (v : Byte) : ∃ e, (s.callConfigureEndpoints v).2 = { s with env := e, calls := s.calls ++ [.configureEndpoints v] } := by
  simp only [State.callConfigureEndpoints]; split <;> exact ⟨_, rfl⟩

@[simp] theorem State.callConfigureEndpoints_core (s : State) (v : Byte) : ((s.callConfigureEndpoints v).2).core = s.core := by
  obtain ⟨_, h⟩ := s.callConfigureEndpoints_update v; rw [h]
@[simp] theorem State.callConfigureEndpoints_epc (s : State) (v : Byte) : ((s.callConfigureEndpoints v).2).epc = s.epc := by
  obtain ⟨_, h⟩ := s.callConfigureEndpoints_update v; rw [h]
@[simp] theorem State.callConfigureEndpoints_eps (s : State) (v : Byte) : ((s.callConfigureEndpoints v).2).eps = s.eps := by
  obtain ⟨_, h⟩ := s.callConfigureEndpoints_update v; rw [h]
@[simp] theorem State.callConfigureEndpoints_ctrlDir (s : State) (v : Byte) : ((s.callConfigureEndpoints v).2).ctrlDir = s.ctrlDir := by
  obtain ⟨_, h⟩ := s.callConfigureEndpoints_update v; rw [h]
@[simp] theorem State.callConfigureEndpoints_rom (s : State) (v : Byte) : ((s.callConfigureEndpoints v).2).rom = s.rom := by
  obtain ⟨_, h⟩ := s.callConfigureEndpoints_update v; rw [h]
@[simp] theorem State.callConfigureEndpoints_ram (s : State) (v : Byte) : ((s.callConfigureEndpoints v).2).ram = s.ram := by
  obtain ⟨_, h⟩ := s.callConfigureEndpoints_update v; rw [h]
@[simp] theorem State.callConfigureEndpoints_engine (s : State) (v : Byte) : ((s.callConfigureEndpoints v).2).engine = s.engine := by
  obtain ⟨_, h⟩ := s.callConfigureEndpoints_update v; rw [h]
@[simp] theorem State.callConfigureEndpoints_faults (s : State) (v : Byte) : ((s.callConfigureEndpoints v).2).faults = s.faults := by
  obtain ⟨_, h⟩ := s.callConfigureEndpoints_update v; rw [h]
@[simp] theorem State.callConfigureEndpoints_trace (s : State) (v : Byte) : ((s.callConfigureEndpoints v).2).trace = s.trace := by
  obtain ⟨_, h⟩ := s.callConfigureEndpoints_update v; rw [h]
@[simp] theorem State.callConfigureEndpoints_par (s : State) (v : Byte) : ((s.callConfigureEndpoints v).2).par = s.par := by
  obtain ⟨_, h⟩ := s.callConfigureEndpoints_update v; rw [h]
@[simp] theorem State.callConfigureEndpoints_calls (s : State) (v : Byte) : ((s.callConfigureEndpoints v).2).calls = s.calls ++ [.configureEndpoints v] := by
  obtain ⟨_, h⟩ := s.callConfigureEndpoints_update v; rw [h]
@[simp] theorem State.callConfigureEndpoints_burst (s : State) (v : Byte) : ((s.callConfigureEndpoints v).2).burst = s.burst := by
  obtain ⟨_, h⟩ := s.callConfigureEndpoints_update v; rw [h]

theorem State.callEndpointInByte_update (s : State) (n : Nat) (b : Bool) : ∃ e, (s.callEndpointInByte n b).2 = { s with env := e, calls := s.calls ++ [.endpointInByte n b] } := by
  simp only [State.callEndpointInByte]; split <;> exact ⟨_, rfl⟩

@[simp] theorem State.callEndpointInByte_core (s : State) (n : Nat) (b : Bool) : ((s.callEndpointInByte n b).2).core = s.core := by
  obtain ⟨_, h⟩ := s.callEndpointInByte_update n b; rw [h]
@[simp] theorem State.callEndpointInByte_epc (s : State) (n : Nat) (b : Bool) : ((s.callEndpointInByte n b).2).epc = s.epc := by
  obtain ⟨_, h⟩ := s.callEndpointInByte_update n b; rw [h]
@[simp] theorem State.callEndpointInByte_eps (s : State) (n : Nat) (b : Bool) : ((s.callEndpointInByte n b).2).eps = s.eps := by
  obtain ⟨_, h⟩ := s.callEndpointInByte_update n b; rw [h]
@[simp] theorem State.callEndpointInByte_ctrlDir (s : State) (n : Nat) (b : Bool) : ((s.callEndpointInByte n b).2).ctrlDir = s.ctrlDir := by
  obtain ⟨_, h⟩ := s.callEndpointInByte_update n b; rw [h]
@[simp] theorem State.callEndpointInByte_rom (s : State) (n : Nat) (b : Bool) : ((s.callEndpointInByte n b).2).rom = s.rom := by
  obtain ⟨_, h⟩ := s.callEndpointInByte_update n b; rw [h]
@[simp] theorem State.callEndpointInByte_ram (s : State) (n : Nat) (b : Bool) : ((s.callEndpointInByte n b).2).ram = s.ram := by
  obtain ⟨_, h⟩ := s.callEndpointInByte_update n b; rw [h]
@[simp] theorem State.callEndpointInByte_engine (s : State) (n : Nat) (b : Bool) : ((s.callEndpointInByte n b).2).engine = s.engine := by
  obtain ⟨_, h⟩ := s.callEndpointInByte_update n b; rw [h]
@[simp] theorem State.callEndpointInByte_faults (s : State) (n : Nat) (b : Bool) : ((s.callEndpointInByte n b).2).faults = s.faults := by
  obtain ⟨_, h⟩ := s.callEndpointInByte_update n b; rw [h]
@[simp] theorem State.callEndpointInByte_trace (s : State) (n : Nat) (b : Bool) : ((s.callEndpointInByte n b).2).trace = s.trace := by
  obtain ⟨_, h⟩ := s.callEndpointInByte_update n b; rw [h]
@[simp] theorem State.callEndpointInByte_par (s : State) (n : Nat) (b : Bool) : ((s.callEndpointInByte n b).2).par = s.par := by
  obtain ⟨_, h⟩ := s.callEndpointInByte_update n b; rw [h]
@[simp] theorem State.callEndpointInByte_calls (s : State) (n : Nat) (b : Bool) : ((s.callEndpointInByte n b).2).calls = s.calls ++ [.endpointInByte n b] := by
  obtain ⟨_, h⟩ := s.callEndpointInByte_update n b; rw [h]
@[simp] theorem State.callEndpointInByte_burst (s : State) (n : Nat) (b : Bool) : ((s.callEndpointInByte n b).2).burst = s.burst := by
  obtain ⟨_, h⟩ := s.callEndpointInByte_update n b; rw [h]

theorem State.nextMove_update (s : State) : ∃ e, s.nextMove.2 = { s with env := e } := by
  simp only [State.nextMove]; split <;> exact ⟨_, rfl⟩

@[simp] theorem State.nextMove_core (s : State) : (s.nextMove.2).core = s.core := by
  obtain ⟨_, h⟩ := s.nextMove_update; rw [h]
@[simp] theorem State.nextMove_epc (s : State) : (s.nextMove.2).epc = s.epc := by
  obtain ⟨_, h⟩ := s.nextMove_update; rw [h]
@[simp] theorem State.nextMove_eps (s : State) : (s.nextMove.2).eps = s.eps := by
  obtain ⟨_, h⟩ := s.nextMove_update; rw [h]
@[simp] theorem State.nextMove_ctrlDir (s : State) : (s.nextMove.2).ctrlDir = s.ctrlDir := by
  obtain ⟨_, h⟩ := s.nextMove_update; rw [h]
@[simp] theorem State.nextMove_rom (s : State) : (s.nextMove.2).rom = s.rom := by
  obtain ⟨_, h⟩ := s.nextMove_update; rw [h]
@[simp] theorem State.nextMove_ram (s : State) : (s.nextMove.2).ram = s.ram := by
  obtain ⟨_, h⟩ := s.nextMove_update; rw [h]
@[simp] theorem State.nextMove_engine (s : State) : (s.nextMove.2).engine = s.engine := by
  obtain ⟨_, h⟩ := s.nextMove_update; rw [h]
@[simp] theorem State.nextMove_faults (s : State) : (s.nextMove.2).faults = s.faults := by
  obtain ⟨_, h⟩ := s.nextMove_update; rw [h]
@[simp] theorem State.nextMove_trace (s : State) : (s.nextMove.2).trace = s.trace := by
  obtain ⟨_, h⟩ := s.nextMove_update; rw [h]
@[simp] theorem State.nextMove_par (s : State) : (s.nextMove.2).par = s.par := by
  obtain ⟨_, h⟩ := s.nextMove_update; rw [h]
@[simp] theorem State.nextMove_calls (s : State) : (s.nextMove.2).calls = s.calls := by
  obtain ⟨_, h⟩ := s.nextMove_update; rw [h]
@[simp] theorem State.nextMove_burst (s : State) : (s.nextMove.2).burst = s.burst := by
  obtain ⟨_, h⟩ := s.nextMove_update; rw [h]

theorem State.drawByte_update (s : State) : ∃ e, s.drawByte.2 = { s with env := e } := by
  simp only [State.drawByte]; split <;> exact ⟨_, rfl⟩

@[simp] theorem State.drawByte_core (s : State) : (s.drawByte.2).core = s.core := by
  obtain ⟨_, h⟩ := s.drawByte_update; rw [h]
@[simp] theorem State.drawByte_epc (s : State) : (s.drawByte.2).epc = s.epc := by
  obtain ⟨_, h⟩ := s.drawByte_update; rw [h]
@[simp] theorem State.drawByte_eps (s : State) : (s.drawByte.2).eps = s.eps := by
  obtain ⟨_, h⟩ := s.drawByte_update; rw [h]
@[simp] theorem State.drawByte_ctrlDir (s : State) : (s.drawByte.2).ctrlDir = s.ctrlDir := by
  obtain ⟨_, h⟩ := s.drawByte_update; rw [h]
@[simp] theorem State.drawByte_rom (s : State) : (s.drawByte.2).rom = s.rom := by
  obtain ⟨_, h⟩ := s.drawByte_update; rw [h]
@[simp] theorem State.drawByte_ram (s : State) : (s.drawByte.2).ram = s.ram := by
  obtain ⟨_, h⟩ := s.drawByte_update; rw [h]
@[simp] theorem State.drawByte_engine (s : State) : (s.drawByte.2).engine = s.engine := by
  obtain ⟨_, h⟩ := s.drawByte_update; rw [h]
@[simp] theorem State.drawByte_faults (s : State) : (s.drawByte.2).faults = s.faults := by
  obtain ⟨_, h⟩ := s.drawByte_update; rw [h]
@[simp] theorem State.drawByte_trace (s : State) : (s.drawByte.2).trace = s.trace := by
  obtain ⟨_, h⟩ := s.drawByte_update; rw [h]
@[simp] theorem State.drawByte_par (s : State) : (s.drawByte.2).par = s.par := by
  obtain ⟨_, h⟩ := s.drawByte_update; rw [h]
@[simp] theorem State.drawByte_calls (s : State) : (s.drawByte.2).calls = s.calls := by
  obtain ⟨_, h⟩ := s.drawByte_update; rw [h]
@[simp] theorem State.drawByte_burst (s : State) : (s.drawByte.2).burst = s.burst := by
  obtain ⟨_, h⟩ := s.drawByte_update; rw [h]

theorem State.drawBytes_update (s : State) (n : Nat) : ∃ e, (s.drawBytes n).2 = { s with env := e } := by
  induction n generalizing s with
  | zero => exact ⟨s.env, rfl⟩
  | succ n ih =>
    obtain ⟨e, h⟩ := s.drawByte_update
    obtain ⟨e', h'⟩ := ih s.drawByte.2
    exact ⟨e', h'.trans (by rw [h])⟩

@[simp] theorem State.drawBytes_core (s : State) (n : Nat) : ((s.drawBytes n).2).core = s.core := by
  obtain ⟨_, h⟩ := s.drawBytes_update n; rw [h]
@[simp] theorem State.drawBytes_epc (s : State) (n : Nat) : ((s.drawBytes n).2).epc = s.epc := by
  obtain ⟨_, h⟩ := s.drawBytes_update n; rw [h]
@[simp] theorem State.drawBytes_eps (s : State) (n : Nat) : ((s.drawBytes n).2).eps = s.eps := by
  obtain ⟨_, h⟩ := s.drawBytes_update n; rw [h]
@[simp] theorem State.drawBytes_ctrlDir (s : State) (n : Nat) : ((s.drawBytes n).2).ctrlDir = s.ctrlDir := by
  obtain ⟨_, h⟩ := s.drawBytes_update n; rw [h]
@[simp] theorem State.drawBytes_rom (s : State) (n : Nat) : ((s.drawBytes n).2).rom = s.rom := by
  obtain ⟨_, h⟩ := s.drawBytes_update n; rw [h]
@[simp] theorem State.drawBytes_ram (s : State) (n : Nat) : ((s.drawBytes n).2).ram = s.ram := by
  obtain ⟨_, h⟩ := s.drawBytes_update n; rw [h]
@[simp] theorem State.drawBytes_engine (s : State) (n : Nat) : ((s.drawBytes n).2).engine = s.engine := by
  obtain ⟨_, h⟩ := s.drawBytes_update n; rw [h]
@[simp] theorem State.drawBytes_faults (s : State) (n : Nat) : ((s.drawBytes n).2).faults = s.faults := by
  obtain ⟨_, h⟩ := s.drawBytes_update n; rw [h]
@[simp] theorem State.drawBytes_trace (s : State) (n : Nat) : ((s.drawBytes n).2).trace = s.trace := by
  obtain ⟨_, h⟩ := s.drawBytes_update n; rw [h]
@[simp] theorem State.drawBytes_par (s : State) (n : Nat) : ((s.drawBytes n).2).par = s.par := by
  obtain ⟨_, h⟩ := s.drawBytes_update n; rw [h]
@[simp] theorem State.drawBytes_calls (s : State) (n : Nat) : ((s.drawBytes n).2).calls = s.calls := by
  obtain ⟨_, h⟩ := s.drawBytes_update n; rw [h]
@[simp] theorem State.drawBytes_burst (s : State) (n : Nat) : ((s.drawBytes n).2).burst = s.burst := by
  obtain ⟨_, h⟩ := s.drawBytes_update n; rw [h]

@[simp] theorem State.drawBytes_length (s : State) (n : Nat) : (s.drawBytes n).1.length = n := by
  induction n generalizing s with
  | zero => rfl
  | succ n ih => exact congrArg (· + 1) (ih _)

theorem State.fifoRead_update (s : State) : ∃ es e, s.fifoRead.2 = { s with eps := es, env := e } := by
  simp only [State.fifoRead]
  split
  · exact ⟨_, s.env, rfl⟩
  · obtain ⟨e, h⟩ := s.drawByte_update
    exact ⟨s.eps, e, h⟩

@[simp] theorem State.fifoRead_core (s : State) : (s.fifoRead.2).core = s.core := by
  obtain ⟨_, _, h⟩ := s.fifoRead_update; rw [h]
@[simp] theorem State.fifoRead_epc (s : State) : (s.fifoRead.2).epc = s.epc := by
  obtain ⟨_, _, h⟩ := s.fifoRead_update; rw [h]
@[simp] theorem State.fifoRead_ctrlDir (s : State) : (s.fifoRead.2).ctrlDir = s.ctrlDir := by
  obtain ⟨_, _, h⟩ := s.fifoRead_update; rw [h]
@[simp] theorem State.fifoRead_rom (s : State) : (s.fifoRead.2).rom = s.rom := by
  obtain ⟨_, _, h⟩ := s.fifoRead_update; rw [h]
@[simp] theorem State.fifoRead_ram (s : State) : (s.fifoRead.2).ram = s.ram := by
  obtain ⟨_, _, h⟩ := s.fifoRead_update; rw [h]
@[simp] theorem State.fifoRead_engine (s : State) : (s.fifoRead.2).engine = s.engine := by
  obtain ⟨_, _, h⟩ := s.fifoRead_update; rw [h]
@[simp] theorem State.fifoRead_faults (s : State) : (s.fifoRead.2).faults = s.faults := by
  obtain ⟨_, _, h⟩ := s.fifoRead_update; rw [h]
@[simp] theorem State.fifoRead_trace (s : State) : (s.fifoRead.2).trace = s.trace := by
  obtain ⟨_, _, h⟩ := s.fifoRead_update; rw [h]
@[simp] theorem State.fifoRead_par (s : State) : (s.fifoRead.2).par = s.par := by
  obtain ⟨_, _, h⟩ := s.fifoRead_update; rw [h]
@[simp] theorem State.fifoRead_calls (s : State) : (s.fifoRead.2).calls = s.calls := by
  obtain ⟨_, _, h⟩ := s.fifoRead_update; rw [h]
@[simp] theorem State.fifoRead_burst (s : State) : (s.fifoRead.2).burst = s.burst := by
  obtain ⟨_, _, h⟩ := s.fifoRead_update; rw [h]

@[simp] theorem State.callEndpointOutByte_core (s : State) (n : Nat) (b : Byte) (f : Bool) : (s.callEndpointOutByte n b f).core = s.core := rfl
@[simp] theorem State.callEndpointOutByte_epc (s : State) (n : Nat) (b : Byte) (f : Bool) : (s.callEndpointOutByte n b f).epc = s.epc := rfl
@[simp] theorem State.callEndpointOutByte_eps (s : State) (n : Nat) (b : Byte) (f : Bool) : (s.callEndpointOutByte n b f).eps = s.eps := rfl
@[simp] theorem State.callEndpointOutByte_ctrlDir (s : State) (n : Nat) (b : Byte) (f : Bool) : (s.callEndpointOutByte n b f).ctrlDir = s.ctrlDir := rfl
@[simp] theorem State.callEndpointOutByte_rom (s : State) (n : Nat) (b : Byte) (f : Bool) : (s.callEndpointOutByte n b f).rom = s.rom := rfl
@[simp] theorem State.callEndpointOutByte_ram (s : State) (n : Nat) (b : Byte) (f : Bool) : (s.callEndpointOutByte n b f).ram = s.ram := rfl
@[simp] theorem State.callEndpointOutByte_engine (s : State) (n : Nat) (b : Byte) (f : Bool) : (s.callEndpointOutByte n b f).engine = s.engine := rfl
@[simp] theorem State.callEndpointOutByte_faults (s : State) (n : Nat) (b : Byte) (f : Bool) : (s.callEndpointOutByte n b f).faults = s.faults := rfl
@[simp] theorem State.callEndpointOutByte_trace (s : State) (n : Nat) (b : Byte) (f : Bool) : (s.callEndpointOutByte n b f).trace = s.trace := rfl
@[simp] theorem State.callEndpointOutByte_par (s : State) (n : Nat) (b : Byte) (f : Bool) : (s.callEndpointOutByte n b f).par = s.par := rfl
@[simp] theorem State.callEndpointOutByte_env (s : State) (n : Nat) (b : Byte) (f : Bool) : (s.callEndpointOutByte n b f).env = s.env := rfl
@[simp] theorem State.callEndpointOutByte_calls (s : State) (n : Nat) (b : Byte) (f : Bool) : (s.callEndpointOutByte n b f).calls = s.calls ++ [.endpointOutByte n b f] := rfl
@[simp] theorem State.callEndpointOutByte_burst (s : State) (n : Nat) (b : Byte) (f : Bool) : (s.callEndpointOutByte n b f).burst = s.burst := rfl

end Sys2Proof.Machine
end

