-- ==== Sys2Proof/Laws/Endpoints.lean ====
section
/-! SUPPORT. The endpoint bank `EP[0..4]`, and what each primitive does to the selected endpoint. -/

namespace Sys2Proof.Machine

/-! ## Reading and replacing one endpoint -/

@[simp] theorem Eps.get_set_self (es : Eps) (n : EpNum) (e : Ep) : (es.set n e).get n = e := by
  match n with
  | 0 => rfl
  | 1 => rfl
  | 2 => rfl
  | 3 => rfl
  | 4 => rfl

theorem Eps.get_set_ne (es : Eps) {n m : EpNum} (e : Ep) (h : m ≠ n) :
    (es.set n e).get m = es.get m := by
  match n, m with
  | 0, 1 | 0, 2 | 0, 3 | 0, 4 | 1, 0 | 1, 2 | 1, 3 | 1, 4 | 2, 0 | 2, 1 | 2, 3 | 2, 4
  | 3, 0 | 3, 1 | 3, 2 | 3, 4 | 4, 0 | 4, 1 | 4, 2 | 4, 3 => rfl
  | 0, 0 | 1, 1 | 2, 2 | 3, 3 | 4, 4 => exact absurd rfl h

theorem Eps.get_set (es : Eps) (n m : EpNum) (e : Ep) :
    (es.set n e).get m = if m = n then e else es.get m := by
  split
  · next h => rw [h]; exact Eps.get_set_self es n e
  · next h => exact Eps.get_set_ne es e h

@[simp] theorem Eps.set_set (es : Eps) (n : EpNum) (e f : Ep) : (es.set n e).set n f = es.set n f := by
  match n with
  | 0 => rfl
  | 1 => rfl
  | 2 => rfl
  | 3 => rfl
  | 4 => rfl

@[simp] theorem Eps.set_get (es : Eps) (n : EpNum) : es.set n (es.get n) = es := by
  match n with
  | 0 => rfl
  | 1 => rfl
  | 2 => rfl
  | 3 => rfl
  | 4 => rfl

theorem State.ep_eq (s : State) (n : EpNum) : s.ep n = s.eps.get n := rfl

theorem State.selected_eq (s : State) : s.selected = s.eps.get s.epc.sel := rfl

theorem State.ep_setEp (s : State) (n m : EpNum) (e : Ep) :
    (s.setEp n e).ep m = if m = n then e else s.ep m := Eps.get_set s.eps n m e

theorem State.ep_setSelected (s : State) (m : EpNum) (e : Ep) :
    (s.setSelected e).ep m = if m = s.epc.sel then e else s.ep m := Eps.get_set s.eps s.epc.sel m e

/-- An endpoint is the same where the banks are the same. -/
theorem State.ep_congr {s t : State} (h : t.eps = s.eps) (n : EpNum) : t.ep n = s.ep n := by
  simp only [State.ep, h]

/-! ## Every endpoint after a bus reset is blank -/

theorem Eps.get_blank (n : EpNum) :
    (Eps.mk Ep.blank Ep.blank Ep.blank Ep.blank Ep.blank).get n = Ep.blank := by
  match n with
  | 0 => rfl
  | 1 => rfl
  | 2 => rfl
  | 3 => rfl
  | 4 => rfl

/-! ## The guarded primitives, by cases -/

/-- COMMIT_IN on an enabled endpoint whose bank is free; otherwise nothing. -/
theorem State.commitIn_cases (s : State) :
    (s.selected.en = true ∧ s.selected.txin = true ∧
      s.commitIn = s.setSelected
        { s.selected with inq := some s.selected.fifo, fifo := [], txin := false }) ∨
    (¬(s.selected.en = true ∧ s.selected.txin = true) ∧ s.commitIn = s) := by
  simp only [State.commitIn]
  split
  · next h => simp only [Bool.and_eq_true] at h; exact .inl ⟨h.1, h.2, rfl⟩
  · next h => simp only [Bool.and_eq_true] at h; exact .inr ⟨h, rfl⟩

/-- The commit of a packet apart from the bank, on an enabled endpoint whose bank is free; otherwise nothing. -/
theorem State.commitApart_cases (s : State) (p : List Byte) :
    (s.selected.en = true ∧ s.selected.txin = true ∧
      s.commitApart p = s.setSelected { s.selected with inq := some p, txin := false }) ∨
    (¬(s.selected.en = true ∧ s.selected.txin = true) ∧ s.commitApart p = s) := by
  simp only [State.commitApart]
  split
  · next h => simp only [Bool.and_eq_true] at h; exact .inl ⟨h.1, h.2, rfl⟩
  · next h => simp only [Bool.and_eq_true] at h; exact .inr ⟨h, rfl⟩

/-- With an empty packet and an empty bank it is COMMIT_IN (40 R137). -/
theorem State.commitApart_nil {s : State} (h : s.selected.fifo = []) : s.commitApart [] = s.commitIn := by
  simp only [State.commitApart, State.commitIn, h]

/-- RELEASE_OUT on an enabled endpoint that holds an OUT packet; otherwise nothing. -/
theorem State.releaseOut_cases (s : State) :
    (s.selected.en = true ∧ s.selected.rxout = true ∧
      s.releaseOut = s.setSelected { s.selected with fifo := [], rxout := false }) ∨
    (¬(s.selected.en = true ∧ s.selected.rxout = true) ∧ s.releaseOut = s) := by
  simp only [State.releaseOut]
  split
  · next h => simp only [Bool.and_eq_true] at h; exact .inl ⟨h.1, h.2, rfl⟩
  · next h => simp only [Bool.and_eq_true] at h; exact .inr ⟨h, rfl⟩

/-- CONSUME_SETUP on an enabled endpoint with a setup pending; otherwise nothing. -/
theorem State.consumeSetup_cases (s : State) :
    (s.selected.en = true ∧ s.selected.rxstp = true ∧
      s.consumeSetup = s.setSelected { s.selected with fifo := [], rxstp := false, txin := true }) ∨
    (¬(s.selected.en = true ∧ s.selected.rxstp = true) ∧ s.consumeSetup = s) := by
  simp only [State.consumeSetup]
  split
  · next h => simp only [Bool.and_eq_true] at h; exact .inl ⟨h.1, h.2, rfl⟩
  · next h => simp only [Bool.and_eq_true] at h; exact .inr ⟨h, rfl⟩

/-- STALL_REQ on an enabled endpoint; otherwise nothing. -/
theorem State.stallRequest_cases (s : State) :
    (s.selected.en = true ∧ s.stallRequest = s.setSelected { s.selected with stallReq := true }) ∨
    (s.selected.en = false ∧ s.stallRequest = s) := by
  simp only [State.stallRequest]
  split
  · next h => exact .inl ⟨h, rfl⟩
  · next h => exact .inr ⟨by simpa using h, rfl⟩

/-- FIFO_RD pops the front byte of an enabled endpoint's bank, or draws a byte. -/
theorem State.fifoRead_cases (s : State) :
    (∃ b bs, s.selected.en = true ∧ s.selected.fifo = b :: bs ∧
      s.fifoRead = (b, s.setSelected { s.selected with fifo := bs })) ∨
    (¬(s.selected.en = true ∧ s.selected.fifo ≠ []) ∧ s.fifoRead = s.drawByte) := by
  simp only [State.fifoRead]
  split
  · next b bs h1 h2 => exact .inl ⟨b, bs, h1, h2, rfl⟩
  · next h =>
    refine .inr ⟨fun ⟨h1, h2⟩ => ?_, rfl⟩
    obtain ⟨b, bs, h3⟩ := List.exists_cons_of_ne_nil h2
    exact h b bs h1 h3

/-- FIFO_WR appends to a bank with room and nothing committed, or is dropped. -/
theorem State.fifoWrite_ok {s t : State} {b : Byte} (h : s.fifoWrite b = .ok t) :
    ((s.selected.en = false ∨ s.selected.rxstp = true) ∧ t = s) ∨
    (s.selected.en = true ∧ s.selected.rxstp = false ∧
      s.selected.fifo.length < bankBytes s.selected.size ∧ s.selected.inq = none ∧
      t = s.setSelected { s.selected with fifo := s.selected.fifo ++ [b] }) := by
  simp only [State.fifoWrite] at h
  split at h
  · next hg =>
    cases h
    exact .inl ⟨by simpa using hg, rfl⟩
  · next hg =>
    split at h
    · next hr =>
      cases h
      simp only [Bool.or_eq_true, Bool.not_eq_eq_eq_not, Bool.not_true, not_or, Bool.not_eq_false,
        Bool.not_eq_true] at hg
      exact .inr ⟨hg.1, hg.2, hr.1, hr.2, rfl⟩
    · cases h

/-- FIFO_WR's only fault. -/
theorem State.fifoWrite_error {s : State} {b : Byte} {f : Fault} (h : s.fifoWrite b = .error f) :
    f = .fifoOverflow := by
  simp only [State.fifoWrite] at h
  split at h
  · cases h
  · split at h
    · cases h
    · cases h; rfl

/-- SEL(n) selects an endpoint that exists and changes nothing else. -/
theorem State.select_ok {s t : State} {n : Nat} (h : s.select n = .ok t) :
    t.epc.sel.val = n ∧ t = { s with epc := { s.epc with sel := t.epc.sel } } := by
  simp only [State.select] at h
  split at h
  · cases h; exact ⟨rfl, rfl⟩
  · cases h

/-- SEL(n)'s only fault. -/
theorem State.select_error {s : State} {n : Nat} {f : Fault} (h : s.select n = .error f) :
    5 ≤ n ∧ f = .epRange := by
  simp only [State.select] at h
  split at h
  · cases h
  · cases h; exact ⟨by omega, rfl⟩

@[simp] theorem State.select_zero (s : State) :
    s.select 0 = .ok { s with epc := { s.epc with sel := 0 } } := rfl

theorem State.select_num (s : State) (n : EpNum) :
    s.select n.val = .ok { s with epc := { s.epc with sel := n } } := by
  simp [State.select, n.isLt]

/-- A recorded fault changes nothing but the set of faults. -/
theorem State.orRaise_cases (s : State) (r : Except Fault State) :
    (∃ t, r = .ok t ∧ s.orRaise r = t) ∨ ∃ f, r = .error f ∧ s.orRaise r = s.raise f := by
  cases r with
  | ok t => exact .inl ⟨t, rfl, rfl⟩
  | error f => exact .inr ⟨f, rfl, rfl⟩

end Sys2Proof.Machine
end

