-- ==== Sys2Proof/Laws/Memory.lean ====
section
/-! SUPPORT. Memory: a read after a write, and the canonical form that every memory operation keeps. -/

namespace Sys2Proof.Machine

theorem Memory.get?_eq_none_of_lt {a : Nat} {m : Memory} (h : ∀ c ∈ m, a < c.1) :
    Memory.get? a m = none := by
  induction m with
  | nil => rfl
  | cons c m ih =>
    have hc := h c (by simp)
    simp only [Memory.get?]
    rw [if_neg (by omega)]
    exact ih fun d hd => h d (by simp [hd])

theorem Memory.wf_cons {c : Host.Cell} {m : Memory} :
    Memory.wf (c :: m) = true ↔ (∀ d ∈ m, c.1 < d.1) ∧ Memory.wf m = true := by
  simp [Memory.wf]

/-- A read of the byte just written gives that byte. -/
theorem Memory.get?_set_self (a : Nat) (b : Byte) (m : Memory) :
    Memory.get? a (Memory.set a b m) = some b := by
  induction m with
  | nil => simp [Memory.set, Memory.get?]
  | cons c m ih =>
    simp only [Memory.set]
    split
    · simp [Memory.get?]
    · split
      · simp [Memory.get?]
      · rename_i h1 h2
        simp only [Memory.get?]
        rw [if_neg (fun h => h2 h.symm)]
        exact ih

/-- A write leaves every other address alone. -/
theorem Memory.get?_set_ne {a x : Nat} (b : Byte) (m : Memory) (h : x ≠ a) :
    Memory.get? x (Memory.set a b m) = Memory.get? x m := by
  induction m with
  | nil => simp [Memory.set, Memory.get?, h.symm]
  | cons c m ih =>
    simp only [Memory.set]
    split
    · simp [Memory.get?, h.symm]
    · split
      · rename_i h1 h2
        simp [Memory.get?, h2 ▸ h.symm, h.symm]
      · simp only [Memory.get?, ih]

/-- Every address listed after a write was listed before it or is the one written. -/
theorem Memory.mem_set {a : Nat} {b : Byte} {m : Memory} {d : Host.Cell} (h : d ∈ Memory.set a b m) :
    d.1 = a ∨ d ∈ m := by
  induction m with
  | nil => simp [Memory.set] at h; simp [h]
  | cons c m ih =>
    simp only [Memory.set] at h
    split at h
    · simp at h
      rcases h with h | h | h <;> simp [h]
    · split at h
      · simp at h
        rcases h with h | h <;> simp [h]
      · simp at h
        rcases h with h | h
        · simp [h]
        · rcases ih h with h | h <;> simp [h]

/-- A write keeps the canonical form. -/
theorem Memory.wf_set (a : Nat) (b : Byte) {m : Memory} (h : Memory.wf m = true) :
    Memory.wf (Memory.set a b m) = true := by
  induction m with
  | nil => simp [Memory.set, Memory.wf]
  | cons c m ih =>
    obtain ⟨hc, hm⟩ := Memory.wf_cons.mp h
    simp only [Memory.set]
    split
    · rename_i hlt
      refine Memory.wf_cons.mpr ⟨fun d hd => ?_, h⟩
      rcases List.mem_cons.mp hd with rfl | hd
      · exact hlt
      · exact Nat.lt_trans hlt (hc d hd)
    · split
      · rename_i _ heq
        exact Memory.wf_cons.mpr ⟨fun d hd => by simpa [heq] using hc d hd, hm⟩
      · rename_i h1 h2
        refine Memory.wf_cons.mpr ⟨fun d hd => ?_, ih hm⟩
        rcases Memory.mem_set hd with hd | hd
        · omega
        · exact hc d hd

/-- A run of writes keeps the canonical form. -/
theorem Memory.wf_setAll (a : Nat) (bs : List Byte) {m : Memory} (h : Memory.wf m = true) :
    Memory.wf (Memory.setAll a bs m) = true := by
  induction bs generalizing a m with
  | nil => exact h
  | cons b bs ih => exact ih (a + 1) (Memory.wf_set a b h)

/-- A run of writes leaves every address outside it alone. -/
theorem Memory.get?_setAll_ne {a x : Nat} (bs : List Byte) (m : Memory)
    (h : x < a ∨ a + bs.length ≤ x) : Memory.get? x (Memory.setAll a bs m) = Memory.get? x m := by
  induction bs generalizing a m with
  | nil => rfl
  | cons b bs ih =>
    simp only [List.length_cons] at h
    simp only [Memory.setAll]
    rw [ih _ (by omega), Memory.get?_set_ne _ _ (by omega)]

/-- A run of writes leaves its bytes where it put them. -/
theorem Memory.get?_setAll_mem {a : Nat} (bs : List Byte) (m : Memory) {j : Nat} (h : j < bs.length) :
    Memory.get? (a + j) (Memory.setAll a bs m) = some bs[j] := by
  induction bs generalizing a m j with
  | nil => simp at h
  | cons b bs ih =>
    simp only [Memory.setAll]
    cases j with
    | zero =>
      rw [Memory.get?_setAll_ne _ _ (by omega)]
      simpa using Memory.get?_set_self a b m
    | succ j =>
      have := ih (a := a + 1) (Memory.set a b m) (j := j) (by simpa using h)
      rw [show a + (j + 1) = a + 1 + j by omega, this]
      simp

/-- A run of writes is its first byte and then the rest. -/
theorem Memory.setAll_cons (a : Nat) (b : Byte) (bs : List Byte) (m : Memory) :
    Memory.setAll a (b :: bs) m = Memory.setAll (a + 1) bs (Memory.set a b m) := rfl

/-- A run of writes can be cut in two. -/
theorem Memory.setAll_append (a : Nat) (bs cs : List Byte) (m : Memory) :
    Memory.setAll a (bs ++ cs) m = Memory.setAll (a + bs.length) cs (Memory.setAll a bs m) := by
  induction bs generalizing a m with
  | nil => rfl
  | cons b bs ih =>
    simp only [List.cons_append, Memory.setAll, ih, List.length_cons]
    rw [show a + 1 + bs.length = a + (bs.length + 1) by omega]

/-! ## The accesses of the block -/

/-- A RAM write either lands at a legal address and changes nothing else, or is out of range. -/
theorem State.ramWriteByte_ok {s t : State} {a : Nat} {b : Byte} (h : s.ramWriteByte a b = .ok t) :
    a < s.par.ramSize ∧ t = { s with ram := Memory.set a b s.ram } := by
  simp only [State.ramWriteByte] at h
  split at h
  · cases h; exact ⟨‹_›, rfl⟩
  · cases h

theorem State.ramWriteByte_error {s : State} {a : Nat} {b : Byte} {f : Fault}
    (h : s.ramWriteByte a b = .error f) : s.par.ramSize ≤ a ∧ f = .outOfRange := by
  simp only [State.ramWriteByte] at h
  split at h
  · cases h
  · cases h; exact ⟨by omega, rfl⟩

/-- A ROM read answers below ROM_SIZE and only there. -/
theorem State.romRead_ok {s : State} {a : Nat} {b : Byte} (h : s.romRead a = .ok b) :
    a < s.par.romSize ∧ b = s.romByteAt a := by
  simp only [State.romRead] at h
  split at h
  · cases h; exact ⟨‹_›, rfl⟩
  · cases h

/-- A RAM read answers a byte that was written, below RAM_SIZE. -/
theorem State.ramRead_ok {s : State} {a : Nat} {b : Byte} (h : s.ramRead a = .ok b) :
    a < s.par.ramSize ∧ Memory.get? a s.ram = some b := by
  simp only [State.ramRead, ramUnlisted, Option.or_none] at h
  split at h
  · split at h
    · cases h; exact ⟨‹_›, ‹_›⟩
    · cases h
  · cases h

theorem romCells_wf (size : Nat) (byte : Nat → Byte) : Memory.wf (romCells size byte) = true := by
  have h : ∀ n lo, Memory.wf ((List.range' lo n).filterMap fun a =>
      if byte a = 0 then none else some (a, byte a)) = true ∧
      ∀ d ∈ (List.range' lo n).filterMap (fun a => if byte a = 0 then none else some (a, byte a)),
        lo ≤ d.1 := by
    intro n
    induction n with
    | zero => intro lo; simp [Memory.wf]
    | succ n ih =>
      intro lo
      obtain ⟨hw, hd⟩ := ih (lo + 1)
      rw [List.range'_succ, List.filterMap_cons]
      split
      · exact ⟨hw, fun d h => by have := hd d h; omega⟩
      · rename_i c hc
        split at hc
        · cases hc
        · cases hc
          refine ⟨Memory.wf_cons.mpr ⟨fun d h => by have := hd d h; simp; omega, hw⟩, fun d h => ?_⟩
          rcases List.mem_cons.mp h with rfl | h
          · simp
          · have := hd d h; omega
  unfold romCells
  rw [List.range_eq_range']
  exact (h size 0).1

/-- Both memories have the canonical form at reset. -/
theorem State.reset_memories_wf :
    Memory.wf State.reset.rom = true ∧ Memory.wf State.reset.ram = true :=
  ⟨romCells_wf _ _, rfl⟩

end Sys2Proof.Machine
end

