-- ==== Sys2Proof/Laws/Reset.lean ====
section
/-! SUPPORT. Taking the bus-reset event: the three ways one run of the reset handler can go, and what it leaves. -/

namespace Sys2Proof.Machine

/-! ## Abandonment -/

@[simp] theorem State.abandon_core (s : State) : s.abandon.core = s.core := by
  simp only [State.abandon]; split <;> rfl

@[simp] theorem State.abandon_epc (s : State) : s.abandon.epc = s.epc := by
  simp only [State.abandon]; split <;> rfl

@[simp] theorem State.abandon_eps (s : State) : s.abandon.eps = s.eps := by
  simp only [State.abandon]; split <;> rfl

@[simp] theorem State.abandon_ctrlDir (s : State) : s.abandon.ctrlDir = s.ctrlDir := by
  simp only [State.abandon]; split <;> rfl

@[simp] theorem State.abandon_rom (s : State) : s.abandon.rom = s.rom := by
  simp only [State.abandon]; split <;> rfl

@[simp] theorem State.abandon_ram (s : State) : s.abandon.ram = s.ram := by
  simp only [State.abandon]; split <;> rfl

@[simp] theorem State.abandon_faults (s : State) : s.abandon.faults = s.faults := by
  simp only [State.abandon]; split <;> rfl

@[simp] theorem State.abandon_trace (s : State) : s.abandon.trace = s.trace := by
  simp only [State.abandon]; split <;> rfl

@[simp] theorem State.abandon_par (s : State) : s.abandon.par = s.par := by
  simp only [State.abandon]; split <;> rfl

@[simp] theorem State.abandon_env (s : State) : s.abandon.env = s.env := by
  simp only [State.abandon]; split <;> rfl

@[simp] theorem State.abandon_calls (s : State) : s.abandon.calls = s.calls := by
  simp only [State.abandon]; split <;> rfl

@[simp] theorem State.abandon_burst (s : State) : s.abandon.burst = s.burst := by
  simp only [State.abandon]; split <;> rfl

/-- Abandonment leaves an engine inside a task between two tasks, and any other as it is. -/
theorem State.abandon_engine (s : State) :
    (∃ k, s.engine = .busy k ∧ s.abandon.engine = .idle) ∨
      ((∀ k, s.engine ≠ .busy k) ∧ s.abandon.engine = s.engine) := by
  simp only [State.abandon]
  split
  · next k h => exact .inl ⟨k, h, rfl⟩
  · next h => exact .inr ⟨h, rfl⟩

/-- Endpoint 0 after a completed run: a control endpoint with an empty, free bank of the negotiated size. -/
def Ep.restarted (mps : Byte) : Ep :=
  { Ep.blank with en := true, size := sizeClass (mps.setWidth 16), txin := true }

/-- A completed run, as one update of the state before the abandonment. -/
theorem State.restart_eq (s : State) (mps : Byte) :
    s.restart mps =
      State.abandon
        { s with
          epc := { s.epc with sel := 0 }
          eps := s.eps.set 0 (Ep.restarted mps)
          ctrlDir := .toDevice
          core :=
            { s.core with ctrlMps := mps, devState := .default, activeConfig := 0, configuredMax := 0 } } :=
  rfl

/-- One run of the handler records a fault, is aborted for want of a device descriptor, or completes. -/
theorem State.resetHandler_cases (s : State) :
    let c := s.eventAck.callDeviceDescriptor
    (∃ f, s.resetHandler = s.raise f) ∨
      (c.1 = none ∧ s.resetHandler = c.2.abandon) ∨
      ∃ d mps, c.1 = some d ∧ c.2.romRead (d + 7) = .ok mps ∧ ep0SizeLegal mps = true ∧
        s.resetHandler = c.2.restart mps := by
  intro c
  simp only [State.resetHandler]
  split
  · next hc => exact .inr (.inl ⟨hc, rfl⟩)
  · next d hc =>
    split
    · exact .inl ⟨_, rfl⟩
    · next mps hm =>
      split
      · next hl => exact .inr (.inr ⟨d, mps, hc, hm, hl, rfl⟩)
      · exact .inl ⟨_, rfl⟩

end Sys2Proof.Machine
end

