-- ==== Sys2Proof/Laws/Bus.lean ====
section
/-! SUPPORT. Host transactions: everything one of them can do. -/

namespace Sys2Proof.Machine

/-- What a host transaction does, its answer apart: nothing, a bus reset, a setup, an IN packet taken, a NAK noted, a status
OUT accepted or an OUT packet accepted. -/
inductive State.HostEffect (s : State) : State → Prop where
  | nothing : HostEffect s s
  | setup (u : State) (bytes : List Byte) (d : Dir) (n : Nat) (hu : u = (s.drawBytes n).2)
      (h : (s.ep 0).rxstp = false) (hen : (s.ep 0).en = true) (hl : bytes.length = 8) :
      HostEffect s { u.setEp 0 ((u.ep 0).withSetup bytes) with ctrlDir := d }
  | taken (n : EpNum) (p : List Byte) (h : (s.ep n).inq = some p) (hen : (s.ep n).en = true) :
      HostEffect s (s.setEp n { s.ep n with inq := none, txin := true })
  | nakIn (n : EpNum) (hen : (s.ep n).en = true) : HostEffect s (s.setEp n { s.ep n with nakin := true })
  | nakOut (n : EpNum) (hen : (s.ep n).en = true) : HostEffect s (s.setEp n { s.ep n with nakout := true })
  | status (h : (s.ep 0).rxstp = false) (hr : (s.ep 0).rxout = false) (hen : (s.ep 0).en = true) :
      HostEffect s (s.setEp 0 { s.ep 0 with fifo := [], rxout := true, inq := none, txin := true })
  | data (n : EpNum) (p : List Byte) (h : n = 0 → (s.ep 0).rxstp = false)
      (hr : (s.ep n).rxout = false) (hen : (s.ep n).en = true)
      (hl : p.length ≤ bankBytes (s.ep n).size) :
      HostEffect s (s.setEp n { s.ep n with fifo := p, rxout := true })

/-- A setup packet leaves eight bytes, after as many draws as it takes. -/
theorem State.setupBytes_cases (s : State) (bytes : List Byte) :
    ∃ n, (s.setupBytes bytes).2 = (s.drawBytes n).2 ∧ (s.setupBytes bytes).1.length = 8 := by
  simp only [State.setupBytes]
  split
  · next h => exact ⟨_, rfl, by simp; omega⟩
  · exact ⟨8, rfl, by simp⟩

/-- Eight bytes are the bank's as they are, with no draw. -/
theorem State.setupBytes_eight (s : State) {bytes : List Byte} (h : bytes.length = 8) :
    s.setupBytes bytes = (bytes, s) := by
  simp [State.setupBytes, h, State.drawBytes]

theorem State.hostSetup_cases {s t : State} {a : BitVec 7} {bytes : List Byte}
    (h : s.hostSetup a bytes = some t) :
    ∃ u r, s.HostEffect u ∧ t = u.answer (.setup a bytes) r := by
  simp only [State.hostSetup] at h
  split at h
  · cases h
  · next hg =>
    simp only [Bool.not_eq_true] at hg
    split at h
    · cases h; exact ⟨s, _, .nothing, rfl⟩
    · next ha =>
      simp only [not_or, Decidable.not_not, Bool.not_eq_false] at ha
      cases h
      obtain ⟨n, hn, hl⟩ := s.setupBytes_cases bytes
      exact ⟨_, _, .setup _ _ _ n hn hg ha.2 hl, rfl⟩

theorem State.hostInAt_cases (s : State) (tx : HostTx) (n : EpNum) (hen : (s.ep n).en = true) :
    ∃ u r, s.HostEffect u ∧ s.hostInAt tx n = u.answer tx r := by
  simp only [State.hostInAt]
  split
  · exact ⟨s, _, .nothing, rfl⟩
  · split
    · next p hp => exact ⟨_, _, .taken n p hp hen, rfl⟩
    · exact ⟨_, _, .nakIn n hen, rfl⟩

theorem State.hostIn_cases (s : State) (a : BitVec 7) (e : Nat) :
    ∃ u r, s.HostEffect u ∧ s.hostIn a e = u.answer (.tokenIn a e) r := by
  simp only [State.hostIn]
  split
  · next he =>
    split
    · exact ⟨s, _, .nothing, rfl⟩
    · next hg =>
      simp only [not_or, Bool.not_eq_false] at hg
      exact s.hostInAt_cases _ _ hg.2.1
  · exact ⟨s, _, .nothing, rfl⟩

theorem State.hostOut_cases {s t : State} {a : BitVec 7} {e : Nat} {p : List Byte}
    (h : s.hostOut a e p = some t) :
    ∃ u r, s.HostEffect u ∧ t = u.answer (.tokenOut a e p) r := by
  simp only [State.hostOut] at h
  split at h
  · next he =>
    split at h
    · cases h; exact ⟨s, _, .nothing, rfl⟩
    · next hg =>
      simp only [not_or, Bool.not_eq_false] at hg
      split at h
      · cases h
      · next hl =>
        split at h
        · next h0 =>
          cases h
          rw [h0] at hg hl
          simp only [State.hostOut0]
          split
          · exact ⟨s, _, .nothing, rfl⟩
          · split
            · split
              · next hc => exact ⟨_, _, .status hc.1 hc.2.1 hg.2.1, rfl⟩
              · exact ⟨_, _, .nakOut 0 hg.2.1, rfl⟩
            · split
              · next hc =>
                exact ⟨_, _, .data 0 p (fun _ => hc.1) hc.2 hg.2.1 (Nat.not_lt.mp hl), rfl⟩
              · exact ⟨_, _, .nakOut 0 hg.2.1, rfl⟩
        · next h0 =>
          cases h
          simp only [State.hostOutAt]
          split
          · exact ⟨s, _, .nothing, rfl⟩
          · split
            · next hr =>
              exact ⟨_, _, .data _ p (fun h => absurd h h0) hr hg.2.1 (Nat.not_lt.mp hl), rfl⟩
            · exact ⟨_, _, .nakOut _ hg.2.1, rfl⟩
  · cases h; exact ⟨s, _, .nothing, rfl⟩

/-- Everything a host transaction can do, once the device is attached. -/
theorem State.hostStep_cases {s t : State} {tx : HostTx} (h : s.hostStep tx = some t) :
    s.epc.attached = true ∧
      ((tx = .busReset ∧ t = s.busReset) ∨ ∃ u r, s.HostEffect u ∧ t = u.answer tx r) := by
  simp only [State.hostStep] at h
  split at h
  · next ha =>
    refine ⟨ha, ?_⟩
    cases tx with
    | busReset => cases h; exact .inl ⟨rfl, rfl⟩
    | setup a bytes => exact .inr (State.hostSetup_cases h)
    | tokenIn a e => cases h; exact .inr (s.hostIn_cases a e)
    | tokenOut a e p => exact .inr (State.hostOut_cases h)
  · cases h

/-- A host transaction leaves the core, the memories and the engine's position alone. -/
theorem State.hostStep_frame {s t : State} {tx : HostTx} (h : s.hostStep tx = some t) :
    t.core = s.core ∧ t.rom = s.rom ∧ t.ram = s.ram ∧ t.engine = s.engine ∧ t.faults = s.faults ∧
      t.par = s.par ∧ t.calls = s.calls ∧ t.burst = s.burst ∧ t.epc.sel = s.epc.sel ∧
      t.epc.eorstEn = s.epc.eorstEn ∧ t.epc.attached = s.epc.attached := by
  rcases (State.hostStep_cases h).2 with ⟨_, rfl⟩ | ⟨u, r, hu, rfl⟩
  · exact ⟨rfl, rfl, rfl, rfl, rfl, rfl, rfl, rfl, rfl, rfl, rfl⟩
  · cases hu with
    | setup v bytes d n hv => subst hv; simp
    | _ => simp

end Sys2Proof.Machine
end

