-- ==== Sys2Proof/Laws/Engine.lean ====
section
/-! SUPPORT. The engine: what one micro-step can do to the data, and how a run of micro-steps goes. Proofs cite these
instead of unfolding the step of a statement. -/

namespace Sys2Proof.Machine

/-! ## Everything a micro-step can do to the data

The engine's position apart, a micro-step of a statement that raises no fault makes one of these changes. -/

/-- The endpoint a statement selects. -/
def Stmt.selects : Stmt → Option Nat
  | .sel n => some n
  | .serveSelect n _ => some n
  | .configure .select ed => some (edNumber ed)
  | _ => none

/-- The statements that write a byte to the bank. -/
def Stmt.writesFifo : Stmt → Bool
  | .controlIn (.fill _ _) _ => true
  | .serve (.putByte _) _ => true
  | _ => false

/-- The statements that read a byte from the bank and record no event of it. -/
def Stmt.readsFifo : Stmt → Bool
  | .dispatchRead _ => true
  | .serve (.getByte _ _) _ => true
  | _ => false

/-- The statements that commit the bank's bytes. -/
def Stmt.commits : Stmt → Bool
  | .controlIn (.commit _) _ => true
  | .serve .commit _ => true
  | _ => false

/-- The statements that commit a packet apart from the bank. -/
def Stmt.commitsApart : Stmt → Bool
  | .controlIn (.commit _) _ => true
  | .controlIn .commitZlp _ => true
  | .controlOut .commit _ => true
  | _ => false

/-- The statements that release an OUT packet. -/
def Stmt.releases : Stmt → Bool
  | .controlIn .release _ => true
  | .controlOut .release _ => true
  | .serve .release _ => true
  | _ => false

/-- The statements that consume the setup. -/
def Stmt.consumes : Stmt → Bool
  | .controlIn .consume _ => true
  | .controlOut .consume _ => true
  | .stallConsume => true
  | _ => false

/-- The statements that record an event and do nothing else. -/
def Stmt.records : Stmt → Bool
  | .recordConfigure => true
  | .recordVendor => true
  | .serve (.record _ _ _) _ => true
  | _ => false

/-- One change of the data by a micro-step of a statement, the engine's position apart. -/
inductive State.Effect (s : State) : Stmt → State → Prop where
  | nothing (st : Stmt) : Effect s st s
  | select (st : Stmt) (n : EpNum) (h : st.selects = some n.val) :
      Effect s st { s with epc := { s.epc with sel := n } }
  | enable (ed : EndpointDesc) : Effect s (.configure .enable ed) s.epEnable
  | config (ed : EndpointDesc) :
      Effect s (.configure .program ed)
        (s.epConfig (edType ed) (edDir ed) (sizeClass ed.wMaxPacketSize))
  | fifoReset (ed : EndpointDesc) : Effect s (.configure .reset ed) s.epReset
  | count (ed : EndpointDesc) :
      Effect s (.configure .count ed)
        { s with core := { s.core with configuredMax := s.core.configuredMax + 1 } }
  | write (st : Stmt) (hst : st.writesFifo = true) (b : Byte) (t : State) (h : s.fifoWrite b = .ok t) :
      Effect s st t
  | read (st : Stmt) (hst : st.readsFifo = true) : Effect s st s.fifoRead.2
  | receive (n : Nat) (v : CoVars) (first : Bool) :
      Effect s (.controlOut (.drain n) v) (s.receiveByte first)
  | commit (st : Stmt) (hst : st.commits = true) : Effect s st s.commitIn
  | commitApart (st : Stmt) (hst : st.commitsApart = true) (p : List Byte) :
      Effect s st (s.commitApart p)
  | release (st : Stmt) (hst : st.releases = true) : Effect s st s.releaseOut
  | consume (st : Stmt) (hst : st.consumes = true) : Effect s st s.consumeSetup
  | stall : Effect s .stallRequest s.stallRequest
  | addrSet (a : BitVec 7) : Effect s (.addrSet a) (s.addrSet a)
  | addrEnable : Effect s .addrEnable s.addrEnable
  | eventEnable : Effect s (.init .eventEnable) s.eventEnable
  | attach : Effect s (.init .attach) s.attach
  | initialized : Effect s (.init .done) { s with core := { s.core with initialized := true } }
  | store (a : Nat) (b : Byte) (bs : List Byte) (t : State) (h : s.ramWriteByte a b = .ok t) :
      Effect s (.ramWrite a (b :: bs)) t
  | record (st : Stmt) (hst : st.records = true) (e : Event) : Effect s st (s.record e)
  | callDevice : Effect s .askDevice s.callDeviceDescriptor.2
  | callConfiguration :
      Effect s .askConfiguration (s.callConfigurationDescriptor s.core.activeConfig).2
  | callString (v x : Half) : Effect s (.askString v x) (s.callStringDescriptor v x).2
  | callVendor (r : Request) : Effect s .askVendor (s.callVendorRequest r).2
  | callConfigure : Effect s .askConfigure (s.callConfigureEndpoints s.core.activeConfig).2
  | callInByte (first : Bool) (v : SvcVars) :
      Effect s (.serve (.askByte first) v) (s.callEndpointInByte v.ep.val first).2
  | callOutByte (n left : Nat) (b : Byte) (v : SvcVars) :
      Effect s (.serve (.tellByte n left b) v)
        (s.callEndpointOutByte v.ep.val b (decide (n = 0)))
  | request (g : List Byte) :
      Effect s (.dispatchAssemble g) { s with core := { s.core with req := requestOf g } }
  | devState (d : DeviceState) :
      Effect s (.setDevState d) { s with core := { s.core with devState := d } }
  | activeConfig (v : Byte) :
      Effect s (.setActiveConfig v) { s with core := { s.core with activeConfig := v } }

/-! ## What a handler's test goes on to -/

/-- A test leads nowhere (the stall path follows), to the next test, or to what the spec runs once it succeeds. -/
theorem State.checkProgram_cases (s : State) (c : Check) :
    s.checkProgram c = [] ∨ (∃ c', s.checkProgram c = [.check c']) ∨
      (∃ r x, c = .statusRecipient r x ∧ s.checkProgram c = statusReply s.par 0) ∨
      (∃ (x : Half) (n : EpNum), c = .statusNumber x ∧ s.checkProgram c = [.sel n.val, .readHalt n]) ∨
      (∃ d r v, c = .address d r v ∧ s.core.devState = .default ∧
        s.checkProgram c = setAddressProgram v) ∨
      (∃ d r v, c = .configuration d r v ∧ s.core.devState = .address ∧
        s.checkProgram c = setConfigurationProgram v) ∨
      (c = .resolve .device ∧ s.checkProgram c = [.askDevice]) ∨
      (c = .resolve .configuration ∧ s.checkProgram c = [.askConfiguration]) ∨
      (∃ v x, c = .resolve (.string v x) ∧ s.checkProgram c = [.askString v x]) ∨
      (c = .vendor ∧ s.checkProgram c = [.recordVendor, .askVendor]) := by
  cases c with
  | statusDirection d r x =>
    simp only [State.checkProgram, statusDirectionProgram, stall]
    split <;> simp
  | statusRecipient r x => cases r <;> simp [State.checkProgram, statusRecipientProgram, stall]
  | statusNumber x =>
    simp only [State.checkProgram, statusNumberProgram, stall]
    split
    · next h => exact .inr (.inr (.inr (.inl ⟨x, ⟨_, h⟩, rfl, rfl⟩)))
    · exact .inl rfl
  | address d r v =>
    simp only [State.checkProgram, addressProgram, stall]
    split
    · next h =>
      simp only [setAddressLegal, Bool.and_eq_true, beq_iff_eq] at h
      exact .inr (.inr (.inr (.inr (.inl ⟨d, r, v, rfl, h.2, rfl⟩))))
    · exact .inl rfl
  | configuration d r v =>
    simp only [State.checkProgram, configurationProgram, stall]
    split
    · next h =>
      simp only [setConfigurationLegal, Bool.and_eq_true, beq_iff_eq] at h
      exact .inr (.inr (.inr (.inr (.inr (.inl ⟨d, r, v, rfl, h.1.2, rfl⟩)))))
    · exact .inl rfl
  | descriptor d r row =>
    simp only [State.checkProgram, descriptorProgram, stall]
    split <;> simp
  | resolve row => cases row <;> simp [State.checkProgram, resolveProgram, stall]
  | vendor =>
    simp only [State.checkProgram, vendorPresentProgram, stall]
    split <;> simp

/-! ## Where a micro-step can lead -/

/-- What a statement can leave to run before its caller's continuation, whatever the state is. -/
inductive Stmt.Next : Stmt → List Stmt → Prop where
  | done (st : Stmt) : Next st []
  | check (c : Check) (s : State) : Next (.check c) (s.checkProgram c)
  | init (l l' : InitLine) : Next (.init l) [.init l']
  | initTail (l : InitLine) (a : Nat) (text : List Byte) : Next (.init l) (initTail a text)
  | ramWrite (a a' : Nat) (bs bs' : List Byte) : Next (.ramWrite a bs) [.ramWrite a' bs']
  | dispatch : Next .taskSetup [.dispatchRead [], .taskBound]
  | noSetup : Next .taskSetup [.taskBound]
  | bound (n m : Nat) : Next .taskBound [serveNext n m]
  | selected (n m : Nat) (l : SvcLine) (v : SvcVars) : Next (.serveSelect n m) [.serve l v]
  | serve (l l' : SvcLine) (v v' : SvcVars) : Next (.serve l v) [.serve l' v']
  | served (l : SvcLine) (v : SvcVars) (n m : Nat) : Next (.serve l v) [serveNext n m]
  | read (g g' : List Byte) : Next (.dispatchRead g) [.dispatchRead g']
  | readAll (g g' : List Byte) : Next (.dispatchRead g) [.dispatchAssemble g']
  | assembled (g : List Byte) : Next (.dispatchAssemble g) [.classify]
  | stall : Next .stallTest [.stallRequest, .stallConsume]
  | status (n : EpNum) (p : Params) (w : Half) : Next (.readHalt n) (.sel 0 :: statusReply p w)
  | configured (eds : List EndpointDesc) : Next .askConfigure (eds.map (.configure .test))
  | configure (l l' : CfgLine) (ed : EndpointDesc) (h : l' ≠ .test) :
      Next (.configure l ed) [.configure l' ed]
  | device (d : Nat) : Next .askDevice [.readLength d]
  | configuration (d : Nat) : Next .askConfiguration [.readTotalLow d]
  | string (v x : Half) (d : Nat) : Next (.askString v x) [.readLength d]
  | builtIn (v x : Half) (p : Params) : Next (.askString v x) (builtInString p v)
  | length (d : Nat) (src : Source) (n : Nat) : Next (.readLength d) [Machine.controlIn src n]
  | totalLow (d : Nat) (lo : Byte) : Next (.readTotalLow d) [.readTotalHigh d lo]
  | total (d : Nat) (lo : Byte) (src : Source) (n : Nat) :
      Next (.readTotalHigh d lo) [Machine.controlIn src n]
  | vendor (a : VendorAnswer) (p : List Stmt) (h : vendorProgram a = some p) : Next .askVendor p
  | controlIn (l l' : CiLine) (v v' : CiVars) (h : l' ≠ .entry) :
      Next (.controlIn l v) [.controlIn l' v']
  | controlOut (l l' : CoLine) (v v' : CoVars) (h : l' ≠ .entry) :
      Next (.controlOut l v) [.controlOut l' v']

/-- A micro-step of a statement records a fault and changes nothing else, or makes one change and goes on. -/
def State.StepsBy (s : State) (st : Stmt) (k : List Stmt) (t : State) : Prop :=
  (∃ f, t = s.raise f) ∨ ∃ u l, s.Effect st u ∧ st.Next l ∧ t = u.goto (l ++ k)

section StepsBy

variable {s t u : State} {st : Stmt} {k : List Stmt}

theorem State.stepsBy_raise (f : Fault) : s.StepsBy st k (s.raise f) := .inl ⟨f, rfl⟩

theorem Stmt.Next.goto {l : List Stmt} (h : st.Next l) : s.StepsBy st k (s.goto (l ++ k)) :=
  .inr ⟨s, l, .nothing st, h, rfl⟩

theorem State.stepsBy_done : s.StepsBy st k (s.goto k) := (Stmt.Next.done st).goto

theorem State.Effect.goto {l : List Stmt} (h : s.Effect st u) (hl : st.Next l) :
    s.StepsBy st k (u.goto (l ++ k)) := .inr ⟨u, l, h, hl, rfl⟩

theorem State.Effect.done (h : s.Effect st u) : s.StepsBy st k (u.goto k) := h.goto (.done st)

/-- The same for the state a callback leaves. -/
theorem State.Effect.goto_snd {α : Type} {p : α × State} {a : α} {l : List Stmt} (h : s.Effect st p.2)
    (hp : p = (a, t)) (hl : st.Next l) : s.StepsBy st k (t.goto (l ++ k)) := by
  subst hp; exact h.goto hl

/-- Selecting an endpoint, then going on. -/
theorem State.stepsBy_select (n : Nat) (hs : st.selects = some n) {l : List Stmt} (hl : st.Next l) :
    s.StepsBy st k (s.orRaise ((s.select n).map (·.goto (l ++ k)))) := by
  cases h : s.select n with
  | error f => exact State.stepsBy_raise f
  | ok t =>
    have ht := (State.select_ok h).2
    have hn := (State.select_ok h).1
    rw [ht]
    exact (Effect.select st t.epc.sel (hn ▸ hs)).goto hl

/-- Writing a RAM byte, then going on. -/
theorem State.stepsBy_store (a : Nat) (b : Byte) (bs : List Byte) {l : List Stmt}
    (hl : (Stmt.ramWrite a (b :: bs)).Next l) :
    s.StepsBy (.ramWrite a (b :: bs)) k (s.orRaise ((s.ramWriteByte a b).map (·.goto (l ++ k)))) := by
  cases h : s.ramWriteByte a b with
  | error f => exact State.stepsBy_raise f
  | ok t => exact (Effect.store a b bs t h).goto hl

theorem State.initStep_stepsBy (line : InitLine) : s.StepsBy (.init line) k (s.initStep line k) := by
  cases line with
  | readId => exact (Stmt.Next.init _ _).goto
  | mapId id => exact (Stmt.Next.init _ _).goto
  | check text =>
    simp only [State.initStep]
    split
    · exact (Stmt.Next.initTail _ _ _).goto
    · exact State.stepsBy_raise _
  | done => exact Effect.initialized.done
  | eventEnable => exact Effect.eventEnable.done
  | attach => exact Effect.attach.done

theorem State.ramWriteStep_stepsBy (a : Nat) (bs : List Byte) :
    s.StepsBy (.ramWrite a bs) k (s.ramWriteStep a bs k) := by
  match bs with
  | [] => exact State.stepsBy_done
  | [b] => exact State.stepsBy_store a b [] (.done _)
  | b :: c :: bs => exact State.stepsBy_store a b (c :: bs) (.ramWrite _ _ _ _)

theorem State.configureStep_stepsBy (line : CfgLine) (ed : EndpointDesc) :
    s.StepsBy (.configure line ed) k (s.configureStep line ed k) := by
  cases line with
  | test =>
    simp only [State.configureStep]
    split
    · exact (Stmt.Next.configure _ .select ed (by decide)).goto
    · exact State.stepsBy_done
  | select => exact State.stepsBy_select _ rfl (.configure _ .enable ed (by decide))
  | enable => exact (Effect.enable ed).goto (.configure _ .program ed (by decide))
  | program => exact (Effect.config ed).goto (.configure _ .reset ed (by decide))
  | reset => exact (Effect.fifoReset ed).goto (.configure _ .count ed (by decide))
  | count => exact (Effect.count ed).done

theorem State.serveStep_stepsBy (line : SvcLine) (v : SvcVars) :
    s.StepsBy (.serve line v) k (s.serveStep line v k) := by
  have hl : ∀ l', s.StepsBy (.serve line v) k (s.goto (.serve l' v :: k)) := fun l' =>
    (Stmt.Next.serve line l' v v).goto
  have hn : ∀ n m, s.StepsBy (.serve line v) k (s.goto (serveNext n m :: k)) := fun n m =>
    (Stmt.Next.served line v n m).goto
  cases line with
  | direction | ready | window _ | arrived | count =>
    simp only [State.serveStep]
    split <;> first | exact hl _ | exact hn _ _
  | askByte first => exact (Effect.callInByte _ v).goto (.serve _ _ v v)
  | putByte b =>
    simp only [State.serveStep]
    cases h : s.fifoWrite b with
    | error f => exact State.stepsBy_raise f
    | ok t => exact (Effect.write _ rfl b t h).goto (.serve _ _ v v)
  | commit => exact (Effect.commit _ rfl).goto (.served _ v _ _)
  | getByte n left => exact (Effect.read _ rfl).goto (.serve _ _ v v)
  | record n left b => exact (Effect.record _ rfl _).goto (.serve _ _ v v)
  | tellByte n left b => exact (Effect.callOutByte _ _ _ v).goto (.serve _ _ v v)
  | release => exact (Effect.release _ rfl).goto (.served _ v _ _)

/-- No line follows line 1 of `control_in` by way of a packet size of any value. -/
theorem ciFill_ne_entry (n : Nat) (p : List Byte) : ciFill n p ≠ .entry := by
  unfold ciFill; split <;> simp

theorem coDrain_ne_entry (n : Nat) : coDrain n ≠ .entry := by
  unfold coDrain; split <;> simp

/-- A byte of the packet leaves the state alone where an OUT has been accepted, and is else written as FIFO_WR does. -/
theorem State.sendByte_ok {b : Byte} (h : s.sendByte b = .ok t) :
    ((s.ep 0).rxout = true ∧ t = s) ∨ (s.ep 0).rxout = false ∧ s.fifoWrite b = .ok t := by
  simp only [State.sendByte] at h
  split at h
  · next hr => cases h; exact .inl ⟨hr, rfl⟩
  · next hr => exact .inr ⟨by simpa using hr, h⟩

/-- Of the state it touches the banks alone. -/
theorem State.sendByte_update {b : Byte} (h : s.sendByte b = .ok t) : ∃ es, t = { s with eps := es } := by
  rcases State.sendByte_ok h with ⟨_, rfl⟩ | ⟨_, hw⟩
  · exact ⟨_, rfl⟩
  · rcases State.fifoWrite_ok hw with ⟨_, rfl⟩ | ⟨_, _, _, _, rfl⟩ <;> exact ⟨_, rfl⟩

/-- Line 13 commits the bank's bytes; where an OUT has been accepted, it discards a control read's packet and commits the
packet of a request of direction OUT apart from the bank. -/
theorem State.sendPacket_cases (s : State) (p : List Byte) :
    ((s.ep 0).rxout = true ∧ s.ctrlDir = .toHost ∧ s.sendPacket p = s) ∨
      ((s.ep 0).rxout = true ∧ s.ctrlDir = .toDevice ∧ s.sendPacket p = s.commitApart p) ∨
      ((s.ep 0).rxout = false ∧ s.sendPacket p = s.commitIn) := by
  cases h : (s.ep 0).rxout <;> cases hd : s.ctrlDir <;> simp [State.sendPacket, h, hd]

theorem State.controlInStep_stepsBy {line : CiLine} {v : CiVars}
    (h : s.controlInStep line v k = some t) : s.StepsBy (.controlIn line v) k t := by
  have hl : ∀ l' v', l' ≠ .entry → s.StepsBy (.controlIn line v) k (s.goto (.controlIn l' v' :: k)) :=
    fun l' v' hl' => (Stmt.Next.controlIn line l' v v' hl').goto
  cases line with
  | entry | pending | decideZlp | clamp | loop | waitData | checkNak | checkZlp | waitZlp
  | waitStatus =>
    simp only [State.controlInStep] at h
    split at h <;> cases h <;>
      first | exact State.stepsBy_raise _ | exact State.stepsBy_done | exact hl _ _ (by decide)
  | readMps | zero => cases h; exact hl _ _ (by decide)
  | packetSize => cases h; exact hl _ _ (ciFill_ne_entry _ _)
  | ret => cases h; exact State.stepsBy_done
  | consume => cases h; exact (Effect.consume _ rfl).goto (.controlIn _ _ v _ (by decide))
  | commit =>
    cases h
    rename_i p
    rcases s.sendPacket_cases p with ⟨_, _, e⟩ | ⟨_, _, e⟩ | ⟨_, e⟩ <;> rw [e]
    · exact hl _ _ (by decide)
    · exact (Effect.commitApart _ rfl p).goto (.controlIn _ _ v _ (by decide))
    · exact (Effect.commit _ rfl).goto (.controlIn _ _ v _ (by decide))
  | release => cases h; exact (Effect.release _ rfl).goto (.controlIn _ _ v _ (by decide))
  | commitZlp =>
    simp only [State.controlInStep] at h
    split at h <;> cases h
    · exact hl _ _ (by decide)
    · exact (Effect.commitApart _ rfl []).goto (.controlIn _ _ v _ (by decide))
  | fill n p =>
    cases n with
    | zero => cases h; exact hl _ _ (by simp)
    | succ n =>
      simp only [State.controlInStep] at h
      split at h
      · cases h; exact State.stepsBy_raise _
      · next b _ =>
        cases h
        cases hu : s.sendByte b with
        | error f => exact State.stepsBy_raise f
        | ok u =>
          rcases State.sendByte_ok hu with ⟨_, rfl⟩ | ⟨_, hw⟩
          · exact hl _ _ (ciFill_ne_entry _ _)
          · exact (Effect.write _ rfl b u hw).goto (.controlIn _ _ v _ (ciFill_ne_entry _ _))

theorem State.controlOutStep_stepsBy {line : CoLine} {v : CoVars}
    (h : s.controlOutStep line v k = some t) : s.StepsBy (.controlOut line v) k t := by
  have hl : ∀ l' v', l' ≠ .entry →
      s.StepsBy (.controlOut line v) k (s.goto (.controlOut l' v' :: k)) :=
    fun l' v' hl' => (Stmt.Next.controlOut line l' v v' hl').goto
  cases line with
  | entry | pending | clamp | loop | waitData | checkOut =>
    simp only [State.controlOutStep] at h
    split at h <;> cases h <;>
      first | exact State.stepsBy_raise _ | exact State.stepsBy_done | exact hl _ _ (by decide)
  | waitReady | waitDone =>
    simp only [State.controlOutStep] at h
    split at h <;> cases h
    exact hl _ _ (by decide)
  | zero => cases h; exact hl _ _ (by decide)
  | packetSize => cases h; exact hl _ _ (coDrain_ne_entry _)
  | ret => cases h; exact State.stepsBy_done
  | consume => cases h; exact (Effect.consume _ rfl).goto (.controlOut _ _ v _ (by decide))
  | release => cases h; exact (Effect.release _ rfl).goto (.controlOut _ _ v _ (by decide))
  | commit => cases h; exact (Effect.commitApart _ rfl []).goto (.controlOut _ _ v _ (by decide))
  | drain n =>
    cases n with
    | zero => cases h; exact hl _ _ (by decide)
    | succ n => cases h; exact (Effect.receive _ v _).goto (.controlOut _ _ v _ (coDrain_ne_entry _))

/-- A micro-step of any statement records a fault, or makes one change and goes on. -/
theorem State.stmtStep_stepsBy (h : s.stmtStep st k = some t) : s.StepsBy st k t := by
  cases st with
  | init line => cases h; exact State.initStep_stepsBy line
  | sel n => cases h; exact State.stepsBy_select n rfl (.done _)
  | ramWrite a bs => cases h; exact State.ramWriteStep_stepsBy a bs
  | taskSetup =>
    cases h
    simp only [State.taskSetupStep]
    split
    · exact Stmt.Next.dispatch.goto
    · exact Stmt.Next.noSetup.goto
  | taskBound => cases h; exact (Stmt.Next.bound _ _).goto
  | serveSelect n bound =>
    cases h
    simp only [State.serveSelectStep]
    cases hn : s.select n with
    | error f => exact State.stepsBy_raise f
    | ok t =>
      have ht := (State.select_ok hn).2
      have hv := (State.select_ok hn).1
      simp only
      rw [ht]
      exact (Effect.select (.serveSelect n bound) t.epc.sel (congrArg some hv.symm)).goto (.selected _ _ _ _)
  | serve line v => cases h; exact State.serveStep_stepsBy line v
  | taskReturn => cases h; exact State.stepsBy_done
  | dispatchRead got =>
    cases h
    simp only [State.dispatchReadStep]
    split
    · exact (Effect.read _ rfl).goto (.read _ _)
    · exact (Effect.read _ rfl).goto (.readAll _ _)
  | dispatchAssemble got => cases h; exact (Effect.request got).goto (.assembled got)
  | classify => cases h
  | check c => cases h; exact (Stmt.Next.check c s).goto
  | stallTest =>
    cases h
    simp only [State.stallTestStep]
    split
    · exact Stmt.Next.stall.goto
    · exact State.stepsBy_done
  | stallRequest => cases h; exact Effect.stall.done
  | stallConsume => cases h; exact (Effect.consume _ rfl).done
  | dispatchReturn => cases h; exact State.stepsBy_done
  | readHalt n => cases h; exact (Stmt.Next.status n _ _).goto
  | addrSet a => cases h; exact (Effect.addrSet a).done
  | addrEnable => cases h; exact Effect.addrEnable.done
  | setDevState d => cases h; exact (Effect.devState d).done
  | setActiveConfig v => cases h; exact (Effect.activeConfig v).done
  | recordConfigure => cases h; exact (Effect.record _ rfl _).done
  | askConfigure => cases h; exact Effect.callConfigure.goto (.configured _)
  | configure line ed => cases h; exact State.configureStep_stepsBy line ed
  | askDevice =>
    cases h
    simp only [State.askDeviceStep]
    split
    · next hc => exact Effect.callDevice.goto_snd hc (.done _)
    · next hc => exact Effect.callDevice.goto_snd hc (.device _)
  | askConfiguration =>
    cases h
    simp only [State.askConfigurationStep]
    split
    · next hc => exact Effect.callConfiguration.goto_snd hc (.done _)
    · next hc => exact Effect.callConfiguration.goto_snd hc (.configuration _)
  | askString v x =>
    cases h
    simp only [State.askStringStep]
    split
    · next hc => exact (Effect.callString _ _).goto_snd hc (.string _ _ _)
    · next hc => exact (Effect.callString _ _).goto_snd hc (.builtIn _ _ _)
  | readLength base =>
    cases h; simp only [State.readLengthStep]; split
    · exact State.stepsBy_raise _
    · exact (Stmt.Next.length _ _ _).goto
  | readTotalLow base =>
    cases h; simp only [State.readTotalLowStep]; split
    · exact State.stepsBy_raise _
    · exact (Stmt.Next.totalLow _ _).goto
  | readTotalHigh base low =>
    cases h; simp only [State.readTotalHighStep]; split
    · exact State.stepsBy_raise _
    · exact (Stmt.Next.total _ _ _ _).goto
  | recordVendor =>
    cases h; simp only [State.recordVendorStep]; split
    · exact State.stepsBy_raise _
    · exact (Effect.record _ rfl _).done
  | askVendor =>
    cases h
    simp only [State.askVendorStep]
    split
    · exact State.stepsBy_raise _
    · next r _ =>
      cases ha : vendorProgram (s.callVendorRequest r).1 with
      | none => exact State.stepsBy_raise _
      | some p => exact (Effect.callVendor r).goto (.vendor _ p ha)
  | controlIn line v => exact State.controlInStep_stepsBy h
  | controlOut line v => exact State.controlOutStep_stepsBy h

end StepsBy

/-! ## One micro-step -/

/-- The engine has its move only while no fault is recorded and the reset agent is not enabled. -/
theorem State.micro_enabled {s t : State} (h : s.micro = some t) : s.engineEnabled = true := by
  simp only [State.micro] at h
  split at h
  · assumption
  · cases h

theorem State.engineEnabled_iff (s : State) :
    s.engineEnabled = true ↔ s.faults = [] ∧ s.epc.resetEnabled = false := by
  simp [State.engineEnabled]

/-- The engine stays enabled where the faults and the reset event are as before. -/
theorem State.engineEnabled_congr {s t : State} (hf : t.faults = s.faults)
    (he : t.epc.eorst = s.epc.eorst) (hn : t.epc.eorstEn = s.epc.eorstEn) :
    t.engineEnabled = s.engineEnabled := by
  simp [State.engineEnabled, Epc.resetEnabled, hf, he, hn]

theorem State.micro_busy {s : State} {st : Stmt} {k : List Stmt} (he : s.engineEnabled = true)
    (hk : s.engine = .busy (st :: k)) : s.micro = s.stmtStep st k := by
  simp [State.micro, he, hk]

/-- A micro-step starts `init`, starts a task, ends one, or runs the statement at the engine's position. -/
theorem State.micro_cases {s t : State} (h : s.micro = some t) :
    (s.engine = .preInit ∧ t = s.initEntry) ∨ (s.engine = .idle ∧ t = s.goto taskProgram) ∨
      (s.engine = .busy [] ∧ t = { s with engine := .idle }) ∨
      ∃ st k, s.engine = .busy (st :: k) ∧ s.stmtStep st k = some t := by
  simp only [State.micro] at h
  split at h
  · split at h
    · next he => cases h; exact .inl ⟨he, rfl⟩
    · next he => cases h; exact .inr (.inl ⟨he, rfl⟩)
    · next he => cases h; exact .inr (.inr (.inl ⟨he, rfl⟩))
    · next st k he => exact .inr (.inr (.inr ⟨st, k, he, h⟩))
  · cases h

/-- Every micro-step records a fault, or makes one change and moves the engine. -/
theorem State.micro_stepsBy {s t : State} (h : s.micro = some t) :
    (∃ f, t = s.raise f) ∨ ∃ st u e, s.Effect st u ∧ t = { u with engine := e } := by
  rcases State.micro_cases h with ⟨_, rfl⟩ | ⟨_, rfl⟩ | ⟨_, rfl⟩ | ⟨st, k, _, hs⟩
  · refine .inr ⟨.taskReturn, s, s.initEntry.engine, .nothing _, ?_⟩
    simp only [State.initEntry]
    split <;> rfl
  · exact .inr ⟨.taskReturn, s, _, .nothing _, rfl⟩
  · exact .inr ⟨.taskReturn, s, _, .nothing _, rfl⟩
  · rcases State.stmtStep_stepsBy hs with hf | ⟨u, k', hu, _, rfl⟩
    · exact .inl hf
    · exact .inr ⟨st, u, _, hu, rfl⟩

/-! ## A run of micro-steps -/

@[simp] theorem State.runEngine_zero (s : State) : State.runEngine 0 s = s := rfl

theorem State.runEngine_boundary {s : State} (n : Nat) (h : s.engine.boundary = true) :
    State.runEngine n s = s := by
  cases n <;> simp [State.runEngine, h]

theorem State.runEngine_held {s : State} (n : Nat) (h : s.micro = none) : State.runEngine n s = s := by
  cases n <;> simp [State.runEngine, h]

theorem State.runEngine_micro {s t : State} (n : Nat) (hb : s.engine.boundary = false)
    (h : s.micro = some t) : State.runEngine (n + 1) s = State.runEngine n t := by
  simp [State.runEngine, hb, h]

/-- One statement of a run: the engine is enabled, the statement is no boundary, and its step is known. -/
theorem State.runEngine_stmt {s t : State} {st : Stmt} {k : List Stmt} (n : Nat)
    (he : s.engineEnabled = true) (hk : s.engine = .busy (st :: k))
    (hb : (Engine.busy (st :: k)).boundary = false) (h : s.stmtStep st k = some t) :
    State.runEngine (n + 1) s = State.runEngine n t :=
  State.runEngine_micro n (hk ▸ hb) ((State.micro_busy he hk).trans h)

/-- A run of `m + n` micro-steps is a run of `m` and then of `n`. -/
theorem State.runEngine_add (m n : Nat) (s : State) :
    State.runEngine (m + n) s = State.runEngine n (State.runEngine m s) := by
  induction m generalizing s with
  | zero => simp
  | succ m ih =>
    rw [show m + 1 + n = m + n + 1 by omega]
    simp only [State.runEngine]
    split
    · next h => exact (State.runEngine_boundary n h).symm
    · split
      · next h => exact (State.runEngine_held n h).symm
      · exact ih _

/-- What every micro-step keeps, a run keeps. -/
theorem State.runEngine_induct {P : State → Prop} (hm : ∀ s t, P s → s.micro = some t → P t) (n : Nat)
    {s : State} (h : P s) : P (State.runEngine n s) := by
  induction n generalizing s with
  | zero => exact h
  | succ n ih =>
    simp only [State.runEngine]
    split
    · exact h
    · split
      · exact h
      · next t ht => exact ih (hm s t h ht)

end Sys2Proof.Machine
end

