-- ==== Sys2Proof/Laws/Step.lean ====
section
/-! SUPPORT. One step: which handler an instruction runs, what a step can be, and the packaged induction by which a
property that every agent keeps is kept by every step. -/

namespace Sys2Proof.Machine

/-! ## The handler of an instruction -/

/-- The statements an instruction's handler starts with, before the stall path: a test of its own, or nothing. -/
def handlerOf : Instr → List Stmt
  | .getStatus d r _ x _ => [.check (.statusDirection d r x)]
  | .setAddress d r v _ _ => [.check (.address d r v)]
  | .getDescriptorDevice d r _ _ _ => [.check (.descriptor d r .device)]
  | .getDescriptorConfiguration d r _ _ _ => [.check (.descriptor d r .configuration)]
  | .getDescriptorString d r n x _ => [.check (.descriptor d r (.string (half n 3) x))]
  | .getDescriptorOther d r _ _ _ _ => [.check (.descriptor d r .other)]
  | .setConfiguration d r v _ _ => [.check (.configuration d r v)]
  | .vendorRequest _ _ _ _ _ _ => [.check .vendor]
  | .clearFeature _ _ _ _ _ | .stdReserved02 _ _ _ _ _ | .setFeature _ _ _ _ _
  | .stdReserved04 _ _ _ _ _ | .setDescriptor _ _ _ _ _ | .getConfiguration _ _ _ _ _
  | .getInterface _ _ _ _ _ | .setInterface _ _ _ _ _ | .synchFrame _ _ _ _ _
  | .stdUndefined _ _ _ _ _ _ | .classRequest _ _ _ _ _ _ | .reservedType _ _ _ _ _ _ => []

/-- Every meaning enters its handler and then runs at most `burst` micro-steps. -/
theorem exec_eq_execute (i : Instr) (s : State) : exec i s = s.execute (handlerOf i) := by
  cases i <;> rfl

/-- No meaning faults or refuses: it answers the state its run leaves. -/
theorem exec_next (i : Instr) (s : State) :
    exec i s = .next (State.runEngine s.burst (s.enter (handlerOf i))) := exec_eq_execute i s

@[simp] theorem State.enter_engine (s : State) (p : List Stmt) :
    (s.enter p).engine = Engine.ofCont (p ++ (stallPath ++ s.engine.afterClassify)) := rfl

/-- At a classification the handler and the stall path come before the rest of the task. -/
theorem State.enter_eq {s : State} {k : List Stmt} (p : List Stmt) (h : s.engine = .busy (.classify :: k)) :
    s.enter p = s.goto (p ++ (stallPath ++ k)) := by
  simp [State.enter, h, Engine.afterClassify]

/-! ## What a step can be -/

/-- A step at which a fault is recorded answers it. -/
theorem step_fault {s : State} {f : Fault} {fs : List Fault} (h : s.faults = f :: fs) :
    step s = .fault f := by
  simp [step, State.route, h]

/-- With no fault recorded a step takes the schedule's next choice. -/
theorem State.route_take {s : State} (h : s.faults = []) : s.route = s.nextMove.2.take s.nextMove.1 := by
  simp [State.route, h]

/-- A step whose choice is already made takes it. -/
theorem State.route_chosen {s : State} {m : Move} {ms : List Move} (h : s.faults = [])
    (hm : s.env.moves = m :: ms) : s.route = State.take { s with env := { s.env with moves := ms } } m := by
  rw [State.route_take h]
  simp [State.nextMove, hm]

/-- Everything a step that answers a next state can be, `m` being the choice taken and `u` the state without it: no move,
one of the engine, of the reset agent, of the application or of the host. -/
theorem step_cases {s t : State} (h : step s = .next t) :
    s.faults = [] ∧ ∃ m u, s.nextMove = (m, u) ∧
      (t = u ∨
        (∃ n, m = .engine n ∧ u.engineEnabled = true ∧ u.engine.atClassify = true ∧
          u.core.req = none ∧ t = u.raise .unwritten) ∨
        (∃ n r, m = .engine n ∧ u.engineEnabled = true ∧ u.engine.atClassify = true ∧
          u.core.req = some r ∧
          t = State.runEngine n
            (State.enter { u with burst := n } (handlerOf (decodeRequest r)))) ∨
        (∃ n v, m = .engine n ∧ u.engine.atClassify = false ∧ u.micro = some v ∧
          t = State.runEngine n v) ∨
        (m = .resetAgent ∧ u.epc.resetEnabled = true ∧ t = u.resetHandler) ∨
        (m = .callInit ∧ u.engineEnabled = true ∧ u.engine = .idle ∧ t = u.initEntry) ∨
        ∃ tx, m = .host tx ∧ u.hostStep tx = some t) := by
  cases hf : s.faults with
  | cons f fs => rw [step_fault hf] at h; cases h
  | nil =>
    refine ⟨rfl, s.nextMove.1, s.nextMove.2, rfl, ?_⟩
    simp only [step, State.route_take hf] at h
    generalize s.nextMove.2 = u at h ⊢
    generalize s.nextMove.1 = m at h ⊢
    cases m with
    | engine n =>
      simp only [State.take, State.engineMove] at h
      by_cases he : u.engineEnabled = true
      · by_cases ha : u.engine.atClassify = true
        · rw [if_pos he, if_pos ha] at h
          cases hr : u.core.req with
          | none =>
            simp only [State.fetched, hr, Option.map_none] at h
            cases h
            exact .inr (.inl ⟨n, rfl, he, ha, rfl, rfl⟩)
          | some r =>
            simp only [State.fetched, hr, Option.map_some, exec_next] at h
            cases h
            exact .inr (.inr (.inl ⟨n, r, rfl, he, ha, rfl, rfl⟩))
        · rw [if_pos he, if_neg ha] at h
          cases h
          simp only [State.advance]
          cases hu : u.micro with
          | none => exact .inl rfl
          | some v => exact .inr (.inr (.inr (.inl ⟨n, v, rfl, by simpa using ha, rfl, rfl⟩)))
      · rw [if_neg he] at h
        cases h
        exact .inl rfl
    | resetAgent =>
      simp only [State.take] at h
      cases h
      by_cases hr : u.epc.resetEnabled = true
      · rw [if_pos hr]
        exact .inr (.inr (.inr (.inr (.inl ⟨rfl, hr, rfl⟩))))
      · rw [if_neg hr]
        exact .inl rfl
    | callInit =>
      simp only [State.take, State.initAgain] at h
      cases h
      split
      · next hi =>
        simp only [Bool.and_eq_true, beq_iff_eq] at hi
        exact .inr (.inr (.inr (.inr (.inr (.inl ⟨rfl, hi.1, hi.2, rfl⟩)))))
      · exact .inl rfl
    | host tx =>
      simp only [State.take] at h
      cases h
      cases hx : u.hostStep tx with
      | none => exact .inl rfl
      | some v => exact .inr (.inr (.inr (.inr (.inr (.inr ⟨tx, rfl, hx⟩)))))

/-! ## Induction over a step -/

/-- A property that every move of every agent keeps is kept by every step: the taking of a choice, the burst, the record of
a fault, a micro-step, the entry of a handler, the reset handler, a second `init` and a host transaction. -/
theorem step_induct {P : State → Prop} (hmove : ∀ s, P s → P s.nextMove.2)
    (hburst : ∀ s n, P s → P { s with burst := n }) (hraise : ∀ s f, P s → P (s.raise f))
    (hmicro : ∀ s t, P s → s.micro = some t → P t)
    (henter : ∀ s i, P s → s.engineEnabled = true → s.engine.atClassify = true →
      s.core.req.map decodeRequest = some i → P (s.enter (handlerOf i)))
    (hreset : ∀ s, P s → s.epc.resetEnabled = true → P s.resetHandler)
    (hinit : ∀ s, P s → s.engine = .idle → P s.initEntry)
    (hhost : ∀ s tx t, P s → s.hostStep tx = some t → P t) {s t : State} (h : P s)
    (hstep : step s = .next t) : P t := by
  obtain ⟨_, m, u, hm, hc⟩ := step_cases hstep
  have hu : P u := by have := hmove s h; rwa [hm] at this
  rcases hc with rfl | ⟨n, _, _, _, _, rfl⟩ | ⟨n, r, _, he, ha, hr, rfl⟩ | ⟨n, v, _, _, hv, rfl⟩ |
    ⟨_, he, rfl⟩ | ⟨_, _, hi, rfl⟩ | ⟨tx, _, hx⟩
  · exact hu
  · exact hraise _ _ hu
  · exact State.runEngine_induct hmicro n
      (henter _ _ (hburst _ n hu) he ha (by simp [hr]))
  · exact State.runEngine_induct hmicro n (hmicro _ _ hu hv)
  · exact hreset _ hu he
  · exact hinit _ hu hi
  · exact hhost _ tx _ hu hx

/-- The same for a property of the data alone, which the engine's position, the environment's choices, the burst and
the faults do not touch: it is enough that every change a micro-step can make keeps it, and the reset
handler and the host. -/
theorem step_induct_data {P : State → Prop}
    (hcongr : ∀ (s : State) (e : Engine) (fs : List Fault) (v : Env) (n : Nat), P s →
      P { s with engine := e, faults := fs, env := v, burst := n })
    (heffect : ∀ s st t, P s → s.Effect st t → P t)
    (hreset : ∀ s, P s → s.epc.resetEnabled = true → P s.resetHandler)
    (hhost : ∀ s tx t, P s → s.hostStep tx = some t → P t) {s t : State} (h : P s)
    (hstep : step s = .next t) : P t := by
  have hinit : ∀ s, P s → P s.initEntry := fun s hs => by
    simp only [State.initEntry]
    split
    · exact hcongr s _ s.faults s.env s.burst hs
    · exact hcongr s _ s.faults s.env s.burst hs
  refine step_induct ?_ ?_ ?_ ?_ ?_ hreset (fun s hs _ => hinit s hs) hhost h hstep
  · intro s hs
    simp only [State.nextMove]
    split
    · exact hcongr s s.engine s.faults _ s.burst hs
    · exact hcongr s s.engine s.faults _ s.burst hs
  · exact fun s n hs => hcongr s s.engine s.faults s.env n hs
  · exact fun s f hs => hcongr s s.engine _ s.env s.burst hs
  · intro s t hs hm
    rcases State.micro_stepsBy hm with ⟨f, rfl⟩ | ⟨st, u, e, hu, rfl⟩
    · exact hcongr s s.engine _ s.env s.burst hs
    · exact hcongr u e u.faults u.env u.burst (heffect s st u hs hu)
  · exact fun s i hs _ _ _ => hcongr s _ s.faults s.env s.burst hs

end Sys2Proof.Machine
end

