-- ==== Sys2Proof/Laws/Banks.lean ====
section
/-! SUPPORT. What the agents can do to one endpoint, said once for the engine and once for the host, and the induction by
which a property of single endpoints is kept by every step. -/

namespace Sys2Proof.Machine

/-! ## The engine -/

/-- What a micro-step can do to the selected endpoint. -/
inductive Ep.Effect (e : Ep) : Ep → Prop where
  | enable : Effect e { e with en := true }
  | config (type : BitVec 2) (dir : Dir) (size : BitVec 2) :
      Effect e { e with type := type, dir := dir, size := size }
  | fifoReset : Effect e e.fifoReset
  | write (b : Byte) (hen : e.en = true) (hs : e.rxstp = false)
      (hl : e.fifo.length < bankBytes e.size) (hq : e.inq = none) :
      Effect e { e with fifo := e.fifo ++ [b] }
  | read (b : Byte) (bs : List Byte) (hen : e.en = true) (hf : e.fifo = b :: bs) :
      Effect e { e with fifo := bs }
  | commit (hen : e.en = true) (ht : e.txin = true) :
      Effect e { e with inq := some e.fifo, fifo := [], txin := false }
  | commitApart (p : List Byte) (hen : e.en = true) (ht : e.txin = true) :
      Effect e { e with inq := some p, txin := false }
  | release (hen : e.en = true) (hr : e.rxout = true) : Effect e { e with fifo := [], rxout := false }
  | consume (hen : e.en = true) (hs : e.rxstp = true) :
      Effect e { e with fifo := [], rxstp := false, txin := true }
  | stall (hen : e.en = true) : Effect e { e with stallReq := true }

/-- A change by a micro-step touches no endpoint but the selected one. -/
theorem State.Effect.eps {s t : State} {st : Stmt} (h : s.Effect st t) :
    t.eps = s.eps ∨ ∃ e, s.selected.Effect e ∧ t.eps = s.eps.set s.epc.sel e := by
  have hread : s.fifoRead.2.eps = s.eps ∨
      ∃ e, s.selected.Effect e ∧ s.fifoRead.2.eps = s.eps.set s.epc.sel e := by
    rcases s.fifoRead_cases with ⟨b, bs, h1, h2, h3⟩ | ⟨_, h3⟩
    · exact .inr ⟨_, .read b bs h1 h2, by rw [h3]; rfl⟩
    · exact .inl (by rw [h3]; simp)
  cases h with
  | enable => exact .inr ⟨_, .enable, rfl⟩
  | config ed => exact .inr ⟨_, .config _ _ _, rfl⟩
  | fifoReset => exact .inr ⟨_, .fifoReset, rfl⟩
  | write st _ b t h =>
    rcases State.fifoWrite_ok h with ⟨_, rfl⟩ | ⟨h1, h2, h3, h4, rfl⟩
    · exact .inl rfl
    · exact .inr ⟨_, .write b h1 h2 h3 h4, rfl⟩
  | read => exact hread
  | receive n v first => simpa [State.receiveByte] using hread
  | commit =>
    rcases s.commitIn_cases with ⟨h1, h2, e⟩ | ⟨_, e⟩ <;> rw [e]
    · exact .inr ⟨_, .commit h1 h2, rfl⟩
    · exact .inl rfl
  | commitApart st _ p =>
    rcases s.commitApart_cases p with ⟨h1, h2, e⟩ | ⟨_, e⟩ <;> rw [e]
    · exact .inr ⟨_, .commitApart p h1 h2, rfl⟩
    · exact .inl rfl
  | release =>
    rcases s.releaseOut_cases with ⟨h1, h2, e⟩ | ⟨_, e⟩ <;> rw [e]
    · exact .inr ⟨_, .release h1 h2, rfl⟩
    · exact .inl rfl
  | consume =>
    rcases s.consumeSetup_cases with ⟨h1, h2, e⟩ | ⟨_, e⟩ <;> rw [e]
    · exact .inr ⟨_, .consume h1 h2, rfl⟩
    · exact .inl rfl
  | stall =>
    rcases s.stallRequest_cases with ⟨h1, e⟩ | ⟨_, e⟩ <;> rw [e]
    · exact .inr ⟨_, .stall h1, rfl⟩
    · exact .inl rfl
  | store a b bs t h => obtain ⟨_, rfl⟩ := State.ramWriteByte_ok h; exact .inl rfl
  | _ => exact .inl (by simp)

/-! ## The host -/

/-- What a host transaction can do to the endpoint it reaches. -/
inductive Ep.HostEffect (n : EpNum) (e : Ep) : Ep → Prop where
  | setup (bytes : List Byte) (hn : n = 0) (hen : e.en = true) (hs : e.rxstp = false)
      (hl : bytes.length = 8) : HostEffect n e (e.withSetup bytes)
  | taken (p : List Byte) (hen : e.en = true) (hq : e.inq = some p) :
      HostEffect n e { e with inq := none, txin := true }
  | nakIn (hen : e.en = true) : HostEffect n e { e with nakin := true }
  | nakOut (hen : e.en = true) : HostEffect n e { e with nakout := true }
  | status (hn : n = 0) (hen : e.en = true) (hs : e.rxstp = false) (hr : e.rxout = false) :
      HostEffect n e { e with fifo := [], rxout := true, inq := none, txin := true }
  | data (p : List Byte) (hen : e.en = true) (hs : n = 0 → e.rxstp = false) (hr : e.rxout = false)
      (hl : p.length ≤ bankBytes e.size) : HostEffect n e { e with fifo := p, rxout := true }

/-- A host transaction other than a bus reset touches at most one endpoint. -/
theorem State.HostEffect.eps {s t : State} (h : s.HostEffect t) :
    t.eps = s.eps ∨ ∃ n e, (s.ep n).HostEffect n e ∧ t.eps = s.eps.set n e := by
  cases h with
  | nothing => exact .inl rfl
  | setup u bytes d n hu hs hen hl =>
    have he : u.eps = s.eps := by subst hu; simp
    refine .inr ⟨0, _, .setup bytes rfl hen hs hl, ?_⟩
    simp [he, State.ep]
  | taken n p hq hen => exact .inr ⟨n, _, .taken p hen hq, rfl⟩
  | nakIn n hen => exact .inr ⟨n, _, .nakIn hen, rfl⟩
  | nakOut n hen => exact .inr ⟨n, _, .nakOut hen, rfl⟩
  | status hs hr hen => exact .inr ⟨0, _, .status rfl hen hs hr, rfl⟩
  | data n p hs hr hen hl => exact .inr ⟨n, _, .data p hen (fun hn => hn ▸ hs hn) hr hl, rfl⟩

theorem State.busReset_ep (s : State) (n : EpNum) : s.busReset.ep n = Ep.blank := Eps.get_blank n

/-! ## Induction over a step, endpoint by endpoint -/

/-- A property of single endpoints that the engine's and the host's changes keep, and that a blank endpoint and a restarted
endpoint 0 have, is kept by every step. -/
theorem step_induct_ep {P : EpNum → Ep → Prop} (hengine : ∀ n e e', P n e → e.Effect e' → P n e')
    (hhost : ∀ n e e', P n e → e.HostEffect n e' → P n e') (hblank : ∀ n, P n Ep.blank)
    (hrestart : ∀ mps, ep0SizeLegal mps = true → P 0 (Ep.restarted mps)) {s t : State}
    (h : ∀ n, P n (s.ep n)) (hstep : step s = .next t) : ∀ n, P n (t.ep n) := by
  refine step_induct_data (P := fun u => ∀ n, P n (u.ep n)) ?_ ?_ ?_ ?_ h hstep
  · exact fun _ _ _ _ _ h => h
  · intro a st b h he n
    rcases he.eps with e | ⟨e, hx, hb⟩
    · rw [State.ep_congr e]; exact h n
    · rw [State.ep_eq, hb, Eps.get_set]
      split
      · next hn => subst hn; exact hengine _ _ _ (h _) hx
      · exact h n
  · intro a h _ n
    rcases a.resetHandler_cases with ⟨f, e⟩ | ⟨_, e⟩ | ⟨d, m, _, _, hm, e⟩ <;> rw [e]
    · exact h n
    · rw [State.ep_congr (s := a) (by simp)]; exact h n
    · rw [State.restart_eq, State.ep_eq]
      simp only [State.abandon_eps, Eps.get_set, State.callDeviceDescriptor_eps, State.eventAck_eps]
      split
      · next hn => subst hn; exact hrestart m hm
      · exact h n
  · intro a tx b h hh n
    rcases (State.hostStep_cases hh).2 with ⟨_, rfl⟩ | ⟨u, r, hu, rfl⟩
    · rw [State.busReset_ep]; exact hblank n
    · show P n (u.ep n)
      rcases hu.eps with e | ⟨m, e, hx, hb⟩
      · rw [State.ep_congr e]; exact h n
      · rw [State.ep_eq, hb, Eps.get_set]
        split
        · next hn => subst hn; exact hhost _ _ _ (h _) hx
        · exact h n

end Sys2Proof.Machine
end

