-- ==== Sys2Proof/Laws/PerInstr.lean ====
section
/-! SUPPORT. One law per instruction, about its encoding: the recipient an instruction carries is the one its packet's
first byte gives (30 R92, R95). -/

namespace Sys2Proof.Laws

/-- The recipient field of a request-type byte is the recipient it was made from. -/
theorem recipOf_requestTypeByte (dir : Dir) (type : BitVec 2) (recip : Recipient) (h : recip.wf = true) :
    recipOf (requestTypeByte dir type recip) = recip := by
  have hcode : (requestTypeByte dir type recip).extractLsb' 0 5 = recip.code := by
    refine BitVec.eq_of_getLsbD_eq fun i hi => ?_
    have := BitVec.getLsbD_append (x := dir.bit ++ type) (y := recip.code) (i := i)
    rw [if_pos hi] at this
    rw [BitVec.getLsbD_extractLsb', Nat.zero_add, decide_eq_true hi, Bool.true_and]
    exact this
  simp only [recipOf, hcode]
  cases recip with
  | reserved c =>
    simp only [Recipient.wf, decide_eq_true_eq] at h
    have hc : (Recipient.reserved c).code.toNat = c.toNat := rfl
    rw [hc]
    match hn : c.toNat, h with
    | n + 4, _ => rfl
  | _ => rfl

namespace Recip

/-- The law: the packet's recipient is the instruction's. -/
def Statement (i : Instr) : Prop := i.recip.wf = true → recipOf i.request.bmRequestType = i.recip

theorem getStatus (d : Dir) (r : Recipient) (v x l : Half) : Statement (.getStatus d r v x l) :=
  recipOf_requestTypeByte d _ r

theorem clearFeature (d : Dir) (r : Recipient) (v x l : Half) : Statement (.clearFeature d r v x l) :=
  recipOf_requestTypeByte d _ r

theorem stdReserved02 (d : Dir) (r : Recipient) (v x l : Half) : Statement (.stdReserved02 d r v x l) :=
  recipOf_requestTypeByte d _ r

theorem setFeature (d : Dir) (r : Recipient) (v x l : Half) : Statement (.setFeature d r v x l) :=
  recipOf_requestTypeByte d _ r

theorem stdReserved04 (d : Dir) (r : Recipient) (v x l : Half) : Statement (.stdReserved04 d r v x l) :=
  recipOf_requestTypeByte d _ r

theorem setAddress (d : Dir) (r : Recipient) (v x l : Half) : Statement (.setAddress d r v x l) :=
  recipOf_requestTypeByte d _ r

theorem getDescriptorDevice (d : Dir) (r : Recipient) (n : Byte) (x l : Half) : Statement (.getDescriptorDevice d r n x l) :=
  recipOf_requestTypeByte d _ r

theorem getDescriptorConfiguration (d : Dir) (r : Recipient) (n : Byte) (x l : Half) : Statement (.getDescriptorConfiguration d r n x l) :=
  recipOf_requestTypeByte d _ r

theorem getDescriptorString (d : Dir) (r : Recipient) (n : Byte) (x l : Half) : Statement (.getDescriptorString d r n x l) :=
  recipOf_requestTypeByte d _ r

theorem getDescriptorOther (d : Dir) (r : Recipient) (t n : Byte) (x l : Half) : Statement (.getDescriptorOther d r t n x l) :=
  recipOf_requestTypeByte d _ r

theorem setDescriptor (d : Dir) (r : Recipient) (v x l : Half) : Statement (.setDescriptor d r v x l) :=
  recipOf_requestTypeByte d _ r

theorem getConfiguration (d : Dir) (r : Recipient) (v x l : Half) : Statement (.getConfiguration d r v x l) :=
  recipOf_requestTypeByte d _ r

theorem setConfiguration (d : Dir) (r : Recipient) (v x l : Half) : Statement (.setConfiguration d r v x l) :=
  recipOf_requestTypeByte d _ r

theorem getInterface (d : Dir) (r : Recipient) (v x l : Half) : Statement (.getInterface d r v x l) :=
  recipOf_requestTypeByte d _ r

theorem setInterface (d : Dir) (r : Recipient) (v x l : Half) : Statement (.setInterface d r v x l) :=
  recipOf_requestTypeByte d _ r

theorem synchFrame (d : Dir) (r : Recipient) (v x l : Half) : Statement (.synchFrame d r v x l) :=
  recipOf_requestTypeByte d _ r

theorem stdUndefined (d : Dir) (r : Recipient) (q : Byte) (v x l : Half) : Statement (.stdUndefined d r q v x l) :=
  recipOf_requestTypeByte d _ r

theorem classRequest (d : Dir) (r : Recipient) (q : Byte) (v x l : Half) : Statement (.classRequest d r q v x l) :=
  recipOf_requestTypeByte d _ r

theorem vendorRequest (d : Dir) (r : Recipient) (q : Byte) (v x l : Half) : Statement (.vendorRequest d r q v x l) :=
  recipOf_requestTypeByte d _ r

theorem reservedType (d : Dir) (r : Recipient) (q : Byte) (v x l : Half) : Statement (.reservedType d r q v x l) :=
  recipOf_requestTypeByte d _ r

end Recip

end Sys2Proof.Laws
end

