-- ==== Sys2Proof/Laws/Writers.lean ====
section
/-! SUPPORT. Which statements of the engine's program write which field: one fact per field, read off what a micro-step can
do. -/

namespace Sys2Proof.Machine

section Writers

variable {s t : State} {st : Stmt}

/-- No micro-step writes ROM, a parameter, the faults or the burst. -/
theorem State.Effect.fixed (h : s.Effect st t) :
    t.rom = s.rom ∧ t.par = s.par ∧ t.faults = s.faults ∧ t.burst = s.burst := by
  cases h with
  | write st _ b t h => rcases State.fifoWrite_ok h with ⟨_, rfl⟩ | ⟨_, _, _, _, rfl⟩ <;> simp
  | store a b bs t h => obtain ⟨_, rfl⟩ := State.ramWriteByte_ok h; simp
  | receive n v first => simp [State.receiveByte]
  | _ => simp

/-- The core's registers: what each of their writers leaves. -/
theorem State.Effect.core (h : s.Effect st t) :
    t.core = s.core ∨
      (∃ ed, st = .configure .count ed ∧
        t.core = { s.core with configuredMax := s.core.configuredMax + 1 }) ∨
      (st = .init .done ∧ t.core = { s.core with initialized := true }) ∨
      (∃ g, st = .dispatchAssemble g ∧ t.core = { s.core with req := requestOf g }) ∨
      (∃ d, st = .setDevState d ∧ t.core = { s.core with devState := d }) ∨
      ∃ v, st = .setActiveConfig v ∧ t.core = { s.core with activeConfig := v } := by
  cases h with
  | write st _ b t h => rcases State.fifoWrite_ok h with ⟨_, rfl⟩ | ⟨_, _, _, _, rfl⟩ <;> simp
  | store a b bs t h => obtain ⟨_, rfl⟩ := State.ramWriteByte_ok h; simp
  | receive n v first => simp [State.receiveByte]
  | count ed => exact .inr (.inl ⟨ed, rfl, rfl⟩)
  | initialized => exact .inr (.inr (.inl ⟨rfl, rfl⟩))
  | request g => exact .inr (.inr (.inr (.inl ⟨g, rfl, rfl⟩)))
  | devState d => exact .inr (.inr (.inr (.inr (.inl ⟨d, rfl, rfl⟩))))
  | activeConfig v => exact .inr (.inr (.inr (.inr (.inr ⟨v, rfl, rfl⟩))))
  | _ => exact .inl (by simp)

/-- `EPC`: what each of its writers leaves. -/
theorem State.Effect.epc (h : s.Effect st t) :
    t.epc = s.epc ∨ (∃ n : EpNum, st.selects = some n.val ∧ t.epc = { s.epc with sel := n }) ∨
      (∃ a, st = .addrSet a ∧ t.epc = { s.epc with addr := a, addrEn := false }) ∨
      (st = .addrEnable ∧ t.epc = { s.epc with addrEn := true }) ∨
      (st = .init .eventEnable ∧ t.epc = { s.epc with eorstEn := true }) ∨
      (st = .init .attach ∧ t.epc = { s.epc with attached := true }) := by
  cases h with
  | write st _ b t h => rcases State.fifoWrite_ok h with ⟨_, rfl⟩ | ⟨_, _, _, _, rfl⟩ <;> simp
  | store a b bs t h => obtain ⟨_, rfl⟩ := State.ramWriteByte_ok h; simp
  | receive n v first => simp [State.receiveByte]
  | select st n hn => exact .inr (.inl ⟨n, hn, rfl⟩)
  | addrSet a => exact .inr (.inr (.inl ⟨a, rfl, rfl⟩))
  | addrEnable => exact .inr (.inr (.inr (.inl ⟨rfl, rfl⟩)))
  | eventEnable => exact .inr (.inr (.inr (.inr (.inl ⟨rfl, rfl⟩))))
  | attach => exact .inr (.inr (.inr (.inr (.inr ⟨rfl, rfl⟩))))
  | _ => exact .inl (by simp)

/-- RAM is written by a RAM write alone, a byte at a legal address. -/
theorem State.Effect.ram (h : s.Effect st t) :
    t.ram = s.ram ∨ ∃ a b bs, st = .ramWrite a (b :: bs) ∧ a < s.par.ramSize ∧
      t.ram = Memory.set a b s.ram := by
  cases h with
  | write st _ b t h => rcases State.fifoWrite_ok h with ⟨_, rfl⟩ | ⟨_, _, _, _, rfl⟩ <;> simp
  | store a b bs t h =>
    obtain ⟨ha, rfl⟩ := State.ramWriteByte_ok h
    exact .inr ⟨a, b, bs, rfl, ha, rfl⟩
  | receive n v first => simp [State.receiveByte]
  | _ => exact .inl (by simp)

/-- The trace only grows. -/
theorem State.Effect.trace (h : s.Effect st t) : ∃ es, t.trace = s.trace ++ es := by
  cases h with
  | write st _ b t h =>
    rcases State.fifoWrite_ok h with ⟨_, rfl⟩ | ⟨_, _, _, _, rfl⟩ <;> exact ⟨[], by simp⟩
  | store a b bs t h => obtain ⟨_, rfl⟩ := State.ramWriteByte_ok h; exact ⟨[], by simp⟩
  | receive n v first => exact ⟨[.outByte 0 s.fifoRead.1 first], by simp [State.receiveByte]⟩
  | record st _ e => exact ⟨[e], rfl⟩
  | _ => exact ⟨[], by simp⟩

end Writers

end Sys2Proof.Machine
end

