-- ==== Sys2Proof/Laws/Safety.lean ====
section
/-! SUPPORT. Small facts of the definitions of Sys2Proof/Safety.lean, and the induction by which a property of what the
engine is still to run is kept by every step. -/

namespace Sys2Proof.Machine

/-! ## The parameters

With parameters as 00 R10 constrains them, the premises the statements make on them hold, and no step changes that. -/

theorem State.paramsLegal_init {s : State} (h : s.paramsLegal) :
    serialTextLegal (serialText s.par.serialMap s.par.hwId) = true ∧ s.par.serialAddr + 82 ≤ s.par.ramSize :=
  ⟨h.2.1 _, h.2.2.2.1⟩

theorem State.paramsLegal_status {s : State} (h : s.paramsLegal) : s.par.statusAddr + 1 < s.par.ramSize :=
  h.2.2.2.2.1

theorem State.paramsLegal_langid {s : State} (h : s.paramsLegal) : s.par.langidAddr + 3 < s.par.romSize :=
  h.2.2.1

theorem State.paramsLegal_serialIndex {s : State} (h : s.paramsLegal) : s.par.serialIndex ≠ 0 := fun h0 => by
  have := h.1
  simp [h0] at this

theorem State.paramsLegal_congr {s t : State} (hp : t.par = s.par) (hr : t.rom = s.rom)
    (h : s.paramsLegal) : t.paramsLegal := by
  simpa only [State.paramsLegal, hp, hr] using h

/-! ## The continuation -/

@[simp] theorem State.goto_cont (s : State) (k : List Stmt) : (s.goto k).cont = k := by
  cases k <;> rfl

theorem State.cont_congr {s t : State} (h : t.engine = s.engine) : t.cont = s.cont := by
  simp only [State.cont, h]

theorem State.cont_busy {s : State} {k : List Stmt} (h : s.engine = .busy k) : s.cont = k := by
  simp only [State.cont, h]

theorem State.cont_idle {s : State} (h : s.engine = .idle) : s.cont = [] := by
  simp only [State.cont, h]

@[simp] theorem State.raise_cont (s : State) (f : Fault) : (s.raise f).cont = s.cont := rfl

/-- `init` starts with its second line, or not at all. -/
theorem State.initEntry_cases (s : State) :
    s.initEntry = { s with engine := .idle } ∨ s.initEntry = s.goto [.init .readId] := by
  simp only [State.initEntry]
  split
  · exact .inl rfl
  · exact .inr rfl

/-- Abandonment leaves nothing to run. -/
theorem State.abandon_cont (s : State) : s.abandon.cont = [] := by
  rcases s.abandon_engine with ⟨k, _, h⟩ | ⟨h, h'⟩
  · exact State.cont_idle h
  · simp only [State.cont, h']

/-- A micro-step leaves what a statement leads to before the rest, or starts a task or `init`, or records a fault. -/
theorem State.micro_cont {s t : State} (h : s.micro = some t) :
    (∃ f, t = s.raise f) ∨ (s.cont = [] ∧ t = s.initEntry) ∨ (s.cont = [] ∧ t = s.goto taskProgram) ∨
      (s.cont = [] ∧ t = s.goto []) ∨
      ∃ st k u l, s.cont = st :: k ∧ s.stmtStep st k = some t ∧ s.Effect st u ∧ st.Next l ∧
        t = u.goto (l ++ k) := by
  rcases State.micro_cases h with ⟨he, rfl⟩ | ⟨he, rfl⟩ | ⟨he, rfl⟩ | ⟨st, k, he, hs⟩
  · exact .inr (.inl ⟨by simp only [State.cont, he], rfl⟩)
  · exact .inr (.inr (.inl ⟨by simp only [State.cont, he], rfl⟩))
  · exact .inr (.inr (.inr (.inl ⟨by simp only [State.cont, he], rfl⟩)))
  · rcases State.stmtStep_stepsBy hs with hf | ⟨u, l, hu, hl, ht⟩
    · exact .inl hf
    · exact .inr (.inr (.inr (.inr ⟨st, k, u, l, State.cont_busy he, hs, hu, hl, ht⟩)))

/-- The engine at a classification has it first. -/
theorem State.cont_atClassify {s : State} (h : s.engine.atClassify = true) :
    ∃ k, s.cont = .classify :: k ∧ ∀ p, s.enter p = s.goto (p ++ (stallPath ++ k)) := by
  cases he : s.engine with
  | preInit => simp [he, Engine.atClassify] at h
  | idle => simp [he, Engine.atClassify] at h
  | busy k =>
    cases k with
    | nil => simp [he, Engine.atClassify] at h
    | cons st k =>
      cases st <;> simp [he, Engine.atClassify] at h
      exact ⟨k, State.cont_busy he, fun p => State.enter_eq p he⟩

/-! ## Induction over a step, for what the engine is still to run

`P` looks at the core, the endpoint-controller registers and the continuation only. -/

/-- A property of the core, of `EPC` and of the continuation is kept by every step, if it holds of an empty continuation
wherever the host or the reset handler leaves one, and each micro-step and each handler keeps it. -/
theorem step_induct_cont {P : State → Prop}
    (hcongr : ∀ s t : State, t.core = s.core → t.eps = s.eps → t.epc = s.epc → t.cont = s.cont →
      P s → P t)
    (hempty : ∀ s t : State, t.core = s.core → t.eps = s.eps → t.epc = s.epc → t.cont = [] → P s → P t)
    (hinit : ∀ s, P s → s.cont = [] → P (s.goto [.init .readId]))
    (htask : ∀ s, P s → s.cont = [] → P (s.goto taskProgram))
    (hstmt : ∀ s t st k u l, P s → s.cont = st :: k → s.stmtStep st k = some t → s.Effect st u →
      st.Next l → t = u.goto (l ++ k) → P t)
    (henter : ∀ s i k, P s → s.cont = .classify :: k → s.core.req.map decodeRequest = some i →
      P (s.goto (handlerOf i ++ (stallPath ++ k))))
    (hreset : ∀ s mps, P s → ep0SizeLegal mps = true → P (s.restart mps))
    (hack : ∀ s, P s → P s.eventAck)
    (hhost : ∀ s tx t, P s → s.hostStep tx = some t → P t) {s t : State} (h : P s)
    (hstep : step s = .next t) : P t := by
  have hentry : ∀ s, P s → s.cont = [] → P s.initEntry := fun s hs hk => by
    rcases s.initEntry_cases with e | e <;> rw [e]
    · exact hempty s _ rfl rfl rfl rfl hs
    · exact hinit s hs hk
  refine step_induct ?_ ?_ ?_ ?_ ?_ ?_ (fun s hs he => hentry s hs (State.cont_idle he)) hhost h hstep
  · exact fun s hs => hcongr s _ (by simp) (by simp) (by simp) (State.cont_congr (by simp)) hs
  · exact fun s n hs => hcongr s _ rfl rfl rfl rfl hs
  · exact fun s f hs => hcongr s _ rfl rfl rfl rfl hs
  · intro s t hs hm
    rcases State.micro_cont hm with ⟨f, rfl⟩ | ⟨hk, rfl⟩ | ⟨hk, rfl⟩ | ⟨hk, rfl⟩ |
      ⟨st, k, u, l, hk, hst, hu, hl, ht⟩
    · exact hcongr s _ rfl rfl rfl rfl hs
    · exact hentry s hs hk
    · exact htask s hs hk
    · exact hempty s _ rfl rfl rfl rfl hs
    · exact hstmt s t st k u l hs hk hst hu hl ht
  · intro s i hs he ha hi
    obtain ⟨k, hk, hp⟩ := State.cont_atClassify ha
    rw [hp]
    exact henter s i k hs hk hi
  · intro s hs _
    have hc : P (s.eventAck.callDeviceDescriptor).2 :=
      hcongr s.eventAck _ (by simp) (by simp) (by simp) (State.cont_congr (by simp)) (hack s hs)
    rcases s.resetHandler_cases with ⟨f, e⟩ | ⟨_, e⟩ | ⟨d, m, _, _, hm, e⟩ <;> rw [e]
    · exact hcongr s _ rfl rfl rfl rfl hs
    · exact hempty _ _ (by simp) (by simp) (by simp) (State.abandon_cont _) hc
    · exact hreset _ m hc hm

end Sys2Proof.Machine
end

