-- ==== Sys2Proof/Laws/Transfer.lean ====
section
/-! SUPPORT. The endpoint-0 transfers: `control_in` up to its first packet and `control_out(0)` up to its status packet, each
said once as where a long enough run of micro-steps leads. -/

namespace Sys2Proof.Machine

/-! ## Where a run leads -/

/-- From `s` a run comes to `t` in `n` micro-steps, whatever it does then. -/
def State.RunsTo (s : State) (n : Nat) (t : State) : Prop :=
  ∀ m, State.runEngine (n + m) s = State.runEngine m t

theorem State.RunsTo.refl (s : State) : s.RunsTo 0 s := fun m => by rw [Nat.zero_add]

theorem State.RunsTo.trans {s t u : State} {m n : Nat} (h : s.RunsTo m t) (h' : t.RunsTo n u) :
    s.RunsTo (m + n) u := fun l => by rw [Nat.add_assoc, h, h']

/-- A run that comes to a state in which it holds ends there. -/
theorem State.RunsTo.holds {s t : State} {m n : Nat} (h : s.RunsTo m t) (hn : m ≤ n)
    (ht : t.micro = none) : State.runEngine n s = t := by
  obtain ⟨d, rfl⟩ := Nat.exists_eq_add_of_le hn
  rw [h, State.runEngine_held d ht]

/-- A run that comes to a boundary ends there. -/
theorem State.RunsTo.stops {s t : State} {m n : Nat} (h : s.RunsTo m t) (hn : m ≤ n)
    (ht : t.engine.boundary = true) : State.runEngine n s = t := by
  obtain ⟨d, rfl⟩ := Nat.exists_eq_add_of_le hn
  rw [h, State.runEngine_boundary d ht]

/-- A run of just so many micro-steps ends where they lead. -/
theorem State.RunsTo.exact {s t : State} {n : Nat} (h : s.RunsTo n t) : State.runEngine n s = t := by
  have := h 0
  simpa using this

/-- One statement. -/
theorem State.runsTo_stmt {s t : State} {st : Stmt} {k : List Stmt} (h : s.engineAt (st :: k))
    (hb : (Engine.busy (st :: k)).boundary = false) (hs : s.stmtStep st k = some t) : s.RunsTo 1 t :=
  fun m => by rw [Nat.add_comm]; exact State.runEngine_stmt m h.1 h.2 hb hs

/-- A statement of `control_in`. -/
theorem State.runsTo_in {s t : State} {l : CiLine} {v : CiVars} {k : List Stmt}
    (h : s.engineAt (.controlIn l v :: k)) (hs : s.controlInStep l v k = some t) : s.RunsTo 1 t :=
  State.runsTo_stmt h rfl hs

/-- A statement of `control_out`. -/
theorem State.runsTo_out {s t : State} {l : CoLine} {v : CoVars} {k : List Stmt}
    (h : s.engineAt (.controlOut l v :: k)) (hs : s.controlOutStep l v k = some t) : s.RunsTo 1 t :=
  State.runsTo_stmt h rfl hs

/-- At a classification the handler's program is where the run starts. -/
theorem State.atInstr_enter {s : State} {k : List Stmt} (h : s.atInstr k) (p : List Stmt) :
    s.enter p = s.goto (p ++ (stallPath ++ k)) := by
  simp [State.enter, h.2, Engine.afterClassify]

/-! ## Reading a source -/

/-- A byte source reads the same where the memories and the parameters are the same. -/
theorem State.byteAt_congr {s t : State} (hp : t.par = s.par) (hr : t.rom = s.rom) (hm : t.ram = s.ram)
    (src : Source) (i : Nat) : t.byteAt src i = s.byteAt src i := by
  simp [State.byteAt, State.romRead, State.romByteAt, State.langidByte, State.ramRead, hp, hr, hm]

/-! ## One packet of `control_in` -/

/-- A state inside a transfer: endpoint 0 and the engine's position differ from `s`. -/
def State.within (s : State) (e : Ep) (k : List Stmt) : State :=
  { s with eps := s.eps.set 0 e, engine := .busy k }

section Within

variable {s : State} {e : Ep} {k : List Stmt}

@[simp] theorem State.within_ep0 : (s.within e k).ep 0 = e :=
  Eps.get_set_self s.eps 0 e

@[simp] theorem State.within_within (e' : Ep) (k' : List Stmt) :
    (s.within e k).within e' k' = s.within e' k' := by
  simp [State.within]

theorem State.within_selected (h : s.epc.sel = 0) : (s.within e k).selected = e := by
  show (s.eps.set 0 e).get s.epc.sel = e
  rw [h]
  exact Eps.get_set_self _ _ _

theorem State.within_setSelected (h : s.epc.sel = 0) (e' : Ep) :
    (s.within e k).setSelected e' = s.within e' k := by
  show { s.within e k with eps := (s.eps.set 0 e).set s.epc.sel e' } = _
  rw [h]
  simp [State.within]

theorem State.within_goto (k' : List Stmt) (st : Stmt) :
    (s.within e k).goto (st :: k') = s.within e (st :: k') := rfl

theorem State.within_engineAt (h : s.engineEnabled = true) : (s.within e k).engineAt k := ⟨h, rfl⟩

theorem State.within_micro (h : s.engineEnabled = true) (st : Stmt) :
    (s.within e (st :: k)).micro = (s.within e (st :: k)).stmtStep st k :=
  State.micro_busy (s := s.within e (st :: k)) h rfl

/-- A state is within itself. -/
theorem State.within_self (h : s.engine = .busy k) : s.within (s.ep 0) k = s := by
  show { s with eps := s.eps.set 0 (s.eps.get 0), engine := .busy k } = s
  rw [Eps.set_get, ← h]

/-- The bytes of one packet go to the bank one by one (line 12). -/
theorem State.fill_runsTo (hen : s.engineEnabled = true) (hsel : s.epc.sel = 0) (he : e.en = true)
    (hs : e.rxstp = false) (hx : e.rxout = false) (hq : e.inq = none) (v : CiVars) (p bs : List Byte)
    (hl : e.fifo.length + bs.length ≤ bankBytes e.size) (hb : s.sourceBytes v.src v.i bs) :
    (s.within e (.controlIn (ciFill bs.length p) v :: k)).RunsTo bs.length
      (s.within { e with fifo := e.fifo ++ bs }
        (.controlIn (.commit (p ++ bs)) { v with i := v.i + bs.length } :: k)) := by
  induction bs generalizing e v p with
  | nil => simpa [ciFill] using State.RunsTo.refl _
  | cons b bs ih =>
    have h0 : s.byteAt v.src v.i = .ok b := hb 0 (Nat.succ_pos _)
    have hstep : (s.within e (.controlIn (.fill (bs.length + 1) p) v :: k)).RunsTo 1
        (s.within { e with fifo := e.fifo ++ [b] }
          (.controlIn (ciFill bs.length (p ++ [b])) { v with i := v.i + 1 } :: k)) := by
      refine State.runsTo_in (State.within_engineAt hen) ?_
      have hw : (s.within e (.controlIn (.fill (bs.length + 1) p) v :: k)).fifoWrite b =
          .ok (s.within { e with fifo := e.fifo ++ [b] }
            (.controlIn (.fill (bs.length + 1) p) v :: k)) := by
        simp only [List.length_cons] at hl
        have hlt : e.fifo.length < bankBytes e.size := by omega
        simp [State.fifoWrite, State.within_selected hsel, State.within_setSelected hsel, he, hs, hq,
          hlt]
      have hr : (s.within e (.controlIn (.fill (bs.length + 1) p) v :: k)).byteAt v.src v.i = .ok b :=
        (State.byteAt_congr rfl rfl rfl _ _).trans h0
      simp only [State.controlInStep, State.sendByte, hr, hw, State.within_ep0, hx]
      rfl
    have hrest := ih (e := { e with fifo := e.fifo ++ [b] }) he hs hx hq { v with i := v.i + 1 } (p ++ [b])
      (by simp at hl ⊢; omega)
      (fun j hj => by
        have := hb (j + 1) (by simpa using hj)
        simpa [Nat.add_assoc, Nat.add_comm 1 j] using this)
    have := hstep.trans hrest
    rw [show ciFill (b :: bs).length p = .fill (bs.length + 1) p from rfl,
      show (b :: bs).length = 1 + bs.length by simp [Nat.add_comm]]
    simpa [Nat.add_assoc] using this

/-- From the packet's size on, one packet is written and committed (lines 11 to 13). -/
theorem State.packet_runsTo (hen : s.engineEnabled = true) (hsel : s.epc.sel = 0) (he : e.en = true)
    (hs : e.rxstp = false) (hx : e.rxout = false) (hq : e.inq = none) (hf : e.fifo = [])
    (ht : e.txin = true) (v : CiVars) (bs : List Byte) (hn : bs.length = min (v.len - v.i) v.mps)
    (hl : bs.length ≤ bankBytes e.size) (hb : s.sourceBytes v.src v.i bs) :
    (s.within e (.controlIn .packetSize v :: k)).RunsTo (bs.length + 2)
      (s.within { e with fifo := [], txin := false, inq := some bs }
        (.controlIn .loop { v with i := v.i + bs.length } :: k)) := by
  have h1 : (s.within e (.controlIn .packetSize v :: k)).RunsTo 1
      (s.within e (.controlIn (ciFill bs.length []) v :: k)) := by
    refine State.runsTo_in (State.within_engineAt hen) ?_
    simp only [State.controlInStep, ← hn]
    rfl
  have h2 := State.fill_runsTo (k := k) hen hsel he hs hx hq v [] bs (by simpa [hf] using hl) hb
  have h3 : (s.within { e with fifo := e.fifo ++ bs }
        (.controlIn (.commit bs) { v with i := v.i + bs.length } :: k)).RunsTo 1
      (s.within { e with fifo := [], txin := false, inq := some bs }
        (.controlIn .loop { v with i := v.i + bs.length } :: k)) := by
    refine State.runsTo_in (State.within_engineAt hen) ?_
    simp [State.controlInStep, State.sendPacket, State.commitIn, State.within_selected hsel,
      State.within_setSelected hsel, he, ht, hx, hf, State.within_goto]
  have := (h1.trans h2).trans h3
  rwa [show 1 + bs.length + 1 = bs.length + 2 by omega] at this

end Within

/-! ## The whole of `control_in` up to its first hold -/

theorem ep0SizeLegal_pos {m : Byte} (h : ep0SizeLegal m = true) : 0 < m.toNat ∧ m.toNat ≤ 64 := by
  simp only [ep0SizeLegal, Bool.or_eq_true, beq_iff_eq] at h
  rcases h with ((rfl | rfl) | rfl) | rfl <;> decide

section First

variable {s : State} {k : List Stmt} {r : Request}

/-- The steps before the data stage (lines 1 to 7): the setup is consumed and the locals are set. -/
theorem State.controlIn_begin (hen : s.engineEnabled = true) (hsel : s.epc.sel = 0)
    (hr : s.core.req = some r) (he : (s.ep 0).en = true) (hs : (s.ep 0).rxstp = true) (src : Source)
    (len : Nat) (hk : s.engine = .busy (controlIn src len :: k)) :
    s.RunsTo 7
      (s.within (s.ep 0).setupConsumed
        (.controlIn .loop
          { src := src, len := min len r.wLength.toNat, i := 0, mps := s.core.ctrlMps.toNat,
            zlp := zlpDue r.wLength.toNat len s.core.ctrlMps.toNat } :: k)) := by
  have h0 := State.within_self hk
  have hw : ∀ e k, (s.within e k).core.req = some r := fun _ _ => hr
  have hz : ∀ e k, (s.within e k).epc.sel = 0 := fun _ _ => hsel
  have at_ := fun {e : Ep} {k : List Stmt} => State.within_engineAt (s := s) (e := e) (k := k) hen
  have h1 := (State.runsTo_in (l := .entry) at_ (by
    simp only [State.controlInStep, hz, if_true]; rfl) :
    (s.within (s.ep 0) (controlIn src len :: k)).RunsTo 1
      (s.within (s.ep 0) (.controlIn .pending ⟨src, len, 0, 0, false⟩ :: k)))
  have h2 := (State.runsTo_in (l := .pending) at_ (by
    simp only [State.controlInStep, State.within_ep0, hs, if_true]; rfl) :
    (s.within (s.ep 0) (.controlIn .pending ⟨src, len, 0, 0, false⟩ :: k)).RunsTo 1
      (s.within (s.ep 0) (.controlIn .consume ⟨src, len, 0, 0, false⟩ :: k)))
  have h3 := (State.runsTo_in (l := .consume) at_ (by
    simp [State.controlInStep, State.consumeSetup, State.within_selected hsel,
      State.within_setSelected hsel, he, hs, State.within_goto, Ep.setupConsumed]) :
    (s.within (s.ep 0) (.controlIn .consume ⟨src, len, 0, 0, false⟩ :: k)).RunsTo 1
      (s.within (s.ep 0).setupConsumed (.controlIn .readMps ⟨src, len, 0, 0, false⟩ :: k)))
  have h4 := (State.runsTo_in (l := .readMps) at_ rfl :
    (s.within (s.ep 0).setupConsumed (.controlIn .readMps ⟨src, len, 0, 0, false⟩ :: k)).RunsTo 1
      (s.within (s.ep 0).setupConsumed
        (.controlIn .decideZlp ⟨src, len, 0, s.core.ctrlMps.toNat, false⟩ :: k)))
  have h5 := (State.runsTo_in (l := .decideZlp) at_ (by
    simp only [State.controlInStep, hw]; rfl) :
    (s.within (s.ep 0).setupConsumed
        (.controlIn .decideZlp ⟨src, len, 0, s.core.ctrlMps.toNat, false⟩ :: k)).RunsTo 1
      (s.within (s.ep 0).setupConsumed
        (.controlIn .clamp ⟨src, len, 0, s.core.ctrlMps.toNat,
          zlpDue r.wLength.toNat len s.core.ctrlMps.toNat⟩ :: k)))
  have h6 := (State.runsTo_in (l := .clamp) at_ (by
    simp only [State.controlInStep, hw]; rfl) :
    (s.within (s.ep 0).setupConsumed
        (.controlIn .clamp ⟨src, len, 0, s.core.ctrlMps.toNat,
          zlpDue r.wLength.toNat len s.core.ctrlMps.toNat⟩ :: k)).RunsTo 1
      (s.within (s.ep 0).setupConsumed
        (.controlIn .zero ⟨src, min len r.wLength.toNat, 0, s.core.ctrlMps.toNat,
          zlpDue r.wLength.toNat len s.core.ctrlMps.toNat⟩ :: k)))
  have h7 := (State.runsTo_in (l := .zero) at_ rfl :
    (s.within (s.ep 0).setupConsumed
        (.controlIn .zero ⟨src, min len r.wLength.toNat, 0, s.core.ctrlMps.toNat,
          zlpDue r.wLength.toNat len s.core.ctrlMps.toNat⟩ :: k)).RunsTo 1
      (s.within (s.ep 0).setupConsumed
        (.controlIn .loop ⟨src, min len r.wLength.toNat, 0, s.core.ctrlMps.toNat,
          zlpDue r.wLength.toNat len s.core.ctrlMps.toNat⟩ :: k)))
  have := (((((h1.trans h2).trans h3).trans h4).trans h5).trans h6).trans h7
  rwa [h0] at this

/-- `control_in` from its call to its first hold: one packet is committed, or the zero-length packet of an empty source, or
none. `bs` are the bytes of the first packet. -/
theorem State.controlIn_first (hen : s.engineEnabled = true) (hsel : s.epc.sel = 0)
    (hr : s.core.req = some r) (he : (s.ep 0).en = true) (hs : (s.ep 0).rxstp = true)
    (hx : (s.ep 0).rxout = false) (hq : (s.ep 0).inq = none) (hnak : (s.ep 0).nakout = false)
    (hp : s.packetFits) (src : Source) (len : Nat) (hk : s.engine = .busy (controlIn src len :: k))
    (bs : List Byte) (hbs : bs.length = min (min len r.wLength.toNat) s.core.ctrlMps.toNat)
    (hb : s.sourceBytes src 0 bs) {n : Nat} (hn : 90 ≤ n) :
    State.runEngine n s =
      s.within (ciFirst (s.ep 0) bs len r.wLength.toNat s.core.ctrlMps.toNat)
        (ciHold src len r.wLength.toNat s.core.ctrlMps.toNat :: k) := by
  have hbegin := State.controlIn_begin hen hsel hr he hs src len hk
  obtain ⟨hm0, hm64⟩ := ep0SizeLegal_pos hp.1
  have at_ := fun {e : Ep} {k : List Stmt} => State.within_engineAt (s := s) (e := e) (k := k) hen
  generalize hm : s.core.ctrlMps.toNat = mps at *
  generalize hw : r.wLength.toNat = wl at *
  have hsize : bankBytes (s.ep 0).size = mps := hp.2.trans hm
  clear hp
  generalize hz : zlpDue wl len mps = zlp at *
  by_cases h0 : 0 < min len wl
  · -- a packet is due
    have hlen : bs.length ≤ mps := by omega
    have h1 := (State.runsTo_in (l := .loop) at_ (by
      simp only [State.controlInStep, if_pos h0]; rfl) :
      (s.within (s.ep 0).setupConsumed (.controlIn .loop ⟨src, min len wl, 0, mps, zlp⟩ :: k)).RunsTo 1
        (s.within (s.ep 0).setupConsumed (.controlIn .waitData ⟨src, min len wl, 0, mps, zlp⟩ :: k)))
    have h2 := (State.runsTo_in (l := .waitData) at_ (by
      simp only [State.controlInStep, State.within_ep0]; rfl) :
      (s.within (s.ep 0).setupConsumed
          (.controlIn .waitData ⟨src, min len wl, 0, mps, zlp⟩ :: k)).RunsTo 1
        (s.within (s.ep 0).setupConsumed (.controlIn .checkNak ⟨src, min len wl, 0, mps, zlp⟩ :: k)))
    have h3 := (State.runsTo_in (l := .checkNak) at_ (by
      simp only [State.controlInStep, State.within_ep0, Ep.setupConsumed, hnak]; rfl) :
      (s.within (s.ep 0).setupConsumed
          (.controlIn .checkNak ⟨src, min len wl, 0, mps, zlp⟩ :: k)).RunsTo 1
        (s.within (s.ep 0).setupConsumed
          (.controlIn .packetSize ⟨src, min len wl, 0, mps, zlp⟩ :: k)))
    have h4 := State.packet_runsTo (s := s) (e := (s.ep 0).setupConsumed) (k := k) hen hsel he rfl hx hq
      rfl rfl ⟨src, min len wl, 0, mps, zlp⟩ bs (by simpa using hbs)
      (by rw [show (s.ep 0).setupConsumed.size = (s.ep 0).size from rfl, hsize]; exact hlen) hb
    have hall := (((hbegin.trans h1).trans h2).trans h3).trans h4
    simp only [Nat.zero_add] at hall
    rw [show ({ (s.ep 0).setupConsumed with fifo := [], txin := false, inq := some bs } : Ep) =
      ciFirst (s.ep 0) bs len wl mps by
        rw [ciFirst, if_pos (.inl h0), List.take_of_length_le (by omega)]; rfl] at hall
    have htx : (ciFirst (s.ep 0) bs len wl mps).txin = false := by
      rw [ciFirst, if_pos (.inl h0)]; rfl
    have hnk : (ciFirst (s.ep 0) bs len wl mps).nakout = false := by
      rw [ciFirst, if_pos (.inl h0)]; exact hnak
    have hrx : (ciFirst (s.ep 0) bs len wl mps).rxout = false := by
      rw [ciFirst, if_pos (.inl h0)]; exact hx
    generalize ciFirst (s.ep 0) bs len wl mps = e at *
    by_cases hmore : bs.length < min len wl
    · -- more packets follow
      have h5 := (State.runsTo_in (l := .loop) at_ (by
        simp only [State.controlInStep, if_pos hmore]; rfl) :
        (s.within e (.controlIn .loop ⟨src, min len wl, bs.length, mps, zlp⟩ :: k)).RunsTo 1
          (s.within e (.controlIn .waitData ⟨src, min len wl, bs.length, mps, zlp⟩ :: k)))
      rw [show ciHold src len wl mps = .controlIn .waitData ⟨src, min len wl, bs.length, mps, zlp⟩ by
        simp only [ciHold, ← hbs, if_pos hmore, hz]]
      refine (hall.trans h5).holds (by omega) ?_
      rw [State.within_micro hen]
      simp [State.stmtStep, State.controlInStep, htx, hnk]
    · have h5 := (State.runsTo_in (l := .loop) at_ (by
        simp only [State.controlInStep, if_neg hmore]; rfl) :
        (s.within e (.controlIn .loop ⟨src, min len wl, bs.length, mps, zlp⟩ :: k)).RunsTo 1
          (s.within e (.controlIn .checkZlp ⟨src, min len wl, bs.length, mps, zlp⟩ :: k)))
      have hpos : 0 < bs.length := by omega
      cases hzz : zlp with
      | true =>
        have h6 := (State.runsTo_in (l := .checkZlp) at_ (by
          simp only [State.controlInStep, hzz, if_true]; rfl) :
          (s.within e (.controlIn .checkZlp ⟨src, min len wl, bs.length, mps, zlp⟩ :: k)).RunsTo 1
            (s.within e (.controlIn .waitZlp ⟨src, min len wl, bs.length, mps, true⟩ :: k)))
        rw [show ciHold src len wl mps = .controlIn .waitZlp ⟨src, min len wl, bs.length, mps, true⟩ by
          simp only [ciHold, ← hbs, if_neg hmore, hz, hzz]; simp [hpos]]
        refine ((hall.trans h5).trans h6).holds (by omega) ?_
        rw [State.within_micro hen]
        simp [State.stmtStep, State.controlInStep, htx, hnk]
      | false =>
        have h6 := (State.runsTo_in (l := .checkZlp) at_ (by
          simp only [State.controlInStep, hzz]; rfl) :
          (s.within e (.controlIn .checkZlp ⟨src, min len wl, bs.length, mps, zlp⟩ :: k)).RunsTo 1
            (s.within e (.controlIn .waitStatus ⟨src, min len wl, bs.length, mps, false⟩ :: k)))
        rw [show ciHold src len wl mps =
            .controlIn .waitStatus ⟨src, min len wl, bs.length, mps, false⟩ by
          simp only [ciHold, ← hbs, if_neg hmore, hz, hzz]; simp]
        refine ((hall.trans h5).trans h6).holds (by omega) ?_
        rw [State.within_micro hen]
        simp [State.stmtStep, State.controlInStep, hrx]
  · -- no data stage
    have hmin : min len wl = 0 := by omega
    have h1 := (State.runsTo_in (l := .loop) at_ (by
      simp only [State.controlInStep, if_neg h0]; rfl) :
      (s.within (s.ep 0).setupConsumed (.controlIn .loop ⟨src, min len wl, 0, mps, zlp⟩ :: k)).RunsTo 1
        (s.within (s.ep 0).setupConsumed (.controlIn .checkZlp ⟨src, min len wl, 0, mps, zlp⟩ :: k)))
    have hh : ciHold src len wl mps = .controlIn .waitStatus ⟨src, min len wl, 0, mps, zlp⟩ := by
      simp [ciHold, hmin, hz]
    rw [hh]
    cases hzz : zlp with
    | true =>
      have h2 := (State.runsTo_in (l := .checkZlp) at_ (by
        simp only [State.controlInStep, hzz, if_true]; rfl) :
        (s.within (s.ep 0).setupConsumed
            (.controlIn .checkZlp ⟨src, min len wl, 0, mps, zlp⟩ :: k)).RunsTo 1
          (s.within (s.ep 0).setupConsumed (.controlIn .waitZlp ⟨src, min len wl, 0, mps, true⟩ :: k)))
      have h3 := (State.runsTo_in (l := .waitZlp) at_ (by
        simp only [State.controlInStep, State.within_ep0]; rfl) :
        (s.within (s.ep 0).setupConsumed
            (.controlIn .waitZlp ⟨src, min len wl, 0, mps, true⟩ :: k)).RunsTo 1
          (s.within (s.ep 0).setupConsumed
            (.controlIn .commitZlp ⟨src, min len wl, 0, mps, true⟩ :: k)))
      have h4 := (State.runsTo_in (l := .commitZlp) at_ (by
        simp [State.controlInStep, State.commitApart, State.within_selected hsel,
          State.within_setSelected hsel, Ep.setupConsumed, he, hnak, State.within_goto,
          Ep.committed]) :
        (s.within (s.ep 0).setupConsumed
            (.controlIn .commitZlp ⟨src, min len wl, 0, mps, true⟩ :: k)).RunsTo 1
          (s.within ((s.ep 0).committed []) (.controlIn .waitStatus ⟨src, min len wl, 0, mps, true⟩ :: k)))
      rw [show ciFirst (s.ep 0) bs len wl mps = (s.ep 0).committed [] by
        rw [ciFirst, if_pos (.inr (hz.trans hzz)), hmin]; simp]
      refine ((((hbegin.trans h1).trans h2).trans h3).trans h4).holds (by omega) ?_
      rw [State.within_micro hen]
      simp [State.stmtStep, State.controlInStep, Ep.committed, hx]
    | false =>
      have h2 := (State.runsTo_in (l := .checkZlp) at_ (by
        simp only [State.controlInStep, hzz]; rfl) :
        (s.within (s.ep 0).setupConsumed
            (.controlIn .checkZlp ⟨src, min len wl, 0, mps, zlp⟩ :: k)).RunsTo 1
          (s.within (s.ep 0).setupConsumed
            (.controlIn .waitStatus ⟨src, min len wl, 0, mps, false⟩ :: k)))
      rw [show ciFirst (s.ep 0) bs len wl mps = (s.ep 0).setupConsumed by
        rw [ciFirst, if_neg (by simp [h0, hz, hzz])]]
      refine ((hbegin.trans h1).trans h2).holds (by omega) ?_
      rw [State.within_micro hen]
      simp [State.stmtStep, State.controlInStep, Ep.setupConsumed, hx]

end First

/-! ## `control_out` with nothing to receive -/

section Status

variable {s : State} {k : List Stmt} {r : Request}

/-- The steps before the data stage of `control_out` (lines 1 to 5). -/
theorem State.controlOut_begin (hen : s.engineEnabled = true) (hsel : s.epc.sel = 0)
    (hr : s.core.req = some r) (he : (s.ep 0).en = true) (hs : (s.ep 0).rxstp = true) (len : Nat)
    (hk : s.engine = .busy (controlOut len :: k)) :
    s.RunsTo 5
      (s.within (s.ep 0).setupConsumed
        (.controlOut .loop { len := min len r.wLength.toNat, got := 0 } :: k)) := by
  have h0 := State.within_self hk
  have hw : ∀ e k, (s.within e k).core.req = some r := fun _ _ => hr
  have hz : ∀ e k, (s.within e k).epc.sel = 0 := fun _ _ => hsel
  have at_ := fun {e : Ep} {k : List Stmt} => State.within_engineAt (s := s) (e := e) (k := k) hen
  have h1 := (State.runsTo_out (l := .entry) at_ (by
    simp only [State.controlOutStep, hz, if_true]; rfl) :
    (s.within (s.ep 0) (controlOut len :: k)).RunsTo 1
      (s.within (s.ep 0) (.controlOut .pending ⟨len, 0⟩ :: k)))
  have h2 := (State.runsTo_out (l := .pending) at_ (by
    simp only [State.controlOutStep, State.within_ep0, hs, if_true]; rfl) :
    (s.within (s.ep 0) (.controlOut .pending ⟨len, 0⟩ :: k)).RunsTo 1
      (s.within (s.ep 0) (.controlOut .consume ⟨len, 0⟩ :: k)))
  have h3 := (State.runsTo_out (l := .consume) at_ (by
    simp [State.controlOutStep, State.consumeSetup, State.within_selected hsel,
      State.within_setSelected hsel, he, hs, State.within_goto, Ep.setupConsumed]) :
    (s.within (s.ep 0) (.controlOut .consume ⟨len, 0⟩ :: k)).RunsTo 1
      (s.within (s.ep 0).setupConsumed (.controlOut .clamp ⟨len, 0⟩ :: k)))
  have h4 := (State.runsTo_out (l := .clamp) at_ (by
    simp only [State.controlOutStep, hw]; rfl) :
    (s.within (s.ep 0).setupConsumed (.controlOut .clamp ⟨len, 0⟩ :: k)).RunsTo 1
      (s.within (s.ep 0).setupConsumed (.controlOut .zero ⟨min len r.wLength.toNat, 0⟩ :: k)))
  have h5 := (State.runsTo_out (l := .zero) at_ rfl :
    (s.within (s.ep 0).setupConsumed (.controlOut .zero ⟨min len r.wLength.toNat, 0⟩ :: k)).RunsTo 1
      (s.within (s.ep 0).setupConsumed (.controlOut .loop ⟨min len r.wLength.toNat, 0⟩ :: k)))
  have := (((h1.trans h2).trans h3).trans h4).trans h5
  rwa [h0] at this

/-- `control_out` with nothing to receive, from its call to its last hold: the status packet is committed. -/
theorem State.controlOut_status (hen : s.engineEnabled = true) (hsel : s.epc.sel = 0)
    (hr : s.core.req = some r) (he : (s.ep 0).en = true) (hs : (s.ep 0).rxstp = true) (len : Nat)
    (hlen : min len r.wLength.toNat = 0) (hk : s.engine = .busy (controlOut len :: k)) {n : Nat}
    (hn : 9 ≤ n) : State.runEngine n s = s.statusPacket k := by
  have hbegin := State.controlOut_begin hen hsel hr he hs len hk
  rw [hlen] at hbegin
  have at_ := fun {e : Ep} {k : List Stmt} => State.within_engineAt (s := s) (e := e) (k := k) hen
  have h1 := (State.runsTo_out (l := .loop) at_ rfl :
    (s.within (s.ep 0).setupConsumed (.controlOut .loop ⟨0, 0⟩ :: k)).RunsTo 1
      (s.within (s.ep 0).setupConsumed (.controlOut .waitReady ⟨0, 0⟩ :: k)))
  have h2 := (State.runsTo_out (l := .waitReady) at_ (by
    simp only [State.controlOutStep, State.within_ep0]; rfl) :
    (s.within (s.ep 0).setupConsumed (.controlOut .waitReady ⟨0, 0⟩ :: k)).RunsTo 1
      (s.within (s.ep 0).setupConsumed (.controlOut .commit ⟨0, 0⟩ :: k)))
  have h3 := (State.runsTo_out (l := .commit) at_ (by
    simp [State.controlOutStep, State.commitApart, State.within_selected hsel,
      State.within_setSelected hsel, Ep.setupConsumed, he, State.within_goto, Ep.committed]) :
    (s.within (s.ep 0).setupConsumed (.controlOut .commit ⟨0, 0⟩ :: k)).RunsTo 1
      (s.within ((s.ep 0).committed []) (.controlOut .waitDone ⟨0, 0⟩ :: k)))
  refine (((hbegin.trans h1).trans h2).trans h3).holds (by omega) ?_
  rw [State.within_micro hen]
  simp [State.stmtStep, State.controlOutStep, Ep.committed]

end Status

/-! ## The stall path -/

/-- The stall path, from a state about to run it: a setup still pending is stalled and consumed. -/
theorem State.stallPath_runs {s : State} {k : List Stmt} (h : s.engineAt (stallPath ++ k)) {n : Nat}
    (hn : 4 ≤ n) : State.runEngine n s = s.afterStall k := by
  have h1 : s.RunsTo 1
      { s with epc := { s.epc with sel := 0 }, engine := .busy (.stallTest :: .dispatchReturn :: k) } :=
    State.runsTo_stmt h rfl rfl
  generalize ht : ({ s with
    epc := { s.epc with sel := 0 },
    engine := .busy (.stallTest :: .dispatchReturn :: k) } : State) = t at h1
  have hsel : t.epc.sel = 0 := by rw [← ht]
  have hat : t.engineAt (.stallTest :: .dispatchReturn :: k) := by
    rw [← ht]; exact ⟨h.1, rfl⟩
  have hend : ∀ e, t.within e (.dispatchReturn :: k) =
      { s with
        epc := { s.epc with sel := 0 }, eps := s.eps.set 0 e, engine := .busy (.dispatchReturn :: k) } := by
    intro e; rw [← ht]; rfl
  have hep : t.ep 0 = s.ep 0 := by rw [← ht]; rfl
  have hself := State.within_self hat.2
  by_cases hs : (s.ep 0).rxstp = true
  · have h2 : t.RunsTo 1 (t.within (t.ep 0) (.stallRequest :: .stallConsume :: .dispatchReturn :: k)) := by
      rw [← hself]
      refine State.runsTo_stmt (State.within_engineAt hat.1) rfl ?_
      simp [State.stmtStep, State.stallTestStep, State.within_ep0, hep, hs, State.within_goto]
    by_cases hen : (s.ep 0).en = true
    · have h3 : (t.within (t.ep 0) (.stallRequest :: .stallConsume :: .dispatchReturn :: k)).RunsTo 1
          (t.within { t.ep 0 with stallReq := true } (.stallConsume :: .dispatchReturn :: k)) := by
        refine State.runsTo_stmt (State.within_engineAt hat.1) rfl ?_
        simp [State.stmtStep, State.stallRequest, State.within_selected hsel,
          State.within_setSelected hsel, hep, hen, State.within_goto]
      have h4 : (t.within { t.ep 0 with stallReq := true } (.stallConsume :: .dispatchReturn :: k)).RunsTo 1
          (t.within (s.ep 0).stalled (.dispatchReturn :: k)) := by
        refine State.runsTo_stmt (State.within_engineAt hat.1) rfl ?_
        simp [State.stmtStep, State.consumeSetup, State.within_selected hsel,
          State.within_setSelected hsel, hep, hen, hs, State.within_goto, Ep.stalled]
      rw [(((h1.trans h2).trans h3).trans h4).stops (by omega) rfl, hend]
      rfl
    · have h3 : (t.within (t.ep 0) (.stallRequest :: .stallConsume :: .dispatchReturn :: k)).RunsTo 1
          (t.within (t.ep 0) (.stallConsume :: .dispatchReturn :: k)) := by
        refine State.runsTo_stmt (State.within_engineAt hat.1) rfl ?_
        simp [State.stmtStep, State.stallRequest, State.within_selected hsel, hep, hen,
          State.within_goto]
      have h4 : (t.within (t.ep 0) (.stallConsume :: .dispatchReturn :: k)).RunsTo 1
          (t.within (s.ep 0).stalled (.dispatchReturn :: k)) := by
        refine State.runsTo_stmt (State.within_engineAt hat.1) rfl ?_
        simp [State.stmtStep, State.consumeSetup, State.within_selected hsel, hep, hen,
          State.within_goto, Ep.stalled]
      rw [(((h1.trans h2).trans h3).trans h4).stops (by omega) rfl, hend]
      rfl
  · have h2 : t.RunsTo 1 (t.within (s.ep 0).stalled (.dispatchReturn :: k)) := by
      rw [← hself]
      refine State.runsTo_stmt (State.within_engineAt hat.1) rfl ?_
      simp [State.stmtStep, State.stallTestStep, State.within_ep0, hep, hs, State.within_goto,
        Ep.stalled]
    rw [(h1.trans h2).stops (by omega) rfl, hend]
    rfl

/-- A handler's test takes one micro-step, and its program is where the run goes on. -/
theorem State.execute_check {s : State} {k : List Stmt} (h : s.atInstr k) (c : Check) {n : Nat}
    (hb : s.burst = n + 1) :
    s.execute [.check c] = .next (State.runEngine n (s.goto (s.checkProgram c ++ (stallPath ++ k)))) := by
  have he := State.atInstr_enter h [.check c]
  have hp : (s.goto ([.check c] ++ (stallPath ++ k))).checkProgram c = s.checkProgram c := by
    cases c <;> rfl
  have hr := State.runEngine_stmt (s := s.goto ([.check c] ++ (stallPath ++ k))) n h.1 rfl rfl rfl
  simp only [State.execute, he, hb, hr, hp]
  rfl

/-- A handler's test that fails leads to the stall path. -/
theorem State.execute_check_stall {s : State} {k : List Stmt} (h : s.atInstr k) {c : Check}
    (hc : s.checkProgram c = []) (hb : 5 ≤ s.burst) : s.execute [.check c] = .next (s.afterStall k) := by
  obtain ⟨n, hn⟩ : ∃ n, s.burst = n + 1 := ⟨s.burst - 1, by omega⟩
  rw [State.execute_check h c hn, hc, List.nil_append,
    State.stallPath_runs (s := s.goto (stallPath ++ k)) ⟨h.1, rfl⟩ (by omega)]
  rfl

/-- An instruction whose handler does nothing goes straight to the stall path. -/
theorem State.execute_stall {s : State} {k : List Stmt} (h : s.atInstr k) (hb : 4 ≤ s.burst) :
    s.execute [] = .next (s.afterStall k) := by
  have he := State.atInstr_enter h []
  simp only [State.execute, he, List.nil_append]
  rw [State.stallPath_runs (s := s.goto (stallPath ++ k)) ⟨h.1, rfl⟩ hb]
  rfl

end Sys2Proof.Machine
end

