-- ==== Sys2Proof/Tests/Slice0.lean ====
section
/-! SUPPORT. Tests of one decoding or one step each, with the expected values of spec/95_test_vectors.md, and a state and
operands that meet the premises of each statement of Certificates/Slice0/Obligations.lean. -/

namespace Sys2Proof.Tests

open Sys2Proof.Machine

/-! ## The fixture F8 of 95 section 1 -/

/-- Bytes at consecutive addresses, a 0 not listed. -/
def cells (a : Nat) : List Byte → Memory
  | [] => []
  | b :: bs => if b = 0 then cells (a + 1) bs else (a, b) :: cells (a + 1) bs

/-- The fixture's ROM: the device, configuration and string descriptors. -/
def fixtureRom : Memory :=
  cells 0x40 [0x12, 0x01, 0x00, 0x02, 0x00, 0x00, 0x00, 0x08, 0x34, 0x12, 0x78, 0x56, 0x00, 0x01, 0x01, 0x02, 0x03,
    0x01] ++
  cells 0x52 [0x09, 0x02, 0x20, 0x00, 0x01, 0x01, 0x00, 0x80, 0x32, 0x09, 0x04, 0x00, 0x00, 0x02, 0xFF, 0x00] ++
  cells 0x80 [0x0A, 0x03, 0x55, 0x00, 0x32, 0x00, 0x2D, 0x00, 0x31, 0x00]

/-- "0123456789ABCDEF" twice and "01234567". -/
def fixtureText : List Byte :=
  let d : List Byte := [0x30, 0x31, 0x32, 0x33, 0x34, 0x35, 0x36, 0x37]
  let e : List Byte := [0x38, 0x39, 0x41, 0x42, 0x43, 0x44, 0x45, 0x46]
  d ++ e ++ d ++ e ++ d

/-- The fixture's hardware identifier. -/
def fixtureId : HwId := #v[0x00, 0x11, 0x22, 0x33, 0x44, 0x55, 0x66, 0x77, 0x88, 0x99, 0xAA, 0xBB]

/-- The fixture's parameters. -/
def fixturePar : Params where
  romSize := 0x100
  ramSize := 0x100
  langidAddr := 0
  serialAddr := 0
  statusAddr := 0x60
  serialIndex := 3
  hwId := fixtureId
  serialMap := { listed := [(fixtureId, fixtureText)], other := fixtureText.reverse }
  vendorPresent := false

/-- Power-on with the fixture's parameters and ROM. -/
def fixture : State := { State.reset with par := fixturePar, rom := fixtureRom }

/-- Endpoint 0 as the reset handler leaves it. -/
def ep0Free : Ep := { Ep.blank with en := true, txin := true }

/-- S_def8: attached, the bus reset taken, `mps` 8. -/
def def8 : State :=
  { fixture with
    core := { fixture.core with initialized := true, ctrlMps := 8 }
    epc := { fixture.epc with eorstEn := true, attached := true }
    eps := { fixture.eps with ep0 := ep0Free }
    engine := .idle }

/-- Endpoint 0 with its setup read and not yet consumed. -/
def ep0Setup : Ep := { Ep.blank with en := true, rxstp := true }

/-- The dispatcher is at the classification of a request in S_def8, with room for a whole packet. -/
def asked (r : Request) : State :=
  { def8 with
    core := { def8.core with req := some r }
    eps := { def8.eps with ep0 := ep0Setup }
    engine := .busy [.classify, .taskBound]
    burst := 100 }

/-- The same in the Address state. -/
def askedInAddress (r : Request) : State :=
  { asked r with core := { (asked r).core with devState := .address } }

/-- The state a run of an instruction leaves. -/
def after (o : Host.Outcome State Fault Refusal) : Option State :=
  match o with
  | .next s => some s
  | _ => none

/-- What endpoint 0 holds for the host after an instruction, or whether it stalls. -/
def committed (o : Host.Outcome State Fault Refusal) : Option (List Byte) := (after o).bind fun s => (s.ep 0).inq

def stalls (o : Host.Outcome State Fault Refusal) : Option Bool := (after o).map fun s => (s.ep 0).stallReq

/-- A state whose next choice is made. -/
def choosing (m : Move) (u : State) : State := { u with env := { u.env with moves := m :: u.env.moves } }

/-- The premise `chooses` holds of it. -/
theorem chooses_choosing {u : State} (m : Move) (h : u.faults = []) : (choosing m u).chooses m u := ⟨h, rfl⟩

/-! ## Well-formedness refuses -/

theorem test_wf_recipient_code : Instr.wf (.getStatus .toHost (.reserved 3) 0 0 2) = false := by decide

theorem test_wf_recipient_codes_legal :
    Instr.wf (.getStatus .toHost (.reserved 4) 0 0 2) = true ∧
      Instr.wf (.getStatus .toHost (.reserved 31) 0 0 2) = true := by decide

theorem test_wf_other_type :
    Instr.wf (.getDescriptorOther .toHost .device 1 0 0 0) = false ∧
      Instr.wf (.getDescriptorOther .toHost .device 3 0 0 0) = false ∧
      Instr.wf (.getDescriptorOther .toHost .device 0 0 0 0) = true ∧
      Instr.wf (.getDescriptorOther .toHost .device 4 0 0 0) = true := by decide

theorem test_wf_undefined_code :
    Instr.wf (.stdUndefined .toHost .device 0x0C 0 0 0) = false ∧
      Instr.wf (.stdUndefined .toHost .device 0x0D 0 0 0) = true := by decide

/-! ## Decoding: the bytes and keys of 95 section 3.6 -/

theorem test_decode_getStatus :
    decode [0x82, 0x00, 0x00, 0x00, 0x81, 0x00, 0x02, 0x00] = .ok (.getStatus .toHost .endpoint 0 0x81 2) := by
  decide

theorem test_decode_clearFeature :
    decode [0x02, 0x01, 0x00, 0x00, 0x01, 0x00, 0x00, 0x00] = .ok (.clearFeature .toDevice .endpoint 0 1 0) := by
  decide

theorem test_decode_stdReserved02 :
    decode [0x80, 0x02, 0x00, 0x00, 0x00, 0x00, 0x02, 0x00] = .ok (.stdReserved02 .toHost .device 0 0 2) := by
  decide

theorem test_decode_setFeature :
    decode [0x02, 0x03, 0x00, 0x00, 0x01, 0x00, 0x00, 0x00] = .ok (.setFeature .toDevice .endpoint 0 1 0) := by
  decide

theorem test_decode_stdReserved04 :
    decode [0x00, 0x04, 0x00, 0x00, 0x00, 0x00, 0x00, 0x00] = .ok (.stdReserved04 .toDevice .device 0 0 0) := by
  decide

theorem test_decode_setAddress :
    decode [0x00, 0x05, 0x87, 0x00, 0x00, 0x00, 0x00, 0x00] = .ok (.setAddress .toDevice .device 0x87 0 0) := by
  decide

theorem test_decode_getDescriptorDevice :
    decode [0x81, 0x06, 0x00, 0x01, 0x00, 0x00, 0x12, 0x00] =
      .ok (.getDescriptorDevice .toHost .interface 0 0 0x12) := by decide

theorem test_decode_getDescriptorConfiguration :
    decode [0x80, 0x06, 0x00, 0x02, 0x00, 0x00, 0xFF, 0x00] =
      .ok (.getDescriptorConfiguration .toHost .device 0 0 0xFF) := by decide

theorem test_decode_getDescriptorString :
    decode [0x80, 0x06, 0x01, 0x03, 0x09, 0x04, 0xFF, 0x00] =
      .ok (.getDescriptorString .toHost .device 1 0x0409 0xFF) := by decide

theorem test_decode_getDescriptorOther :
    decode [0x81, 0x06, 0x00, 0x22, 0x00, 0x00, 0x40, 0x00] =
      .ok (.getDescriptorOther .toHost .interface 0x22 0 0 0x40) := by decide

theorem test_decode_setDescriptor :
    decode [0x00, 0x07, 0x00, 0x01, 0x00, 0x00, 0x12, 0x00] =
      .ok (.setDescriptor .toDevice .device 0x0100 0 0x12) := by decide

theorem test_decode_getConfiguration :
    decode [0x80, 0x08, 0x00, 0x00, 0x00, 0x00, 0x01, 0x00] = .ok (.getConfiguration .toHost .device 0 0 1) := by
  decide

theorem test_decode_setConfiguration :
    decode [0x00, 0x09, 0x01, 0x01, 0x00, 0x00, 0x00, 0x00] =
      .ok (.setConfiguration .toDevice .device 0x0101 0 0) := by decide

theorem test_decode_getInterface :
    decode [0x81, 0x0A, 0x00, 0x00, 0x00, 0x00, 0x01, 0x00] = .ok (.getInterface .toHost .interface 0 0 1) := by
  decide

theorem test_decode_setInterface :
    decode [0x01, 0x0B, 0x00, 0x00, 0x00, 0x00, 0x00, 0x00] = .ok (.setInterface .toDevice .interface 0 0 0) := by
  decide

theorem test_decode_synchFrame :
    decode [0x82, 0x0C, 0x00, 0x00, 0x01, 0x00, 0x02, 0x00] = .ok (.synchFrame .toHost .endpoint 0 1 2) := by
  decide

theorem test_decode_stdUndefined :
    decode [0x80, 0x0D, 0x00, 0x00, 0x00, 0x00, 0x02, 0x00] =
      .ok (.stdUndefined .toHost .device 0x0D 0 0 2) := by decide

theorem test_decode_classRequest :
    decode [0x21, 0x09, 0x00, 0x02, 0x00, 0x00, 0x01, 0x00] =
      .ok (.classRequest .toDevice .interface 9 0x0200 0 1) := by decide

theorem test_decode_vendorRequest :
    decode [0xC0, 0x01, 0x00, 0x00, 0x00, 0x00, 0x04, 0x00] =
      .ok (.vendorRequest .toHost .device 1 0 0 4) := by decide

theorem test_decode_reservedType :
    decode [0xE0, 0x00, 0x00, 0x00, 0x00, 0x00, 0x00, 0x00] = .ok (.reservedType .toHost .device 0 0 0 0) := by
  decide

theorem test_decodeTableWord_RQ25 :
    decodeTableWord 64 0x00FF000002000680 = some (.getDescriptorConfiguration .toHost .device 0 0 0xFF) := by
  decide

theorem test_decodeTableWord_short : decodeTableWord 16 0x0500 = some (.setAddress .toDevice .device 0 0 0) := by
  decide

theorem test_decode_lengths : decode [0x80, 0x06] = .error .tooShort := by decide

/-- 30 R95: a recipient code above 3 keeps its code. -/
theorem test_decode_recipient :
    decode [0x1F, 0x00, 0x00, 0x00, 0x00, 0x00, 0x00, 0x00] =
      .ok (.getStatus .toDevice (.reserved 31) 0 0 0) := by decide

theorem test_tableMnemonic_RQ30 : tableMnemonic 0x000A000006000680 = some "GET_DESCRIPTOR.OTHER" := by decide

/-! ## One instruction each, from S_def8 unless named (95 section 3.6) -/

/-- RQ1. -/
theorem test_getStatus_device :
    committed (exec (.getStatus .toHost .device 0 0 2) (asked ⟨0x80, 0x00, 0, 0, 2⟩)) = some [0x00, 0x00] := by
  decide

/-- RQ5. -/
theorem test_getStatus_endpoint_7 :
    stalls (exec (.getStatus .toHost .endpoint 0 7 2) (asked ⟨0x82, 0x00, 0, 7, 2⟩)) = some true := by decide

/-- RQ11. -/
theorem test_clearFeature :
    stalls (exec (.clearFeature .toDevice .endpoint 0 1 0) (asked ⟨0x02, 0x01, 0, 1, 0⟩)) = some true := by decide

/-- RQ12. -/
theorem test_stdReserved02 :
    stalls (exec (.stdReserved02 .toHost .device 0 0 2) (asked ⟨0x80, 0x02, 0, 0, 2⟩)) = some true := by decide

/-- RQ13: endpoint 1's stall is untouched. -/
theorem test_setFeature :
    (after (exec (.setFeature .toDevice .endpoint 0 1 0) (asked ⟨0x02, 0x03, 0, 1, 0⟩))).map
      (fun s => ((s.ep 0).stallReq, (s.ep 1).stallReq)) = some (true, false) := by decide

/-- RQ14. -/
theorem test_stdReserved04 :
    stalls (exec (.stdReserved04 .toDevice .device 0 0 0) (asked ⟨0x00, 0x04, 0, 0, 0⟩)) = some true := by decide

/-- RQ18, before the status IN: bits 15:7 of wValue are ignored, recognition is still off. -/
theorem test_setAddress :
    (after (exec (.setAddress .toDevice .device 0x87 0 0) (asked ⟨0x00, 0x05, 0x87, 0, 0⟩))).map
      (fun s => (s.epc.addr, s.epc.addrEn, (s.ep 0).inq, s.core.devState)) =
      some (7, false, some [], .default) := by decide

/-- RQ16. -/
theorem test_setAddress_in_address :
    stalls (exec (.setAddress .toDevice .device 7 0 0) (askedInAddress ⟨0x00, 0x05, 7, 0, 0⟩)) = some true := by
  decide

/-- The first packet of RQ20. -/
theorem test_getDescriptorDevice :
    committed (exec (.getDescriptorDevice .toHost .device 0 0 0x12)
      { asked ⟨0x80, 0x06, 0x0100, 0, 0x12⟩ with env := { Env.fresh with deviceDesc := [some 0x40] } }) =
      some [0x12, 0x01, 0x00, 0x02, 0x00, 0x00, 0x00, 0x08] := by decide

/-- RQ21. -/
theorem test_getDescriptorDevice_endpoint :
    stalls (exec (.getDescriptorDevice .toHost .endpoint 0 0 0x12) (asked ⟨0x82, 0x06, 0x0100, 0, 0x12⟩)) =
      some true := by decide

/-- The first packet of RQ24, and the configuration asked for (DR3). -/
theorem test_getDescriptorConfiguration :
    (after (exec (.getDescriptorConfiguration .toHost .device 5 0 9)
      { asked ⟨0x80, 0x06, 0x0205, 0, 9⟩ with env := { Env.fresh with configDesc := [some 0x52] } })).map
      (fun s => ((s.ep 0).inq, s.calls)) =
      some (some [0x09, 0x02, 0x20, 0x00, 0x01, 0x01, 0x00, 0x80], [.configurationDescriptor 0]) := by decide

/-- RQ26. -/
theorem test_getDescriptorString_language :
    committed (exec (.getDescriptorString .toHost .device 0 0 0xFF)
      { asked ⟨0x80, 0x06, 0x0300, 0, 0xFF⟩ with env := { Env.fresh with stringDesc := [none] } }) =
      some [0x04, 0x03, 0x09, 0x04] := by decide

/-- The first packet of RQ27. -/
theorem test_getDescriptorString_claimed :
    committed (exec (.getDescriptorString .toHost .device 1 0x0409 0xFF)
      { asked ⟨0x80, 0x06, 0x0301, 0x0409, 0xFF⟩ with env := { Env.fresh with stringDesc := [some 0x80] } }) =
      some [0x0A, 0x03, 0x55, 0x00, 0x32, 0x00, 0x2D, 0x00] := by decide

/-- RQ30. -/
theorem test_getDescriptorOther :
    stalls (exec (.getDescriptorOther .toHost .device 6 0 0 0x0A) (asked ⟨0x80, 0x06, 0x0600, 0, 0x0A⟩)) =
      some true := by decide

/-- RQ32: the data OUT is answered STALL. -/
theorem test_setDescriptor :
    ((after (exec (.setDescriptor .toDevice .device 0x0100 0 0x12) (asked ⟨0x00, 0x07, 0x0100, 0, 0x12⟩))).bind
      fun s => (s.hostStep (.tokenOut 0 0 [0x12])).map fun u => u.trace) =
      some [.transaction (.tokenOut 0 0 [0x12]) .stall] := by decide

/-- RQ33. -/
theorem test_getConfiguration :
    stalls (exec (.getConfiguration .toHost .device 0 0 1) (asked ⟨0x80, 0x08, 0, 0, 1⟩)) = some true := by decide

/-- RQ34, before the status IN. -/
theorem test_setConfiguration :
    (after (exec (.setConfiguration .toDevice .device 1 0 0) (askedInAddress ⟨0x00, 0x09, 1, 0, 0⟩))).map
      (fun s => (s.core.activeConfig, (s.ep 0).inq, s.core.devState)) = some (1, some [], .address) := by decide

/-- RQ39. -/
theorem test_setConfiguration_high_byte :
    stalls (exec (.setConfiguration .toDevice .device 0x0101 0 0) (askedInAddress ⟨0x00, 0x09, 0x0101, 0, 0⟩)) =
      some true := by decide

/-- RQ40. -/
theorem test_getInterface :
    stalls (exec (.getInterface .toHost .interface 0 0 1) (asked ⟨0x81, 0x0A, 0, 0, 1⟩)) = some true := by decide

/-- RQ41. -/
theorem test_setInterface :
    stalls (exec (.setInterface .toDevice .interface 0 0 0) (asked ⟨0x01, 0x0B, 0, 0, 0⟩)) = some true := by decide

/-- RQ42. -/
theorem test_synchFrame :
    stalls (exec (.synchFrame .toHost .endpoint 0 1 2) (asked ⟨0x82, 0x0C, 0, 1, 2⟩)) = some true := by decide

/-- RQ43. -/
theorem test_stdUndefined :
    stalls (exec (.stdUndefined .toHost .device 0x0D 0 0 2) (asked ⟨0x80, 0x0D, 0, 0, 2⟩)) = some true := by decide

/-- RQ45. -/
theorem test_classRequest :
    stalls (exec (.classRequest .toHost .interface 1 0x0100 0 0x40) (asked ⟨0xA1, 0x01, 0x0100, 0, 0x40⟩)) =
      some true := by decide

/-- The fixture with a vendor callback that gives one answer. -/
def askedVendor (r : Request) (a : VendorAnswer) : State :=
  { asked r with par := { fixturePar with vendorPresent := true }, env := { Env.fresh with vendor := [a] } }

/-- RQ50. -/
theorem test_vendorRequest_in :
    committed (exec (.vendorRequest .toHost .device 1 0 0 4)
      (askedVendor ⟨0xC0, 0x01, 0, 0, 4⟩ (.dataIn ⟨.rom, 0x40⟩ 4))) = some [0x12, 0x01, 0x00, 0x02] := by decide

/-- RQ52. -/
theorem test_vendorRequest_refused :
    (after (exec (.vendorRequest .toHost .device 1 0 0 4)
      (askedVendor ⟨0xC0, 0x01, 0, 0, 4⟩ .refusedForm))).map (fun s => s.faults) =
      some [.vendorActionRefused] := by decide

/-- RQ47. -/
theorem test_reservedType :
    stalls (exec (.reservedType .toHost .device 0 0 0 0) (asked ⟨0xE0, 0x00, 0, 0, 0⟩)) = some true := by decide

/-! ## Single operations (95 sections 3.1 to 3.3, 3.8, 3.9) -/

/-- PR2. -/
theorem test_select_5 : def8.select 5 = .error .epRange := by rfl

/-- PR9. -/
theorem test_fifo_overflow :
    (match State.fifoWrite { def8 with
        eps := { def8.eps with ep0 := { ep0Free with fifo := [1, 2, 3, 4, 5, 6, 7, 8] } } } 0 with
      | .ok _ => none
      | .error f => some f) = some Fault.fifoOverflow := by decide

/-- HT5: a setup clears the stall and the refused OUT, and turns the direction to IN. -/
theorem test_setup_clears_stall :
    (State.hostStep { def8 with eps := { def8.eps with ep0 := { ep0Free with stallReq := true, nakout := true } } }
      (.setup 0 [0x80, 0x06, 0x00, 0x01, 0x00, 0x00, 0x12, 0x00])).map (fun s => (s.ep 0, s.ctrlDir)) =
      some ({ ep0Free with rxstp := true, txin := false, fifo := [0x80, 0x06, 0x00, 0x01, 0x00, 0x00, 0x12, 0x00] },
        .toHost) := by decide

/-- 60 R368: of more than 8 bytes the bank gets draws, of fewer it gets draws for the missing ones. -/
theorem test_setup_of_9_and_of_1 :
    let s := { def8 with env := { Env.fresh with fifoByte := [0x81, 2, 3, 4, 5, 6, 7, 8] } }
    (s.hostStep (.setup 0 [0, 0, 0, 0, 0, 0, 0, 0, 0])).map (fun t => ((t.ep 0).fifo, t.ctrlDir)) =
        some ([0x81, 2, 3, 4, 5, 6, 7, 8], .toHost) ∧
      (s.hostStep (.setup 0 [0])).map (fun t => ((t.ep 0).fifo, t.ctrlDir)) =
        some ([0, 0x81, 2, 3, 4, 5, 6, 7], .toDevice) := by decide

/-- HT10: the payload of an accepted OUT to an IN transfer is dropped. -/
theorem test_status_out :
    (State.hostStep { def8 with ctrlDir := .toHost, eps := { def8.eps with ep0 := { ep0Free with nakout := true } } }
      (.tokenOut 0 0 [1])).map (fun s => ((s.ep 0).rxout, (s.ep 0).fifo)) = some (true, []) := by decide

/-- 42 R207 and R208: the status packet is zero-length, and an OUT accepted before its commit stays in the bank. -/
theorem test_status_packet_is_empty :
    let s := { def8 with
      eps := { def8.eps with ep0 := { ep0Free with rxout := true, fifo := [1, 2] } }
      engine := .busy [.controlOut .commit ⟨0, 0⟩] }
    (s.micro.bind (·.hostStep (.tokenIn 0 0))).map (fun t => ((t.ep 0).rxout, (t.ep 0).fifo, t.trace)) =
      some (true, [1, 2], [.transaction (.tokenIn 0 0) (.data [])]) := by decide

/-- 42 R204: a status OUT accepted while a packet of a control read is being written discards it. -/
theorem test_status_out_discards_packet :
    let s := { def8 with
      ctrlDir := .toHost
      eps := { def8.eps with ep0 := { ep0Free with nakout := true, fifo := [0x12] } }
      engine := .busy [.controlIn (.fill 1 [0x12]) ⟨⟨.rom, 0x40⟩, 2, 1, 8, false⟩] }
    (((s.hostStep (.tokenOut 0 0 [])).bind State.micro).bind State.micro).map
      (fun t => ((t.ep 0).fifo, (t.ep 0).inq, (t.ep 0).txin, (t.ep 0).rxout)) = some ([], none, true, true) := by decide

/-- 42 R202 and R210: in a request of direction OUT answered with In, the packet goes out whole and the OUT stays apart. -/
theorem test_packet_beside_out :
    let s := { def8 with
      eps := { def8.eps with ep0 := { ep0Free with fifo := [0x12] } }
      engine := .busy [.controlIn (.fill 1 [0x12]) ⟨⟨.rom, 0x40⟩, 2, 1, 8, false⟩] }
    (((s.hostStep (.tokenOut 0 0 [7])).bind State.micro).bind State.micro).map
      (fun t => ((t.ep 0).fifo, (t.ep 0).inq, (t.ep 0).txin, (t.ep 0).rxout)) =
        some ([7], some [0x12, 0x01], false, true) := by decide

/-- 46 R320 and R323: ATTACH is init's last micro-step; before it the host has no move. -/
theorem test_attach_is_last :
    let s := { fixture with engine := .busy [.init .eventEnable, .init .attach] }
    s.micro.map (fun t => (t.epc.attached, t.engine)) = some (false, .busy [.init .attach]) ∧
      (s.micro.bind State.micro).map (fun t => (t.epc.attached, t.engine)) = some (true, .idle) := by decide

/-- 43 R241: the check is a micro-step of its own, which reads core.devState. -/
theorem test_check_micro_step :
    ((after (exec (.setAddress .toDevice .device 7 0 0) { asked ⟨0x00, 0x05, 7, 0, 0⟩ with burst := 0 })).map
      (fun s => s.engine)) =
      some (.busy (.check (.address .toDevice .device 7) :: .sel 0 :: .stallTest :: .dispatchReturn ::
        [.taskBound])) := by decide

/-- EC8, after its five further micro-steps: bits 6:4 of the address are ignored. -/
theorem test_configure :
    (State.runEngine 6 { def8 with engine := .busy [.configure .test ⟨0x11, 0x00, 0x40⟩] }).ep 1 =
      { Ep.blank with en := true, size := 3, txin := true } := by decide

/-- RH2: the fault leaves the state before the handler. -/
theorem test_reset_bad_size :
    ((State.resetHandler { def8 with
        epc := { def8.epc with eorst := true }, rom := cells 0x47 [0x07],
        env := { Env.fresh with deviceDesc := [some 0x40] } }).faults,
      (State.resetHandler { def8 with
        epc := { def8.epc with eorst := true }, rom := cells 0x47 [0x07],
        env := { Env.fresh with deviceDesc := [some 0x40] } }).epc.eorst) = ([.badEp0Size], true) := by decide

/-- The word of RQ15 placed after reset runs SET_ADDRESS, which endpoint 0, still disabled, cannot answer. -/
theorem test_placed_word :
    (after (step (State.reset.withFetchWord 64 0x0000000000070500))).map (fun s => (s.epc.addr, s.core.devState)) =
      some (7, .address) := by decide

/-! ## Witnesses

For each statement with premises: a state and operands that meet them all, one for each clause. `rest` is what follows the
statement the engine is at. -/

/-- What a task still has to run after a handler. -/
def rest : List Stmt := [.taskBound]

/-- S_def8 with the engine at a statement and endpoint 0 as given. -/
def running (e : Ep) (k : List Stmt) : State :=
  { def8 with eps := { def8.eps with ep0 := e }, engine := .busy k }

/-- The tail of a handler. -/
def tail : List Stmt := .sel 0 :: .stallTest :: .dispatchReturn :: rest

/-- Endpoint 0 enabled with no flag set. -/
def ep0Idle : Ep := { Ep.blank with en := true }

/-- The fixture's parameters meet the constraints of 00 R10. -/
theorem witness_paramsLegal : fixture.paramsLegal := by
  refine ⟨by decide, fun id => ?_, by decide, by decide, by decide, by decide, fun a _ h => ?_⟩
  · show serialTextLegal (serialText ⟨[(fixtureId, fixtureText)], fixtureText.reverse⟩ id) = true
    simp only [serialText, List.find?]
    split <;> decide
  · have h4 : a < 4 := h
    show Memory.get? a fixtureRom = none
    match a, h4 with
    | 0, _ | 1, _ | 2, _ | 3, _ => rfl

theorem witness_wf : Instr.wf (.stdUndefined .toHost (.reserved 31) 0xFF 0xFFFF 0xFFFF 0xFFFF) = true := by decide

theorem witness_chooses : (choosing (.engine 100) def8).chooses (.engine 100) def8 := chooses_choosing _ rfl

/-- StepRunsFetchedInstruction, and every statement of an instruction that stalls. -/
theorem witness_atInstr :
    (asked ⟨0x80, 0x00, 0, 0, 2⟩).atInstr rest ∧ (asked ⟨0x80, 0x00, 0, 0, 2⟩).core.req = some ⟨0x80, 0x00, 0, 0, 2⟩ ∧
      6 ≤ (asked ⟨0x80, 0x00, 0, 0, 2⟩).burst := by decide

theorem witness_taskFetchesSetupPacket (u : State)
    (hu : u = { def8 with eps := { def8.eps with ep0 := { ep0Setup with fifo := [0, 5, 7, 0, 0, 0, 0, 0] } } }) :
    (choosing (.engine 11) u).chooses (.engine 11) u ∧ u.engineEnabled = true ∧ u.engine = .idle ∧
      (u.ep 0).en = true ∧ (u.ep 0).rxstp = true ∧ (u.ep 0).fifo = [0, 5, 7, 0, 0, 0, 0, 0] := by
  subst hu; exact ⟨chooses_choosing _ rfl, by decide⟩

theorem witness_faultsStop : { def8 with faults := [.outOfRange] }.faults = [Fault.outOfRange] := rfl

theorem witness_micro : def8.micro = some (def8.goto taskProgram) := rfl

theorem witness_engineWaits_reset (u : State) (hu : u = { def8 with epc := { def8.epc with eorst := true } }) :
    (choosing (.engine 9) u).chooses (.engine 9) u ∧ u.epc.eorst = true ∧ u.epc.eorstEn = true := by
  subst hu; exact ⟨chooses_choosing _ rfl, rfl, rfl⟩

theorem witness_engineWaits_in (l : CiLine) (hl : l = .waitData ∨ l = .waitZlp ∨ l = .waitStatus) (u : State)
    (hu : u = running ep0Idle [.controlIn l ⟨⟨.rom, 0x40⟩, 18, 8, 8, false⟩]) :
    (choosing (.engine 9) u).chooses (.engine 9) u ∧ u.engineAt [.controlIn l ⟨⟨.rom, 0x40⟩, 18, 8, 8, false⟩] ∧
      (u.ep 0).txin = false ∧ (u.ep 0).nakout = false ∧ (u.ep 0).rxout = false := by
  subst hu; rcases hl with rfl | rfl | rfl <;> exact ⟨chooses_choosing _ rfl, by decide⟩

theorem witness_engineWaits_out (l : CoLine) (hl : l = .waitData ∨ l = .waitReady ∨ l = .waitDone) (u : State)
    (hu : u = running ep0Idle [.controlOut l ⟨8, 0⟩]) :
    (choosing (.engine 9) u).chooses (.engine 9) u ∧ u.engineAt [.controlOut l ⟨8, 0⟩] ∧ (u.ep 0).txin = false ∧
      (u.ep 0).rxout = false ∧ (u.ep 0).nakin = false := by
  subst hu; rcases hl with rfl | rfl | rfl <;> exact ⟨chooses_choosing _ rfl, by decide⟩

/-- FailedChecksStall: a premise of each clause, at the least endpoint number and value that fail. -/
theorem witness_failedChecks :
    ((asked ⟨0x00, 0x09, 1, 0, 0⟩).atInstr rest ∧ 7 ≤ (asked ⟨0x00, 0x09, 1, 0, 0⟩).burst) ∧
      ((askedInAddress ⟨0x00, 0x05, 7, 0, 0⟩).atInstr rest ∧ 7 ≤ (askedInAddress ⟨0x00, 0x05, 7, 0, 0⟩).burst) ∧
      (Recipient.interface ≠ .device ∧ Recipient.interface ≠ .endpoint) ∧
      4 < ((5 : Half).extractLsb' 0 4).toNat ∧
      (askedInAddress ⟨0x00, 0x05, 7, 0, 0⟩).core.devState ≠ .default ∧
      (asked ⟨0x00, 0x09, 1, 0, 0⟩).core.devState ≠ .address ∧ 1 < (2 : Half).toNat ∧
      (asked ⟨0xC0, 0x01, 0, 0, 4⟩).par.vendorPresent = false := by decide

theorem witness_stalledRequest (s : State) (hs : s = asked ⟨0x00, 0x07, 0x0100, 0, 0x12⟩) :
    s.epc.attached = true ∧ (s.ep 0).en = true ∧ (s.ep 0).rxstp = true ∧
      ([1, 2, 3, 4, 5, 6, 7, 8] : List Byte).length ≤ bankBytes (s.ep 0).size := by subst hs; decide

theorem witness_stallPath (e : Ep) (he : e = ep0Setup ∨ e = ep0Free) (u : State) (hu : u = running e tail) :
    (choosing (.engine 3) u).chooses (.engine 3) u ∧
      u.engineAt (.sel 0 :: .stallTest :: .dispatchReturn :: rest) := by
  subst hu; rcases he with rfl | rfl <;> exact ⟨chooses_choosing _ rfl, by decide⟩

/-- GetStatusDeviceSendsZero, with the status word in the last two bytes of RAM. -/
theorem witness_getStatus (s : State)
    (hs : s = { asked ⟨0x80, 0x00, 0, 0, 2⟩ with par := { fixturePar with ramSize := 0x62 } }) :
    s.readyAt rest ⟨0x80, 0x00, 0, 0, 2⟩ ∧ s.par.statusAddr + 1 < s.par.ramSize := by subst hs; decide

/-- GetStatusEndpointSendsHaltBit, at both ends of the range; bit 7 of wIndex is no part of the number. -/
theorem witness_getStatus_endpoint :
    (asked ⟨0x82, 0x00, 0, 0x84, 2⟩).readyAt rest ⟨0x82, 0x00, 0, 0x84, 2⟩ ∧
      fixturePar.statusAddr + 1 < fixturePar.ramSize ∧ (((0x80 : Half).extractLsb' 0 4).toNat = (0 : EpNum).val) ∧
      ((0x84 : Half).extractLsb' 0 4).toNat = (4 : EpNum).val := by decide

theorem witness_exec_next : ∃ t, exec (.getStatus .toHost .device 0 0 2) def8 = .next t := ⟨_, rfl⟩

theorem witness_exec_next_other :
    (∃ t, exec (.setDescriptor .toHost .device 0 0 2) def8 = .next t) ∧
      ∀ d p v x l, Instr.setDescriptor .toHost .device 0 0 2 ≠ .getStatus d p v x l :=
  ⟨⟨_, rfl⟩, fun _ _ _ _ _ => nofun⟩

/-- SetAddressCommitsStatus and SetAddressTakesEffectAfterStatus. -/
theorem witness_setAddress (s : State) (hs : s = asked ⟨0x00, 0x05, 7, 0, 0⟩) :
    s.pendingAt rest ⟨0x00, 0x05, 7, 0, 0⟩ ∧ s.core.devState = .default ∧ s.epc.attached = true ∧
      (s.ep 0).stallReq = false := by subst hs; decide

theorem witness_setAddress_status (u : State)
    (hu : u = running ep0Free (.controlOut .waitDone ⟨0, 0⟩ :: .addrEnable :: .setDevState .address :: tail)) :
    (choosing (.engine 5) u).chooses (.engine 5) u ∧
      u.engineAt (.controlOut .waitDone ⟨0, 0⟩ :: .addrEnable :: .setDevState .address :: .sel 0 :: .stallTest ::
        .dispatchReturn :: rest) ∧ (u.ep 0).txin = true ∧ (u.ep 0).rxstp = false := by
  subst hu; exact ⟨chooses_choosing _ rfl, by decide⟩

theorem witness_setConfiguration (s : State) (hs : s = askedInAddress ⟨0x00, 0x09, 1, 0, 0⟩) :
    s.pendingAt rest ⟨0x00, 0x09, 1, 0, 0⟩ ∧ s.core.devState = .address ∧ (1 : Half).toNat ≤ 1 := by
  subst hs; decide

theorem witness_setConfiguration_ask (u : State)
    (hu : u = { running ep0Free (.controlOut .waitDone ⟨0, 0⟩ :: .recordConfigure :: .askConfigure ::
        .setDevState .configured :: tail) with
      env := { Env.fresh with configure := [[⟨0x81, 0x02, 0x40⟩, ⟨0x02, 0x02, 0x40⟩]] } }) :
    (choosing (.engine 3) u).chooses (.engine 3) u ∧
      u.engineAt (.controlOut .waitDone ⟨0, 0⟩ :: .recordConfigure :: .askConfigure :: .setDevState .configured ::
        .sel 0 :: .stallTest :: .dispatchReturn :: rest) ∧ (u.ep 0).txin = true ∧
      (State.callConfigureEndpoints { u with trace := u.trace ++ [.configure u.core.activeConfig] }
        u.core.activeConfig).1 = [⟨0x81, 0x02, 0x40⟩, ⟨0x02, 0x02, 0x40⟩] := by
  subst hu; exact ⟨chooses_choosing _ rfl, by decide⟩

theorem witness_setConfiguration_last (u : State) (hu : u = running ep0Free (.setDevState .configured :: tail)) :
    (choosing (.engine 2) u).chooses (.engine 2) u ∧
      u.engineAt (.setDevState .configured :: .sel 0 :: .stallTest :: .dispatchReturn :: rest) ∧
      (u.ep 0).rxstp = false := by
  subst hu; exact ⟨chooses_choosing _ rfl, by decide⟩

/-- ConfigureEndpointInOrder: the last endpoint, a record out of order, and a fifth endpoint. -/
theorem witness_configure (u : State) (ed : EndpointDesc) (c : Byte)
    (hu : u = { running ep0Free [.configure .test ed] with core := { def8.core with configuredMax := c } }) :
    (∀ m, (choosing (.engine m) u).chooses (.engine m) u) ∧ u.engineAt [.configure .test ed] ∧
      (ed = ⟨0x84, 0x02, 0x40⟩ → c = 3 → edNumber ed = (4 : EpNum).val ∧
        (4 : EpNum).val = u.core.configuredMax.toNat + 1) ∧
      (ed = ⟨0x85, 0x02, 0x40⟩ → c = 1 → edNumber ed ≠ u.core.configuredMax.toNat + 1) ∧
      (ed = ⟨0x05, 0x02, 0x40⟩ → c = 4 → edNumber ed = u.core.configuredMax.toNat + 1 ∧ 5 ≤ edNumber ed) := by
  refine ⟨fun m => ?_, ?_, ?_, ?_, ?_⟩
  · subst hu; exact chooses_choosing _ rfl
  · subst hu; exact ⟨rfl, rfl⟩
  all_goals (intro he hc; subst hu he hc; decide)

/-- A state about to run a request whose callbacks have these answers. -/
def askedWith (r : Request) (v : Env) : State := { asked r with env := v }

theorem witness_getDescriptorDevice (s : State)
    (hs : s = askedWith ⟨0x80, 0x06, 0x0100, 0, 0x12⟩ { Env.fresh with deviceDesc := [some 0x40] }) :
    s.readyAt rest ⟨0x80, 0x06, 0x0100, 0, 0x12⟩ ∧ s.callDeviceDescriptor.1 = some 0x40 ∧
      s.romRead 0x40 = .ok 0x12 ∧
      s.sourceBytes ⟨.rom, 0x40⟩ 0 [0x12, 0x01, 0x00, 0x02, 0x00, 0x00, 0x00, 0x08] ∧
      ([0x12, 0x01, 0x00, 0x02, 0x00, 0x00, 0x00, 0x08] : List Byte).length =
        min (min (0x12 : Byte).toNat (0x12 : Half).toNat) s.core.ctrlMps.toNat := by subst hs; decide

theorem witness_getDescriptorConfiguration (s : State)
    (hs : s = askedWith ⟨0x80, 0x06, 0x0200, 0, 9⟩ { Env.fresh with configDesc := [some 0x52] }) :
    s.readyAt rest ⟨0x80, 0x06, 0x0200, 0, 9⟩ ∧
      (s.callConfigurationDescriptor s.core.activeConfig).1 = some 0x52 ∧ s.romRead 0x54 = .ok 0x20 ∧
      s.romRead 0x55 = .ok 0 ∧ s.sourceBytes ⟨.rom, 0x52⟩ 0 [0x09, 0x02, 0x20, 0x00, 0x01, 0x01, 0x00, 0x80] ∧
      ([0x09, 0x02, 0x20, 0x00, 0x01, 0x01, 0x00, 0x80] : List Byte).length =
        min (min (0x20 + 256 * 0) (9 : Half).toNat) s.core.ctrlMps.toNat := by subst hs; decide

theorem witness_getDescriptorString (s : State)
    (hs : s = askedWith ⟨0x80, 0x06, 0x0301, 0x0409, 3⟩ { Env.fresh with stringDesc := [some 0x80] }) :
    s.readyAt rest ⟨0x80, 0x06, 0x0301, 0x0409, 3⟩ ∧
      (s.callStringDescriptor (3#8 ++ (1 : Byte)) 0x0409).1 = some 0x80 ∧ s.romRead 0x80 = .ok 0x0A ∧
      s.sourceBytes ⟨.rom, 0x80⟩ 0 [0x0A, 0x03, 0x55] ∧
      ([0x0A, 0x03, 0x55] : List Byte).length =
        min (min (0x0A : Byte).toNat (3 : Half).toNat) s.core.ctrlMps.toNat := by subst hs; decide

/-- BuiltInStringsSend, both clauses; the serial buffer's first three bytes are in RAM. -/
theorem witness_builtInStrings (s : State)
    (hs : s = { askedWith ⟨0x80, 0x06, 0x0303, 0x0409, 3⟩ { Env.fresh with stringDesc := [none] } with
      ram := [(0, 0x52), (1, 0x03), (2, 0x30)] }) :
    s.readyAt rest ⟨0x80, 0x06, 0x0303, 0x0409, 3⟩ ∧ (s.callStringDescriptor (3#8 ++ (0 : Byte)) 0).1 = none ∧
      s.par.langidAddr + 3 < s.par.romSize ∧ (s.callStringDescriptor (3#8 ++ (3 : Byte)) 0x0409).1 = none ∧
      (3 : Byte) ≠ 0 ∧ (3 : Byte) = s.par.serialIndex ∧
      s.sourceBytes ⟨.ram, s.par.serialAddr⟩ 0 [0x52, 0x03, 0x30] ∧
      ([0x52, 0x03, 0x30] : List Byte).length = min (min 82 (3 : Half).toNat) s.core.ctrlMps.toNat := by
  subst hs; decide

/-- MissingDescriptorsStall, each clause. -/
theorem witness_missingDescriptors (s : State)
    (hs : s = askedWith ⟨0x80, 0x06, 0x0302, 0, 9⟩
      { Env.fresh with deviceDesc := [none], configDesc := [none], stringDesc := [none] }) :
    s.atInstr rest ∧ 7 ≤ s.burst ∧ s.callDeviceDescriptor.1 = none ∧
      (s.callConfigurationDescriptor s.core.activeConfig).1 = none ∧
      (s.callStringDescriptor (3#8 ++ (2 : Byte)) 0).1 = none ∧ (2 : Byte) ≠ 0 ∧
      (2 : Byte) ≠ s.par.serialIndex := by subst hs; decide

/-- DescriptorOutsideRomFaults, at the first address outside: the length byte, and either byte of `wTotalLength`. -/
theorem witness_descriptorOutsideRom (s : State)
    (hs : s = askedWith ⟨0x80, 0x06, 0x0301, 0, 9⟩
      { Env.fresh with deviceDesc := [some 0x100], stringDesc := [some 0x100], configDesc := [some 0xFE] }) :
    s.atInstr rest ∧ 5 ≤ s.burst ∧ s.par.romSize ≤ 0x100 ∧ s.callDeviceDescriptor.1 = some 0x100 ∧
      (s.callStringDescriptor (3#8 ++ (1 : Byte)) 0).1 = some 0x100 ∧ s.par.romSize ≤ 0xFE + 2 ∧
      (s.callConfigurationDescriptor s.core.activeConfig).1 = some 0xFE := by subst hs; decide

theorem witness_descriptorOutsideRom_high (s : State)
    (hs : s = askedWith ⟨0x80, 0x06, 0x0200, 0, 9⟩ { Env.fresh with configDesc := [some 0xFD] }) :
    s.atInstr rest ∧ 5 ≤ s.burst ∧ s.romRead (0xFD + 2) = .ok 0 ∧ s.par.romSize ≤ 0xFD + 3 ∧
      (s.callConfigurationDescriptor s.core.activeConfig).1 = some 0xFD := by subst hs; decide

/-- VendorRequestAnswered and VendorOutWaitsForData: the premises that do not depend on the answer, then each answer. -/
theorem witness_vendor (s : State) (a : VendorAnswer) (hs : s = askedVendor ⟨0xC0, 0x01, 0, 0, 4⟩ a) :
    s.readyAt rest ⟨0xC0, 0x01, 0, 0, 4⟩ ∧ s.par.vendorPresent = true ∧
      (State.callVendorRequest { s with trace := s.trace ++ [.vendor ⟨0xC0, 0x01, 0, 0, 4⟩] }
        ⟨0xC0, 0x01, 0, 0, 4⟩).1 = a ∧ (s.ep 0).nakin = false := by
  subst hs
  exact ⟨⟨⟨⟨rfl, rfl⟩, rfl, rfl, rfl, rfl, Nat.le_refl 100⟩, rfl, rfl, rfl, rfl, rfl⟩, rfl, rfl, rfl⟩

theorem witness_vendor_in :
    (askedVendor ⟨0xC0, 0x01, 0, 0, 4⟩ (.dataIn ⟨.rom, 0x40⟩ 4)).sourceBytes ⟨.rom, 0x40⟩ 0
        [0x12, 0x01, 0x00, 0x02] ∧
      ([0x12, 0x01, 0x00, 0x02] : List Byte).length =
        min (min (4 : Half).toNat (4 : Half).toNat) def8.core.ctrlMps.toNat := by decide

theorem witness_vendor_out :
    0 < min (1 : Half).toNat (4 : Half).toNat ∧ min (0 : Half).toNat (4 : Half).toNat = 0 := by decide

theorem witness_controlInSendsNextPacket (u : State) (v : CiVars) (hv : v = ⟨⟨.rom, 0x40⟩, 18, 16, 8, false⟩)
    (hu : u = running ep0Free (.controlIn .waitData v :: tail)) :
    (choosing (.engine 5) u).chooses (.engine 5) u ∧ u.engineAt (.controlIn .waitData v :: tail) ∧
      u.epc.sel = 0 ∧ (u.ep 0).en = true ∧ (u.ep 0).rxstp = false ∧ (u.ep 0).txin = true ∧
      (u.ep 0).nakout = false ∧ (u.ep 0).rxout = false ∧ (u.ep 0).fifo = [] ∧ (u.ep 0).inq = none ∧
      v.mps ≤ bankBytes (u.ep 0).size ∧ ([0x03, 0x01] : List Byte).length = min (v.len - v.i) v.mps ∧ u.sourceBytes v.src v.i [0x03, 0x01] := by
  subst hu hv; exact ⟨chooses_choosing _ rfl, by decide⟩

/-- ControlInSendsNextPacket, with an OUT packet accepted before the packet or within it, in either direction. -/
theorem witness_controlInSendsNextPacket_out (d : Dir) (l : CiLine) (hl : l = .waitData ∨ l = ciFill 2 [0x02]) (n : Nat)
    (u : State) (v : CiVars) (hv : v = ⟨⟨.rom, 0x40⟩, 18, 16, 8, false⟩)
    (hu : u = { running { ep0Free with rxout := true, fifo := [7] } (.controlIn l v :: tail) with ctrlDir := d }) :
    (choosing (.engine n) u).chooses (.engine n) u ∧ u.engineAt (.controlIn l v :: tail) ∧ u.epc.sel = 0 ∧
      (u.ep 0).en = true ∧ (u.ep 0).txin = true ∧ (u.ep 0).nakout = false ∧ (u.ep 0).rxout = true ∧ u.ctrlDir = d ∧
      ([0x03, 0x01] : List Byte).length = min (v.len - v.i) v.mps ∧ u.sourceBytes v.src v.i [0x03, 0x01] := by
  subst hu hv; rcases hl with rfl | rfl <;> cases d <;> exact ⟨chooses_choosing _ rfl, by decide⟩

theorem witness_controlInEnds_early (l : CiLine) (hl : l = .waitData ∨ l = .waitZlp) (u : State)
    (hu : u = running { ep0Idle with nakout := true } (.controlIn l ⟨⟨.rom, 0x40⟩, 18, 8, 8, false⟩ :: tail)) :
    (choosing (.engine 1) u).chooses (.engine 1) u ∧
      u.engineAt (.controlIn l ⟨⟨.rom, 0x40⟩, 18, 8, 8, false⟩ :: tail) ∧ (u.ep 0).nakout = true ∧
      (u.ep 0).rxout = false := by
  subst hu; rcases hl with rfl | rfl <;> exact ⟨chooses_choosing _ rfl, by decide⟩

theorem witness_controlInEnds_zlp (u : State)
    (hu : u = running ep0Free (.controlIn .waitZlp ⟨⟨.rom, 0x40⟩, 16, 16, 8, true⟩ :: tail)) :
    (choosing (.engine 1) u).chooses (.engine 1) u ∧
      u.engineAt (.controlIn .waitZlp ⟨⟨.rom, 0x40⟩, 16, 16, 8, true⟩ :: tail) ∧ u.epc.sel = 0 ∧
      (u.ep 0).en = true ∧ (u.ep 0).txin = true ∧ (u.ep 0).nakout = false := by
  subst hu; exact ⟨chooses_choosing _ rfl, by decide⟩

theorem witness_controlInEnds_status (u : State)
    (hu : u = running { ep0Free with rxout := true } (.controlIn .waitStatus ⟨⟨.rom, 0x40⟩, 18, 18, 8, false⟩ :: tail)) :
    (choosing (.engine 2) u).chooses (.engine 2) u ∧
      u.engineAt (.controlIn .waitStatus ⟨⟨.rom, 0x40⟩, 18, 18, 8, false⟩ :: tail) ∧ u.epc.sel = 0 ∧
      (u.ep 0).en = true ∧ (u.ep 0).rxout = true := by
  subst hu; exact ⟨chooses_choosing _ rfl, by decide⟩

/-- ControlOutReadsPacket, with more bytes in the bank than are expected. -/
theorem witness_controlOutReadsPacket (u : State)
    (hu : u = running { ep0Free with rxout := true, fifo := [1, 2, 3] } (.controlOut .waitData ⟨10, 8⟩ :: tail)) :
    5 = min (u.ep 0).fifo.length (10 - 8) + 3 ∧ (choosing (.engine 5) u).chooses (.engine 5) u ∧
      u.engineAt (.controlOut .waitData ⟨10, 8⟩ :: tail) ∧ u.epc.sel = 0 ∧ (u.ep 0).en = true ∧
      (u.ep 0).rxout = true := by
  subst hu; exact ⟨by decide, chooses_choosing _ rfl, by decide⟩

/-- ControlOutReadsPacket, the loop's test and the stages of the status, with the data stage complete. -/
theorem witness_controlOut_lines (l : CoLine) (hl : l = .loop ∨ l = .waitReady ∨ l = .waitDone) (n : Nat)
    (u : State) (hu : u = running ep0Free (.controlOut l ⟨8, 8⟩ :: tail)) :
    (choosing (.engine n) u).chooses (.engine n) u ∧ u.engineAt (.controlOut l ⟨8, 8⟩ :: tail) ∧
      u.epc.sel = 0 ∧ (u.ep 0).en = true ∧ (u.ep 0).txin = true := by
  subst hu; rcases hl with rfl | rfl | rfl <;> exact ⟨chooses_choosing _ rfl, by decide⟩

/-- ControlOutReadsPacket, the early end (CO4). -/
theorem witness_controlOut_early (u : State)
    (hu : u = running { ep0Free with nakin := true } (.controlOut .waitData ⟨16, 8⟩ :: tail)) :
    (choosing (.engine 1) u).chooses (.engine 1) u ∧ u.engineAt (.controlOut .waitData ⟨16, 8⟩ :: tail) ∧
      (u.ep 0).rxout = false ∧ (u.ep 0).nakin = true := by
  subst hu; exact ⟨chooses_choosing _ rfl, by decide⟩

/-- BusResetDisablesEndpoints, SetupTransactions and OutTransactionsToEndpointZero, for every transaction and every endpoint 0
with a bank of 8 bytes. -/
theorem witness_host (tx : HostTx) (e : Ep) (he : e.size = 0) (u : State)
    (hu : u = { def8 with eps := { def8.eps with ep0 := e } }) :
    (choosing (.host tx) u).chooses (.host tx) u ∧ u.epc.attached = true ∧
      ([1, 2, 3, 4, 5, 6, 7, 8] : List Byte).length ≤ bankBytes (u.ep 0).size := by
  subst hu
  refine ⟨chooses_choosing _ rfl, rfl, ?_⟩
  show 8 ≤ bankBytes e.size
  rw [he]; decide

/-- UnansweredTransactions: detached, and the first endpoint that does not exist. -/
theorem witness_unanswered :
    (choosing (.host .busReset) fixture).chooses (.host .busReset) fixture ∧ fixture.epc.attached = false ∧
      (choosing (.host (.tokenIn 0 5)) def8).chooses (.host (.tokenIn 0 5)) def8 ∧
      (choosing (.host (.tokenOut 0 5 [])) def8).chooses (.host (.tokenOut 0 5 [])) def8 ∧
      def8.epc.attached = true :=
  ⟨chooses_choosing _ rfl, rfl, chooses_choosing _ rfl, chooses_choosing _ rfl, rfl⟩

/-- InTransactions, at endpoint 4, whatever it is. -/
theorem witness_inTransactions (e : Ep) (s : State) (hs : s = { def8 with eps := { def8.eps with ep4 := e } }) :
    (choosing (.host (.tokenIn 0 (4 : EpNum).val)) s).chooses (.host (.tokenIn 0 (4 : EpNum).val)) s ∧
      s.epc.attached = true := by
  subst hs; exact ⟨chooses_choosing _ rfl, rfl⟩

/-- OutTransactionsToOtherEndpoints: a whole bank to endpoint 4. -/
theorem witness_outTransactions (s : State) (hs : s = { def8 with eps := { def8.eps with ep4 := ep0Idle } }) :
    (choosing (.host (.tokenOut 0 (4 : EpNum).val [1, 2, 3, 4, 5, 6, 7, 8])) s).chooses
        (.host (.tokenOut 0 (4 : EpNum).val [1, 2, 3, 4, 5, 6, 7, 8])) s ∧
      s.epc.attached = true ∧ (4 : EpNum) ≠ 0 ∧
      ([1, 2, 3, 4, 5, 6, 7, 8] : List Byte).length ≤ bankBytes (s.ep 4).size := by
  subst hs; exact ⟨chooses_choosing _ rfl, by decide⟩

/-- S_def8 with a bus reset pending, a callback's answer and a size byte in ROM. -/
def resetPending (a : Option Nat) (mps : Byte) : State :=
  { def8 with
    epc := { def8.epc with eorst := true }, rom := cells 0x47 [mps], env := { Env.fresh with deviceDesc := [a] } }

theorem witness_resetHandler (u : State) (hu : u = resetPending (some 0x40) 64) :
    (choosing .resetAgent u).chooses .resetAgent u ∧ u.epc.eorst = true ∧ u.epc.eorstEn = true ∧
      u.eventAck.callDeviceDescriptor.1 = some 0x40 ∧ u.romRead (0x40 + 7) = .ok 64 := by
  subst hu; exact ⟨chooses_choosing _ rfl, by decide⟩

/-- ResetHandlerAbortsOrFaults: the premises of all clauses, whatever the answer and the byte. -/
theorem witness_resetHandler_chooses (a : Option Nat) (b : Byte) :
    (choosing .resetAgent (resetPending a b)).chooses .resetAgent (resetPending a b) ∧
      (resetPending a b).epc.eorst = true ∧ (resetPending a b).epc.eorstEn = true :=
  ⟨chooses_choosing _ rfl, rfl, rfl⟩

/-- The same, each clause. -/
theorem witness_resetHandler_fails :
    (resetPending none 8).eventAck.callDeviceDescriptor.1 = none ∧
      ((resetPending (some 0x40) 7).eventAck.callDeviceDescriptor.1 = some 0x40 ∧
        (resetPending (some 0x40) 7).romRead (0x40 + 7) = .ok 7) ∧
      (resetPending (some 0xF9) 8).eventAck.callDeviceDescriptor.1 = some 0xF9 ∧
      (resetPending (some 0xF9) 8).par.romSize ≤ 0xF9 + 7 := by decide

theorem witness_init (u : State) (hu : u = { fixture with par := { fixturePar with ramSize := 82 } }) :
    (choosing (.engine 88) u).chooses (.engine 88) u ∧ u.engineEnabled = true ∧ u.engine = .preInit ∧
      u.core.initialized = false ∧ u.epc.eorst = false ∧
      serialTextLegal (serialText u.par.serialMap u.par.hwId) = true ∧
      u.par.serialAddr + 82 ≤ u.par.ramSize := by
  subst hu; exact ⟨chooses_choosing _ rfl, by decide⟩

theorem witness_init_rejects (u : State)
    (hu : u = { fixture with par := { fixturePar with
      serialMap := { listed := [(fixtureId, 0x47 :: fixtureText.tail)], other := fixtureText } } }) :
    (choosing (.engine 3) u).chooses (.engine 3) u ∧ u.engineEnabled = true ∧ u.engine = .preInit ∧
      u.core.initialized = false ∧
      serialTextLegal (serialText u.par.serialMap u.par.hwId) = false := by
  subst hu; exact ⟨chooses_choosing _ rfl, by decide⟩

theorem witness_init_again :
    (choosing .callInit def8).chooses .callInit def8 ∧ def8.engine = .idle ∧ def8.core.initialized = true :=
  ⟨chooses_choosing _ rfl, by decide⟩

theorem witness_taskFills (u : State)
    (hu : u = { running ep0Free [.serveSelect 1 1, .taskReturn] with
      eps := { def8.eps with ep1 := { ep0Free with dir := .toHost } }
      env := { Env.fresh with inByte := [0, 1, 2, 3, 4, 5, 6, 7, 8] } }) :
    (choosing (.engine 28) u).chooses (.engine 28) u ∧ u.engineAt [.serveSelect (1 : EpNum).val 1, .taskReturn] ∧
      (1 : EpNum) ≠ 0 ∧ (u.ep 1).dir = .toHost ∧ (u.ep 1).en = true ∧ (u.ep 1).txin = true ∧
      (u.ep 1).rxstp = false ∧ (u.ep 1).inq = none ∧ (u.ep 1).fifo = [] ∧
      u.env.inByte = [0, 1, 2, 3, 4, 5, 6, 7] ++ [8] ∧
      ([0, 1, 2, 3, 4, 5, 6, 7] : List Byte).length = bankBytes (u.ep 1).size := by
  subst hu; exact ⟨chooses_choosing _ rfl, by decide⟩

theorem witness_taskDrains (u : State)
    (hu : u = { running ep0Free [.serveSelect 2 2] with
      eps := { def8.eps with ep2 := { ep0Idle with rxout := true, fifo := [0x41, 0x42] } } }) :
    (choosing (.engine 10) u).chooses (.engine 10) u ∧ u.engineAt [.serveSelect (2 : EpNum).val 2] ∧
      (u.ep 2).dir = .toDevice ∧ (u.ep 2).en = true ∧ (u.ep 2).rxout = true ∧ (u.ep 2).fifo.length = 2 := by
  subst hu; exact ⟨chooses_choosing _ rfl, by decide⟩

/-- RegisterWrites: each conditional clause. -/
theorem witness_registerWrites :
    (0xFC : Byte).toNat % 8 = (4 : EpNum).val ∧ 5 ≤ (5 : Byte).toNat % 8 ∧ (0x01 : Byte).getLsbD 5 = false ∧
      ((0x21 : Byte).getLsbD 0 = true ∧ (0x21 : Byte).getLsbD 5 = true ∧ (0x21 : Byte).getLsbD 4 = false ∧
        def8.selected.en = true) ∧
      (0x08 : Byte).getLsbD 3 = true ∧ (0xF7 : Byte).getLsbD 3 = false ∧ Reg.epint ≠ .epdat ∧
      (0x40 : Byte).getLsbD 6 = true ∧ (0x30 : Byte).getLsbD 6 = false ∧
      (0 : Byte).getLsbD 0 = false ∧ (1 : Byte).getLsbD 0 = true ∧ def8.epc.attached = true := by decide

/-- The invariants hold of S_def8 with a setup pending and an instruction about to run, and a step is taken there. -/
theorem witness_invariants (s : State) (hs : s = choosing (.engine 100) (asked ⟨0x00, 0x05, 7, 0, 0⟩)) :
    Memory.wf s.rom = true ∧ Memory.wf s.ram = true ∧ s.DisabledQuiet ∧ s.BanksOwned ∧ s.SizesInv ∧
      s.StateMachineInv ∧ s.TransferBounded ∧ s.SelectionInv ∧ ∃ t, step s = .next t := by
  subst hs
  refine ⟨by decide, by decide, ?_, ⟨?_, ?_⟩, ⟨⟨trivial, ?_⟩, ?_, ?_⟩, ⟨by decide, .inl rfl⟩, ⟨trivial, ?_⟩,
    rfl, ⟨_, rfl⟩⟩
  · unfold State.DisabledQuiet Ep.quietWhenDisabled; decide
  · unfold Ep.owned; decide
  · decide
  · decide
  · decide
  · decide
  · decide

end Sys2Proof.Tests
end

section
/-! PROOFS. The configurator's place in what the engine has to run, and endpoint 0's packet size (O54). -/

namespace Sys2Proof.Machine

/-! ## Programs outside the configurator -/

/-- No statement of a program is past the configurator's first test. -/
def OutsideConfigurator (k : List Stmt) : Prop := ∀ st ∈ k, st.inConfigurator = false

@[simp] theorem outsideConfigurator_nil : OutsideConfigurator [] := fun _ h => nomatch h

@[simp] theorem outsideConfigurator_cons {st : Stmt} {k : List Stmt} :
    OutsideConfigurator (st :: k) ↔ st.inConfigurator = false ∧ OutsideConfigurator k := by
  simp [OutsideConfigurator]

@[simp] theorem outsideConfigurator_append {k l : List Stmt} :
    OutsideConfigurator (k ++ l) ↔ OutsideConfigurator k ∧ OutsideConfigurator l := by
  simp [OutsideConfigurator, or_imp, forall_and]

theorem taskProgram_outside : OutsideConfigurator taskProgram := by simp [taskProgram, Stmt.inConfigurator]

theorem stallPath_outside : OutsideConfigurator stallPath := by simp [stallPath, Stmt.inConfigurator]

theorem handlerOf_outside (i : Instr) : OutsideConfigurator (handlerOf i) := by
  cases i <;> simp [handlerOf, Stmt.inConfigurator]

theorem checkProgram_outside (s : State) (c : Check) : OutsideConfigurator (s.checkProgram c) := by
  rcases s.checkProgram_cases c with h | ⟨_, h⟩ | ⟨_, _, _, h⟩ | ⟨_, _, _, h⟩ | ⟨_, _, _, _, _, h⟩ |
    ⟨_, _, _, _, _, h⟩ | ⟨_, h⟩ | ⟨_, h⟩ | ⟨_, _, _, h⟩ | ⟨_, h⟩ <;> rw [h] <;>
    simp [Stmt.inConfigurator, statusReply, setAddressProgram, setConfigurationProgram, controlIn, controlOut]

theorem serveNext_inConfigurator (n m : Nat) : (serveNext n m).inConfigurator = false := by
  unfold serveNext; split <;> rfl

theorem builtInString_outside (p : Params) (v : Half) : OutsideConfigurator (builtInString p v) := by
  unfold builtInString
  split
  · simp [controlIn, Stmt.inConfigurator]
  · split <;> simp [controlIn, Stmt.inConfigurator]

theorem vendorProgram_outside {a : VendorAnswer} {p : List Stmt} (h : vendorProgram a = some p) :
    OutsideConfigurator p := by
  cases a <;> cases h <;> simp [controlIn, controlOut, Stmt.inConfigurator]

/-- Only the configurator leads into the configurator. -/
theorem Stmt.Next.outside_or_configure {st : Stmt} {l : List Stmt} (h : st.Next l) :
    OutsideConfigurator l ∨ ∃ line ed, st = .configure line ed := by
  cases h with
  | configure line line' ed => exact .inr ⟨line, ed, rfl⟩
  | check c s => exact .inl (checkProgram_outside s c)
  | bound n m | served _ _ n m => exact .inl (by simp [serveNext_inConfigurator])
  | builtIn v x p => exact .inl (builtInString_outside p v)
  | vendor a p h => exact .inl (vendorProgram_outside h)
  | configured eds => exact .inl (by simp [OutsideConfigurator, Stmt.inConfigurator])
  | _ => exact .inl (by simp [Stmt.inConfigurator, Machine.initTail, statusReply, Machine.controlIn])

/-! ## The configurator's place -/

/-- Outside the configurator a position says nothing of the selection. -/
theorem State.configuratorAt_of_outside (s : State) {st : Stmt} (h : st.inConfigurator = false) :
    s.configuratorAt st := by
  cases st with
  | configure line ed => cases line <;> trivial
  | _ => trivial

theorem State.configuratorPlaced_cons {s : State} {st : Stmt} {k : List Stmt} (h : s.cont = st :: k) :
    s.ConfiguratorPlaced ↔ s.configuratorAt st ∧ OutsideConfigurator k := by
  simp only [State.ConfiguratorPlaced, h, OutsideConfigurator]

theorem State.configuratorPlaced_of_outside {s : State} (h : OutsideConfigurator s.cont) :
    s.ConfiguratorPlaced := by
  cases hk : s.cont with
  | nil => simp only [State.ConfiguratorPlaced, hk]
  | cons st k =>
    rw [hk, outsideConfigurator_cons] at h
    exact (State.configuratorPlaced_cons hk).mpr ⟨s.configuratorAt_of_outside h.1, h.2⟩

/-- The place depends on the counter, the selection and the continuation alone. -/
theorem State.configuratorPlaced_congr {s t : State}
    (hc : t.core.configuredMax = s.core.configuredMax) (he : t.epc.sel = s.epc.sel)
    (hk : t.cont = s.cont) (h : s.ConfiguratorPlaced) : t.ConfiguratorPlaced := by
  simpa only [State.ConfiguratorPlaced, State.configuratorAt, hc, he, hk] using h

/-- A line of the configurator goes on at the next line with its own endpoint selected, or leaves it (45 R301). -/
theorem State.configureStep_placed {s : State} {line : CfgLine} {ed : EndpointDesc} {k : List Stmt}
    (hk : s.cont = .configure line ed :: k) (h : s.ConfiguratorPlaced) :
    (s.configureStep line ed k).ConfiguratorPlaced := by
  obtain ⟨hp, hout⟩ := (State.configuratorPlaced_cons hk).mp h
  have hnext : ∀ (u : State) line', u.configuratorAt (.configure line' ed) →
      (u.goto (.configure line' ed :: k)).ConfiguratorPlaced := fun u line' hu =>
    (State.configuratorPlaced_cons (u.goto_cont _)).mpr ⟨hu, hout⟩
  have hleave : ∀ u : State, u.cont = k → u.ConfiguratorPlaced := fun u hu =>
    State.configuratorPlaced_of_outside (hu ▸ hout)
  cases line with
  | test =>
    simp only [State.configureStep]
    split
    · next he => exact hnext s .select he
    · exact hleave _ (s.goto_cont k)
  | select =>
    simp only [State.configureStep]
    cases hs : s.select (edNumber ed) with
    | error f => exact State.configuratorPlaced_congr rfl rfl rfl h
    | ok t =>
      obtain ⟨hsel, ht⟩ := State.select_ok hs
      refine hnext t .enable ⟨?_, hsel⟩
      rw [ht]
      exact hp
  | enable => exact hnext s.epEnable .program hp
  | program => exact hnext (s.epConfig _ _ _) .reset hp
  | reset => exact hnext s.epReset .count hp
  | count => exact hleave _ (s.goto_cont k)

/-! ## Endpoint 0's size -/

/-- Endpoint 0 is enabled in `t` only if it is in `s`, and then with the same size. -/
def State.KeepsEpZero (s t : State) : Prop :=
  (t.ep 0).en = true → (s.ep 0).en = true ∧ (t.ep 0).size = (s.ep 0).size

theorem State.keepsEpZero_of_eps {s t : State} (h : t.eps = s.eps) : s.KeepsEpZero t := fun he => by
  rw [State.ep_congr h] at he ⊢
  exact ⟨he, rfl⟩

/-- Replacing an endpoint keeps endpoint 0 where the new one has its enable bit and size, or is another's. -/
theorem State.keepsEpZero_set {s t : State} {n : EpNum} {e : Ep} (ht : t.eps = s.eps.set n e)
    (h : n = 0 → e.en = (s.ep n).en ∧ e.size = (s.ep n).size) : s.KeepsEpZero t := fun he => by
  have h0 : t.ep 0 = if 0 = n then e else s.ep 0 := by rw [State.ep_eq, ht, Eps.get_set, State.ep_eq]
  rw [h0] at he ⊢
  split at he
  · next hn =>
    subst hn
    obtain ⟨hen, hsize⟩ := h rfl
    rw [if_pos rfl]
    exact ⟨hen ▸ he, hsize⟩
  · next hn =>
    rw [if_neg hn]
    exact ⟨he, rfl⟩

/-- A primitive that, where its guard holds, updates the selected endpoint and not its enable bit or size. -/
theorem State.keepsEpZero_guarded {s : State} {c : Prop} [Decidable c] {e : Ep}
    (hen : e.en = s.selected.en) (hsize : e.size = s.selected.size) :
    s.KeepsEpZero (if c then s.setSelected e else s) := by
  split
  · exact State.keepsEpZero_set rfl fun _ => ⟨hen, hsize⟩
  · exact State.keepsEpZero_of_eps rfl

theorem State.fifoRead_keepsEpZero (s : State) : s.KeepsEpZero s.fifoRead.2 := by
  rcases s.fifoRead_cases with ⟨b, bs, _, _, e⟩ | ⟨_, e⟩ <;> rw [e]
  · exact State.keepsEpZero_set rfl fun _ => ⟨rfl, rfl⟩
  · exact State.keepsEpZero_of_eps s.drawByte_eps

/-- The selection is the number of the endpoint being configured, which is at least 1. -/
theorem State.sel_ne_zero_of_configuring {s : State} {ed : EndpointDesc}
    (hn : edNumber ed = s.core.configuredMax.toNat + 1) (hs : s.epc.sel.val = edNumber ed) : s.epc.sel ≠ 0 :=
  fun h0 => by rw [h0, hn] at hs; cases hs

section Effect

variable {s t u : State} {st : Stmt}

/-- A micro-step enables or programs endpoint 0 nowhere: the configurator has another endpoint selected (45 R302). -/
theorem State.Effect.keepsEpZero (h : s.Effect st u) (hp : s.configuratorAt st) : s.KeepsEpZero u := by
  cases h with
  | enable ed | config ed =>
    obtain ⟨hn, hs⟩ := hp
    exact State.keepsEpZero_set rfl fun h0 => absurd h0 (State.sel_ne_zero_of_configuring hn hs)
  | fifoReset => exact State.keepsEpZero_set rfl fun _ => ⟨rfl, rfl⟩
  | write _ _ b _ hw =>
    rcases State.fifoWrite_ok hw with ⟨_, rfl⟩ | ⟨_, _, _, _, rfl⟩
    · exact State.keepsEpZero_of_eps rfl
    · exact State.keepsEpZero_set rfl fun _ => ⟨rfl, rfl⟩
  | read => exact s.fifoRead_keepsEpZero
  | receive => exact s.fifoRead_keepsEpZero
  | commit | commitApart | release | consume | stall => exact State.keepsEpZero_guarded rfl rfl
  | store a b bs _ hw => obtain ⟨_, rfl⟩ := State.ramWriteByte_ok hw; exact State.keepsEpZero_of_eps rfl
  | _ => exact State.keepsEpZero_of_eps (by simp)

/-- No micro-step writes the negotiated packet size. -/
theorem State.Effect.ctrlMps (h : s.Effect st u) : u.core.ctrlMps = s.core.ctrlMps := by
  rcases h.core with e | ⟨_, _, e⟩ | ⟨_, e⟩ | ⟨_, _, e⟩ | ⟨_, _, e⟩ | ⟨_, _, e⟩ <;> rw [e]

/-- The configurator counts an endpoint it has selected, so it counts to 4 at most (45 R302). -/
theorem State.Effect.configuredMax_le (h : s.Effect st u) (hp : s.configuratorAt st)
    (hle : s.core.configuredMax.toNat ≤ 4) : u.core.configuredMax.toNat ≤ 4 := by
  rcases h.core with e | ⟨ed, rfl, e⟩ | ⟨_, e⟩ | ⟨_, _, e⟩ | ⟨_, _, e⟩ | ⟨_, _, e⟩ <;> rw [e]
  case inr.inl =>
    obtain ⟨hn, hs⟩ := hp
    have hsel := s.epc.sel.isLt
    have hone : (1 : Byte).toNat = 1 := rfl
    rw [BitVec.toNat_add, hone]
    omega
  all_goals exact hle

/-! ## The packet size -/

/-- What keeps endpoint 0 and the negotiated size keeps their agreement. -/
theorem State.PacketSizeAgrees.keep (h : s.PacketSizeAgrees) (he : s.KeepsEpZero t)
    (hm : t.core.ctrlMps = s.core.ctrlMps) (hc : t.core.configuredMax.toNat ≤ 4) : t.PacketSizeAgrees := by
  refine ⟨fun hen => ?_, hc⟩
  obtain ⟨hen', hsize⟩ := he hen
  rw [hm, hsize]
  exact h.1 hen'

theorem State.PacketSizeAgrees.congr (h : s.PacketSizeAgrees) (hc : t.core = s.core) (he : t.eps = s.eps) :
    t.PacketSizeAgrees :=
  h.keep (State.keepsEpZero_of_eps he) (by rw [hc]) (hc ▸ h.2)

theorem State.Effect.packetSizeAgrees (h : s.Effect st u) (hp : s.configuratorAt st) (hs : s.PacketSizeAgrees) :
    u.PacketSizeAgrees :=
  hs.keep (h.keepsEpZero hp) h.ctrlMps (h.configuredMax_le hp hs.2)

end Effect

/-- A legal packet size is the bank size of its own size class (30 R107). -/
theorem bankBytes_sizeClass {mps : Byte} (h : ep0SizeLegal mps = true) :
    bankBytes (sizeClass (mps.setWidth 16)) = mps.toNat := by
  simp only [ep0SizeLegal, Bool.or_eq_true, beq_iff_eq] at h
  rcases h with ((rfl | rfl) | rfl) | rfl <;> decide

/-- The reset handler programs endpoint 0 with the size it negotiates (46 R316). -/
theorem State.restart_packetSizeAgrees (s : State) {mps : Byte} (h : ep0SizeLegal mps = true) :
    (s.restart mps).PacketSizeAgrees := by
  have hsize : ((s.restart mps).ep 0).size = sizeClass (mps.setWidth 16) := by
    simp [State.restart_eq, State.ep_eq, Ep.restarted]
  refine ⟨fun _ => ?_, ?_⟩
  · rw [hsize]
    simpa [State.restart_eq, h] using bankBytes_sizeClass h
  · simp [State.restart_eq]

theorem State.hostStep_keepsEpZero {s t : State} {tx : HostTx} (h : s.hostStep tx = some t) :
    s.KeepsEpZero t := by
  obtain ⟨_, ⟨_, rfl⟩ | ⟨u, r, hu, rfl⟩⟩ := State.hostStep_cases h
  · intro hen
    rw [State.busReset_ep] at hen
    cases hen
  · rcases hu.eps with e | ⟨n, e, hx, he⟩
    · exact State.keepsEpZero_of_eps e
    · exact State.keepsEpZero_set he fun _ => by cases hx <;> exact ⟨rfl, rfl⟩

theorem State.hostStep_packetSizeAgrees {s t : State} {tx : HostTx} (h : s.hostStep tx = some t)
    (hs : s.PacketSizeAgrees) : t.PacketSizeAgrees := by
  obtain ⟨hc, _⟩ := State.hostStep_frame h
  exact hs.keep (State.hostStep_keepsEpZero h) (by rw [hc]) (hc ▸ hs.2)

/-! ## Every step -/

/-- A micro-step of a statement keeps the configurator in its place: it is the configurator's own line, or it leads to
nothing inside it. -/
theorem State.stmtStep_placed {s t u : State} {st : Stmt} {k l : List Stmt} (h : s.ConfiguratorPlaced)
    (hk : s.cont = st :: k) (hst : s.stmtStep st k = some t) (hl : st.Next l) (ht : t = u.goto (l ++ k)) :
    t.ConfiguratorPlaced := by
  rcases hl.outside_or_configure with hout | ⟨line, ed, rfl⟩
  · refine State.configuratorPlaced_of_outside ?_
    rw [ht, State.goto_cont]
    exact outsideConfigurator_append.mpr ⟨hout, ((State.configuratorPlaced_cons hk).mp h).2⟩
  · cases hst
    exact State.configureStep_placed hk h

/-- A program outside the configurator can follow wherever the sizes agree. -/
theorem State.PacketSizeAgrees.goto {s : State} {k : List Stmt} (h : s.PacketSizeAgrees)
    (hk : OutsideConfigurator k) : (s.goto k).SizesInv :=
  ⟨State.configuratorPlaced_of_outside (by rwa [State.goto_cont]), h⟩

/-- Settles O54, by induction over the step: outside the configurator nothing enables or sizes endpoint 0, and the
configurator acts on the endpoint it has counted to. -/
theorem stepKeepsPacketSize : Obligations.StepKeepsPacketSize := by
  intro s t h hstep
  refine step_induct_cont (P := State.SizesInv) ?congr ?empty ?init ?task ?stmt ?enter ?reset ?ack ?host h hstep
  case congr =>
    intro s t hc he hp hk ⟨hplace, hsize⟩
    exact ⟨State.configuratorPlaced_congr (by rw [hc]) (by rw [hp]) hk hplace, hsize.congr hc he⟩
  case empty =>
    intro s t hc he _ hk ⟨_, hsize⟩
    exact ⟨State.configuratorPlaced_of_outside (by simp [hk]), hsize.congr hc he⟩
  case init =>
    exact fun s ⟨_, hsize⟩ _ => hsize.goto (by simp [Stmt.inConfigurator])
  case task =>
    exact fun s ⟨_, hsize⟩ _ => hsize.goto taskProgram_outside
  case stmt =>
    intro s t st k u l ⟨hplace, hsize⟩ hk hst hu hl ht
    have hu' := hu.packetSizeAgrees ((State.configuratorPlaced_cons hk).mp hplace).1 hsize
    exact ⟨State.stmtStep_placed hplace hk hst hl ht, ht ▸ hu'⟩
  case enter =>
    intro s i k ⟨hplace, hsize⟩ hk _
    have hout := ((State.configuratorPlaced_cons hk).mp hplace).2
    refine hsize.goto ?_
    simp [handlerOf_outside, stallPath_outside, hout]
  case reset =>
    intro s mps _ hm
    exact ⟨State.configuratorPlaced_of_outside (by simp [State.restart_eq, State.abandon_cont]),
      s.restart_packetSizeAgrees hm⟩
  case ack =>
    intro s ⟨hplace, hsize⟩
    exact ⟨State.configuratorPlaced_congr rfl rfl rfl hplace, hsize⟩
  case host =>
    intro s tx t ⟨hplace, hsize⟩ hx
    obtain ⟨hc, _, _, he, _, _, _, _, hsel, _⟩ := State.hostStep_frame hx
    exact ⟨State.configuratorPlaced_congr (by rw [hc]) hsel (State.cont_congr he) hplace,
      State.hostStep_packetSizeAgrees hx hsize⟩

end Sys2Proof.Machine
end

section
/-! PROOFS. What no step takes back: ROM, the parameters, the trace and the three flags that are only ever set, and the
negotiated packet size, which the reset agent alone writes (O60). -/

namespace Sys2Proof.Machine

/-! ## What no move takes back -/

/-- `t` has the ROM and the parameters of `s`, its trace goes on from that of `s`, and `initialized`, `eorstEn` and
`attached` are set in `t` where they are in `s`. -/
structure State.Extends (s t : State) : Prop where
  rom : t.rom = s.rom
  par : t.par = s.par
  trace : ∃ es, t.trace = s.trace ++ es
  initialized : s.core.initialized = true → t.core.initialized = true
  eorstEn : s.epc.eorstEn = true → t.epc.eorstEn = true
  attached : s.epc.attached = true → t.epc.attached = true

theorem State.Extends.refl (s : State) : s.Extends s :=
  ⟨rfl, rfl, ⟨[], by simp⟩, id, id, id⟩

theorem State.Extends.trans {s t u : State} (h : s.Extends t) (h' : t.Extends u) : s.Extends u where
  rom := h'.rom.trans h.rom
  par := h'.par.trans h.par
  trace := by
    obtain ⟨es, he⟩ := h.trace
    obtain ⟨fs, hf⟩ := h'.trace
    exact ⟨es ++ fs, by rw [hf, he, List.append_assoc]⟩
  initialized := h'.initialized ∘ h.initialized
  eorstEn := h'.eorstEn ∘ h.eorstEn
  attached := h'.attached ∘ h.attached

/-! ## The agents -/

theorem State.Effect.extends {s t : State} {st : Stmt} (h : s.Effect st t) : s.Extends t where
  rom := h.fixed.1
  par := h.fixed.2.1
  trace := h.trace
  initialized := by
    rcases h.core with e | ⟨_, _, e⟩ | ⟨_, e⟩ | ⟨_, _, e⟩ | ⟨_, _, e⟩ | ⟨_, _, e⟩ <;> simp [e]
  eorstEn := by
    rcases h.epc with e | ⟨_, _, e⟩ | ⟨_, _, e⟩ | ⟨_, e⟩ | ⟨_, e⟩ | ⟨_, e⟩ <;> simp [e]
  attached := by
    rcases h.epc with e | ⟨_, _, e⟩ | ⟨_, _, e⟩ | ⟨_, e⟩ | ⟨_, e⟩ | ⟨_, e⟩ <;> simp [e]

theorem State.resetHandler_extends (s : State) : s.Extends s.resetHandler := by
  rcases s.resetHandler_cases with ⟨f, e⟩ | ⟨_, e⟩ | ⟨d, mps, _, _, _, e⟩ <;> rw [e]
  · constructor <;> simp
  · constructor <;> simp
  · rw [State.restart_eq]
    constructor <;> simp

/-- A host transaction's effect, its answer apart, records nothing. -/
theorem State.HostEffect.trace {s t : State} (h : s.HostEffect t) : t.trace = s.trace := by
  cases h with
  | setup u bytes d n hu => subst hu; simp
  | _ => rfl

theorem State.hostStep_trace {s t : State} {tx : HostTx} (h : s.hostStep tx = some t) :
    ∃ e, t.trace = s.trace ++ [e] := by
  obtain ⟨_, ⟨_, rfl⟩ | ⟨u, r, hu, rfl⟩⟩ := State.hostStep_cases h
  · exact ⟨.busReset, rfl⟩
  · exact ⟨.transaction tx r, by rw [State.answer_trace, hu.trace]⟩

theorem State.hostStep_extends {s t : State} {tx : HostTx} (h : s.hostStep tx = some t) : s.Extends t := by
  obtain ⟨hc, hrom, _, _, _, hpar, _, _, _, hen, hat⟩ := State.hostStep_frame h
  obtain ⟨e, he⟩ := State.hostStep_trace h
  exact ⟨hrom, hpar, ⟨[e], he⟩, by simp [hc], by simp [hen], by simp [hat]⟩

theorem step_extends {s t : State} (h : step s = .next t) : s.Extends t := by
  refine step_induct_data (P := s.Extends) ?_ ?_ ?_ ?_ (.refl s) h
  · exact fun u e fs v n hu => ⟨hu.rom, hu.par, hu.trace, hu.initialized, hu.eorstEn, hu.attached⟩
  · exact fun u st v hu he => hu.trans he.extends
  · exact fun u hu _ => hu.trans u.resetHandler_extends
  · exact fun u tx v hu hx => hu.trans (State.hostStep_extends hx)

/-! ## The negotiated packet size -/

theorem State.micro_ctrlMps {s t : State} (h : s.micro = some t) : t.core.ctrlMps = s.core.ctrlMps := by
  rcases State.micro_stepsBy h with ⟨f, rfl⟩ | ⟨st, u, e, hu, rfl⟩
  · rfl
  · exact hu.ctrlMps

theorem State.runEngine_ctrlMps (n : Nat) (s : State) :
    (State.runEngine n s).core.ctrlMps = s.core.ctrlMps :=
  State.runEngine_induct (P := fun u => u.core.ctrlMps = s.core.ctrlMps)
    (fun _ _ hu hm => (State.micro_ctrlMps hm).trans hu) n rfl

theorem State.initEntry_ctrlMps (s : State) : s.initEntry.core.ctrlMps = s.core.ctrlMps := by
  rcases s.initEntry_cases with e | e
  · rw [e]
  · rw [e, State.goto_core]

/-- A step of any agent but the reset agent leaves the negotiated packet size (10 R26, 46 R316). -/
theorem step_ctrlMps {s t : State} (h : step s = .next t) (hr : s.nextMove.1 ≠ .resetAgent) :
    t.core.ctrlMps = s.core.ctrlMps := by
  obtain ⟨_, m, u, hm, hc⟩ := step_cases h
  have hu : u.core.ctrlMps = s.core.ctrlMps := by
    have := s.nextMove_core
    rw [hm] at this
    rw [this]
  rw [← hu]
  rcases hc with rfl | ⟨_, _, _, _, _, rfl⟩ | ⟨n, r, _, _, _, _, rfl⟩ | ⟨n, v, _, _, hv, rfl⟩ | ⟨hm', _, _⟩ |
    ⟨_, _, _, rfl⟩ | ⟨tx, _, hx⟩
  · rfl
  · rfl
  · exact State.runEngine_ctrlMps n _
  · exact (State.runEngine_ctrlMps n v).trans (State.micro_ctrlMps hv)
  · exact absurd (hm ▸ hm') hr
  · exact u.initEntry_ctrlMps
  · rw [(State.hostStep_frame hx).1]

/-- Settles O60: every agent's move extends the state, and every agent's but the reset agent's leaves the packet size. -/
theorem stepKeepsFixedState : Obligations.StepKeepsFixedState := by
  intro s t h
  obtain ⟨hrom, hpar, htrace, hinit, hen, hat⟩ := step_extends h
  exact ⟨hrom, hpar, step_ctrlMps h, htrace, hinit, hen, hat⟩

end Sys2Proof.Machine
end

section
/-! PROOFS. Both memories keep their canonical form: ROM is never written, RAM a byte at a time (O51). -/

namespace Sys2Proof.Machine

theorem State.resetHandler_ram (s : State) : s.resetHandler.ram = s.ram := by
  rcases s.resetHandler_cases with ⟨f, e⟩ | ⟨_, e⟩ | ⟨d, mps, _, _, _, e⟩ <;> rw [e]
  · rfl
  · simp
  · simp [State.restart_eq]

/-- A micro-step leaves RAM, or writes one byte of it. -/
theorem State.Effect.ram_wf {s t : State} {st : Stmt} (h : s.Effect st t) (hs : Memory.wf s.ram = true) :
    Memory.wf t.ram = true := by
  rcases h.ram with e | ⟨a, b, _, _, _, e⟩ <;> rw [e]
  · exact hs
  · exact Memory.wf_set a b hs

theorem step_ram_wf {s t : State} (hs : Memory.wf s.ram = true) (h : step s = .next t) :
    Memory.wf t.ram = true := by
  refine step_induct_data (P := fun u => Memory.wf u.ram = true) ?congr ?effect ?reset ?host hs h
  case congr => exact fun _ _ _ _ _ hu => hu
  case effect => exact fun _ _ _ hu he => he.ram_wf hu
  case reset => exact fun u hu _ => u.resetHandler_ram ▸ hu
  case host =>
    intro u tx v hu hx
    obtain ⟨_, _, hram, _⟩ := State.hostStep_frame hx
    exact hram ▸ hu

/-- Settles O51, by induction over the step: no step writes ROM, and RAM is written by single bytes, each of which keeps
the form. -/
theorem stepKeepsMemoriesCanonical : Obligations.StepKeepsMemoriesCanonical := by
  intro s t ⟨hrom, hram⟩ h
  exact ⟨(step_extends h).rom ▸ hrom, step_ram_wf hram h⟩

end Sys2Proof.Machine
end

section
/-! PROOFS. A descriptor with a byte of its length outside ROM: the run of GET_DESCRIPTOR up to the read that faults
(O30). -/

namespace Sys2Proof.Machine

/-! ## The record of a fault -/

theorem State.romRead_outside {s : State} {a : Nat} (h : s.par.romSize ≤ a) : s.romRead a = .error .outOfRange :=
  if_neg (Nat.not_lt.mpr h)

/-- With a fault recorded the engine has no move (60 R355). -/
theorem State.micro_of_fault {s : State} {f : Fault} {fs : List Fault} (h : s.faults = f :: fs) :
    s.micro = none := by
  simp [State.micro, State.engineEnabled, h]

/-- A statement that raises a fault leaves the engine at it, with the fault's code recorded (60 R355). -/
theorem State.runsTo_raise {t : State} {st : Stmt} {k : List Stmt} {f : Fault} (ht : t.engineEnabled = true)
    (hb : (Engine.busy (st :: k)).boundary = false)
    (hs : (t.goto (st :: k)).stmtStep st k = some ((t.goto (st :: k)).raise f)) :
    (t.goto (st :: k)).RunsTo 1 { t with engine := .busy (st :: k), faults := [f] } := by
  have hf : t.faults = [] := (t.engineEnabled_iff.mp ht).1
  have hr : (t.goto (st :: k)).raise f = { t with engine := .busy (st :: k), faults := [f] } := by
    simp [State.raise, State.goto, Engine.ofCont, hf]
  exact hr ▸ State.runsTo_stmt ⟨ht, rfl⟩ hb hs

/-! ## The resolver's reads of a length -/

section Reads

variable {t : State} {k : List Stmt} {a : Nat} {f : Fault}

theorem State.readLength_faults (ht : t.engineEnabled = true) (hr : t.romRead a = .error f) :
    (t.goto (.readLength a :: k)).RunsTo 1 { t with engine := .busy (.readLength a :: k), faults := [f] } := by
  have hr' : (t.goto (.readLength a :: k)).romRead a = .error f := hr
  exact State.runsTo_raise ht rfl (by simp only [State.stmtStep, State.readLengthStep, hr'])

theorem State.readTotalLow_faults (ht : t.engineEnabled = true) (hr : t.romRead (a + 2) = .error f) :
    (t.goto (.readTotalLow a :: k)).RunsTo 1
      { t with engine := .busy (.readTotalLow a :: k), faults := [f] } := by
  have hr' : (t.goto (.readTotalLow a :: k)).romRead (a + 2) = .error f := hr
  exact State.runsTo_raise ht rfl (by simp only [State.stmtStep, State.readTotalLowStep, hr'])

/-- The low byte of `wTotalLength` is read, and the read of the high byte raises the fault. -/
theorem State.readTotalHigh_faults {lo : Byte} (ht : t.engineEnabled = true) (hlo : t.romRead (a + 2) = .ok lo)
    (hr : t.romRead (a + 3) = .error f) :
    (t.goto (.readTotalLow a :: k)).RunsTo 2
      { t with engine := .busy (.readTotalHigh a lo :: k), faults := [f] } := by
  have hlo' : (t.goto (.readTotalLow a :: k)).romRead (a + 2) = .ok lo := hlo
  have hr' : (t.goto (.readTotalHigh a lo :: k)).romRead (a + 3) = .error f := hr
  have hlow : (t.goto (.readTotalLow a :: k)).RunsTo 1 (t.goto (.readTotalHigh a lo :: k)) :=
    State.runsTo_stmt ⟨ht, rfl⟩ rfl (by simp only [State.stmtStep, State.readTotalLowStep, hlo']; rfl)
  exact hlow.trans
    (State.runsTo_raise ht rfl (by simp only [State.stmtStep, State.readTotalHighStep, hr']))

end Reads

/-! ## The resolver's callbacks -/

theorem State.callDeviceDescriptor_goto (s : State) (k : List Stmt) :
    (s.goto k).callDeviceDescriptor = (s.callDeviceDescriptor.1, s.callDeviceDescriptor.2.goto k) := by
  simp only [State.callDeviceDescriptor, State.goto_env]
  split <;> rfl

theorem State.callConfigurationDescriptor_goto (s : State) (k : List Stmt) (v : Byte) :
    (s.goto k).callConfigurationDescriptor v =
      ((s.callConfigurationDescriptor v).1, (s.callConfigurationDescriptor v).2.goto k) := by
  simp only [State.callConfigurationDescriptor, State.goto_env]
  split <;> rfl

theorem State.callStringDescriptor_goto (s : State) (k : List Stmt) (w x : Half) :
    (s.goto k).callStringDescriptor w x =
      ((s.callStringDescriptor w x).1, (s.callStringDescriptor w x).2.goto k) := by
  simp only [State.callStringDescriptor, State.goto_env]
  split <;> rfl

/-- `t` reads ROM as `s` does, and the engine has its move in `t` where it has it in `s`. -/
def State.ReadsAs (s t : State) : Prop := (∀ a, t.romRead a = s.romRead a) ∧ t.engineEnabled = s.engineEnabled

section Callbacks

variable {s t : State} {d : Option Nat} {a : Nat} {v : Byte} {w x : Half}

theorem State.readsAs_of_update {e : Env} {cs : List Call} (h : t = { s with env := e, calls := cs }) :
    s.ReadsAs t := by
  subst h
  exact ⟨fun _ => rfl, rfl⟩

theorem State.callDeviceDescriptor_readsAs (h : s.callDeviceDescriptor = (d, t)) : s.ReadsAs t := by
  obtain ⟨e, he⟩ := s.callDeviceDescriptor_update
  exact State.readsAs_of_update (by rwa [h] at he)

theorem State.callConfigurationDescriptor_readsAs (h : s.callConfigurationDescriptor v = (d, t)) :
    s.ReadsAs t := by
  obtain ⟨e, he⟩ := s.callConfigurationDescriptor_update v
  exact State.readsAs_of_update (by rwa [h] at he)

theorem State.callStringDescriptor_readsAs (h : s.callStringDescriptor w x = (d, t)) : s.ReadsAs t := by
  obtain ⟨e, he⟩ := s.callStringDescriptor_update w x
  exact State.readsAs_of_update (by rwa [h] at he)

/-- The device callback finds a descriptor, whose `bLength` is read next (44 R281). -/
theorem State.askDeviceStep_some (h : s.callDeviceDescriptor = (some a, t)) (k l : List Stmt) :
    (s.goto l).askDeviceStep k = t.goto (.readLength a :: k) := by
  simp only [State.askDeviceStep, State.callDeviceDescriptor_goto, h]
  rfl

/-- The configuration callback finds a descriptor, and the low byte of its `wTotalLength` is read next (44 R282). -/
theorem State.askConfigurationStep_some (h : s.callConfigurationDescriptor s.core.activeConfig = (some a, t))
    (k l : List Stmt) : (s.goto l).askConfigurationStep k = t.goto (.readTotalLow a :: k) := by
  simp only [State.askConfigurationStep, State.callConfigurationDescriptor_goto, State.goto_core, h]
  rfl

/-- The string callback finds a descriptor, whose `bLength` is read next (44 R283). -/
theorem State.askStringStep_some (h : s.callStringDescriptor w x = (some a, t)) (k l : List Stmt) :
    (s.goto l).askStringStep w x k = t.goto (.readLength a :: k) := by
  simp only [State.askStringStep, State.callStringDescriptor_goto, h]
  rfl

end Callbacks

/-! ## The whole run -/

/-- An accepted GET_DESCRIPTOR comes to its callback after two tests (43 R244, 44 R280), and from where the callback's
answer leads to a state without a move. -/
theorem State.execute_descriptor {s t u : State} {k : List Stmt} {p : Recipient} {row : DescriptorRow} {ask : Stmt}
    {n : Nat} (h : s.atInstr k) (hp : p ≠ .endpoint) (hrow : resolveProgram row = [ask])
    (hb : (Engine.busy (ask :: (stallPath ++ k))).boundary = false)
    (hask : (s.goto (ask :: (stallPath ++ k))).stmtStep ask (stallPath ++ k) = some t) (hrun : t.RunsTo n u)
    (hu : u.micro = none) (hn : n + 3 ≤ s.burst) :
    s.execute [.check (.descriptor .toHost p row)] = .next u := by
  obtain ⟨m, hm⟩ : ∃ m, s.burst = m + 1 := ⟨s.burst - 1, by omega⟩
  have hlegal : s.checkProgram (.descriptor .toHost p row) = [.check (.resolve row)] := by
    simp [State.checkProgram, descriptorProgram, getDescriptorLegal, hp]
  have hresolve : (s.goto (.check (.resolve row) :: (stallPath ++ k))).RunsTo 1
      (s.goto (ask :: (stallPath ++ k))) :=
    State.runsTo_stmt ⟨h.1, rfl⟩ rfl (by simp [State.stmtStep, State.checkProgram, hrow, State.goto])
  have hcall : (s.goto (ask :: (stallPath ++ k))).RunsTo 1 t := State.runsTo_stmt ⟨h.1, rfl⟩ hb hask
  rw [State.execute_check h _ hm, hlegal]
  exact congrArg _ (((hresolve.trans hcall).trans hrun).holds (by omega) hu)

/-- Settles O30: each row comes by its two tests and its callback to the read that faults, and the run ends there. -/
theorem descriptorOutsideRomFaults : Obligations.DescriptorOutsideRomFaults := by
  intro s t k p i x l a h hb hp
  refine ⟨fun ha hc => ?device, fun ha hc => ?string, fun ha hc => ?low, fun lo hlo ha hc => ?high⟩
  case device =>
    obtain ⟨hread, hen⟩ := State.callDeviceDescriptor_readsAs hc
    have hfault := (hread a).trans (State.romRead_outside ha)
    exact State.execute_descriptor h hp rfl rfl (congrArg some (State.askDeviceStep_some hc _ _))
      (State.readLength_faults (hen.trans h.1) hfault) (State.micro_of_fault rfl) (by omega)
  case string =>
    obtain ⟨hread, hen⟩ := State.callStringDescriptor_readsAs hc
    have hfault := (hread a).trans (State.romRead_outside ha)
    exact State.execute_descriptor h hp rfl rfl (congrArg some (State.askStringStep_some hc _ _))
      (State.readLength_faults (hen.trans h.1) hfault) (State.micro_of_fault rfl) (by omega)
  case low =>
    obtain ⟨hread, hen⟩ := State.callConfigurationDescriptor_readsAs hc
    have hfault := (hread (a + 2)).trans (State.romRead_outside ha)
    exact State.execute_descriptor h hp rfl rfl (congrArg some (State.askConfigurationStep_some hc _ _))
      (State.readTotalLow_faults (hen.trans h.1) hfault) (State.micro_of_fault rfl) (by omega)
  case high =>
    obtain ⟨hread, hen⟩ := State.callConfigurationDescriptor_readsAs hc
    have hfault := (hread (a + 3)).trans (State.romRead_outside ha)
    exact State.execute_descriptor h hp rfl rfl (congrArg some (State.askConfigurationStep_some hc _ _))
      (State.readTotalHigh_faults (hen.trans h.1) ((hread (a + 2)).trans hlo) hfault) (State.micro_of_fault rfl)
      (by omega)

end Sys2Proof.Machine
end

section
/-! PROOFS. Encoding and decoding are inverse to each other: the fields of a packet, and the two round trips
(O1, O2, O4). -/

namespace Sys2Proof

open Sys2Proof.Laws

/-! ## The fields of bmRequestType (30 R92) -/

@[simp] theorem dirOf_requestTypeByte (d : Dir) (t : BitVec 2) (r : Recipient) :
    dirOf (requestTypeByte d t r) = d := by
  simp only [dirOf, requestTypeByte, BitVec.getLsbD_append]
  cases d <;> rfl

@[simp] theorem typeOf_requestTypeByte (d : Dir) (t : BitVec 2) (r : Recipient) :
    typeOf (requestTypeByte d t r) = t := by
  simp only [typeOf, requestTypeByte]
  rw [BitVec.extractLsb'_append_eq_of_le (Nat.le_refl 5), Nat.sub_self, BitVec.extractLsb'_append_eq_right]

theorem bit_dirOf (b : Byte) : (dirOf b).bit = b.extractLsb' 7 1 := by
  refine BitVec.eq_of_getLsbD_eq fun i hi => ?_
  obtain rfl : i = 0 := by omega
  simp only [dirOf, BitVec.getLsbD_extractLsb']
  cases b.getLsbD 7 <;> rfl

theorem code_recipOf (b : Byte) : (recipOf b).code = b.extractLsb' 0 5 := by
  simp only [recipOf]
  split
  case h_5 => rfl
  all_goals exact BitVec.eq_of_toNat_eq (Eq.symm ‹_›)

theorem recipOf_wf (b : Byte) : (recipOf b).wf = true := by
  simp only [recipOf]
  split
  case h_5 h0 h1 h2 h3 =>
    simp only [imp_false] at h0 h1 h2 h3
    exact decide_eq_true (by omega)
  all_goals rfl

theorem requestTypeByte_fields (b : Byte) : requestTypeByte (dirOf b) (typeOf b) (recipOf b) = b := by
  simp only [requestTypeByte, bit_dirOf, code_recipOf, typeOf]
  rw [BitVec.extractLsb'_append_extractLsb'_eq_extractLsb' (start₂ := 7) rfl,
    BitVec.extractLsb'_append_extractLsb'_eq_extractLsb' (start₂ := 5) rfl]
  exact BitVec.extractLsb'_eq_self

theorem requestTypeByte_fields_of_type {b : Byte} {t : BitVec 2} (h : typeOf b = t) :
    requestTypeByte (dirOf b) t (recipOf b) = b := by
  rw [← h, requestTypeByte_fields]

/-- The type that the decoder's last case takes (30 R94). -/
theorem typeOf_eq_three {b : Byte} (h0 : (typeOf b).toNat ≠ 0) (h1 : (typeOf b).toNat ≠ 1)
    (h2 : (typeOf b).toNat ≠ 2) : typeOf b = 3 := by
  have h : (typeOf b).toNat < 4 := (typeOf b).isLt
  exact BitVec.eq_of_toNat_eq (show (typeOf b).toNat = 3 by omega)

/-! ## The 16-bit fields (30 R91) -/

@[simp] theorem loByte_half (lo hi : Byte) : loByte (half lo hi) = lo := BitVec.extractLsb'_append_eq_right

@[simp] theorem hiByte_half (lo hi : Byte) : hiByte (half lo hi) = hi := BitVec.extractLsb'_append_eq_left

@[simp] theorem half_loByte_hiByte (w : Half) : half (loByte w) (hiByte w) = w :=
  (BitVec.extractLsb'_append_extractLsb'_eq_extractLsb' rfl).trans BitVec.extractLsb'_eq_self

theorem decode_bytes (r : Request) : decode r.bytes = .ok (decodeRequest r) := by
  simp only [decode, Request.bytes, assemble, half_loByte_hiByte]

theorem bytes_assemble (b0 b1 b2 b3 b4 b5 b6 b7 : Byte) :
    (assemble b0 b1 b2 b3 b4 b5 b6 b7).bytes = [b0, b1, b2, b3, b4, b5, b6, b7] := by
  simp only [Request.bytes, assemble, loByte_half, hiByte_half]

/-! ## From the instruction to the packet and back -/

theorem decodeGetDescriptor_other {r : Request}
    (h : (hiByte r.wValue).toNat = 0 ∨ 4 ≤ (hiByte r.wValue).toNat) :
    decodeGetDescriptor r = .getDescriptorOther (dirOf r.bmRequestType) (recipOf r.bmRequestType)
      (hiByte r.wValue) (loByte r.wValue) r.wIndex r.wLength := by
  simp only [decodeGetDescriptor]
  split
  case h_4 => rfl
  all_goals omega

theorem decodeStandard_undefined {r : Request} (h : 0x0D ≤ r.bRequest.toNat) :
    decodeStandard r = .stdUndefined (dirOf r.bmRequestType) (recipOf r.bmRequestType)
      r.bRequest r.wValue r.wIndex r.wLength := by
  simp only [decodeStandard]
  split
  case h_14 => rfl
  all_goals omega

/-- Only the two rows that take what the rows before them leave need their codes to be well formed. -/
theorem decodeRequest_request {i : Instr} (h : i.wf = true) : decodeRequest i.request = i := by
  obtain ⟨hrecip, hcodes⟩ := Bool.and_eq_true_iff.mp h
  have hr : ∀ d t, recipOf (requestTypeByte d t i.recip) = i.recip :=
    fun d t => recipOf_requestTypeByte d t _ hrecip
  cases i with
  | getDescriptorOther d r t n x l =>
    have ht : t.toNat = 0 ∨ 4 ≤ t.toNat := of_decide_eq_true hcodes
    simp only [Instr.recip] at hr
    simp [Instr.request, descriptorRequest, standardRequest, decodeRequest, decodeStandard,
      decodeGetDescriptor_other, ht, hr]
  | stdUndefined d r q v x l =>
    have hq : 0x0D ≤ q.toNat := of_decide_eq_true hcodes
    simp only [Instr.recip] at hr
    simp [Instr.request, standardRequest, decodeRequest, decodeStandard_undefined, hq, hr]
  | _ =>
    simp only [Instr.recip] at hr
    simp [Instr.request, descriptorRequest, standardRequest, decodeRequest, decodeStandard, decodeGetDescriptor, hr]

/-- Settles O1: the bytes give back the request, and the request the instruction. -/
theorem decodeOfEncode : Obligations.DecodeOfEncode := by
  intro i h
  rw [encode, decode_bytes, decodeRequest_request h]

/-! ## From the packet to the instruction and back -/

theorem standardRequest_fields {r : Request} {q : Byte} (ht : typeOf r.bmRequestType = 0) (hq : r.bRequest = q) :
    standardRequest (dirOf r.bmRequestType) (recipOf r.bmRequestType) q r.wValue r.wIndex r.wLength = r := by
  simp only [standardRequest, requestTypeByte_fields_of_type ht, ← hq]

theorem descriptorRequest_fields {r : Request} {t : Byte} (ht : typeOf r.bmRequestType = 0) (hq : r.bRequest = 6)
    (hd : hiByte r.wValue = t) :
    descriptorRequest (dirOf r.bmRequestType) (recipOf r.bmRequestType) t (loByte r.wValue) r.wIndex r.wLength = r := by
  rw [descriptorRequest, ← hd, half_loByte_hiByte]
  exact standardRequest_fields ht hq

theorem request_decodeGetDescriptor {r : Request} (ht : typeOf r.bmRequestType = 0) (hq : r.bRequest = 6) :
    (decodeGetDescriptor r).request = r := by
  simp only [decodeGetDescriptor]
  split
  case h_4 => exact descriptorRequest_fields ht hq rfl
  all_goals exact descriptorRequest_fields ht hq (BitVec.eq_of_toNat_eq ‹_›)

theorem request_decodeStandard {r : Request} (ht : typeOf r.bmRequestType = 0) : (decodeStandard r).request = r := by
  simp only [decodeStandard]
  split
  case h_7 hq => exact request_decodeGetDescriptor ht (BitVec.eq_of_toNat_eq hq)
  case h_14 => exact standardRequest_fields ht rfl
  all_goals exact standardRequest_fields ht (BitVec.eq_of_toNat_eq ‹_›)

theorem request_decodeRequest (r : Request) : (decodeRequest r).request = r := by
  simp only [decodeRequest]
  split
  case h_1 ht => exact request_decodeStandard (BitVec.eq_of_toNat_eq ht)
  case h_4 h0 h1 h2 => simp only [Instr.request, requestTypeByte_fields_of_type (typeOf_eq_three h0 h1 h2)]
  all_goals
    simp only [Instr.request]
    rw [requestTypeByte_fields_of_type (BitVec.eq_of_toNat_eq ‹_›)]

theorem Instr.wf_of_recipOf {i : Instr} {b : Byte} (hr : i.recip = recipOf b) (hc : i.codesWf = true) :
    i.wf = true :=
  Bool.and_eq_true_iff.mpr ⟨hr ▸ recipOf_wf b, hc⟩

theorem decodeGetDescriptor_wf (r : Request) : (decodeGetDescriptor r).wf = true := by
  simp only [decodeGetDescriptor]
  split
  case h_4 h1 h2 h3 =>
    simp only [imp_false] at h1 h2 h3
    exact Instr.wf_of_recipOf rfl (decide_eq_true (by omega))
  all_goals exact Instr.wf_of_recipOf rfl rfl

theorem decodeStandard_wf (r : Request) : (decodeStandard r).wf = true := by
  simp only [decodeStandard]
  split
  case h_7 => exact decodeGetDescriptor_wf r
  case h_14 =>
    simp only [imp_false] at *
    exact Instr.wf_of_recipOf rfl (decide_eq_true (by omega))
  all_goals exact Instr.wf_of_recipOf rfl rfl

theorem decodeRequest_wf (r : Request) : (decodeRequest r).wf = true := by
  simp only [decodeRequest]
  split
  case h_1 => exact decodeStandard_wf r
  all_goals exact Instr.wf_of_recipOf rfl rfl

/-- Settles O2: the instruction of the assembled request has that request's fields, and they are the packet's bytes. -/
theorem encodeOfDecode : Obligations.EncodeOfDecode := by
  intro b0 b1 b2 b3 b4 b5 b6 b7
  refine ⟨_, rfl, decodeRequest_wf _, ?_⟩
  rw [encode, request_decodeRequest, bytes_assemble]

/-- Settles O4: eight closed packets, each evaluated. -/
theorem examplePacketsDecode : Obligations.ExamplePacketsDecode := by
  unfold Obligations.ExamplePacketsDecode
  decide

end Sys2Proof
end

section
/-! PROOFS. The scan of the opcode table (O3): a row looks at three fields of the decode key at most, the request type,
the code and the descriptor type, and so does the decoder. -/

namespace Sys2Proof

/-! ## Keys, byte by byte -/

/-- The decode key of a request, as its bytes (30 R112). -/
def Request.key (r : Request) : BitVec (8 + 8 + 8 + 8 + 8 + 8 + 8 + 8) :=
  hiByte r.wLength ++ loByte r.wLength ++ hiByte r.wIndex ++ loByte r.wIndex ++ hiByte r.wValue ++
    loByte r.wValue ++ r.bRequest ++ r.bmRequestType

theorem key_assemble (b0 b1 b2 b3 b4 b5 b6 b7 : Byte) :
    (assemble b0 b1 b2 b3 b4 b5 b6 b7).key = b7 ++ b6 ++ b5 ++ b4 ++ b3 ++ b2 ++ b1 ++ b0 := by
  simp only [Request.key, assemble, hiByte_half, loByte_half]

/-- A key with a descriptor type, a code and a request type, and 0 in every other bit: the `match` and the `mask` of
every row have this form. -/
def tableKey (desc code : Byte) (type : BitVec 2) : BitVec (8 + 8 + 8 + 8 + 8 + 8 + 8 + 8) :=
  0#8 ++ 0#8 ++ 0#8 ++ 0#8 ++ desc ++ 0#8 ++ code ++ (0#1 ++ type ++ 0#5 : Byte)

theorem append_eq_append_iff {v w : Nat} {x x' : BitVec v} {y y' : BitVec w} :
    x ++ y = x' ++ y' ↔ x = x' ∧ y = y' := by
  refine ⟨fun h => ⟨?_, ?_⟩, fun ⟨hx, hy⟩ => by rw [hx, hy]⟩
  · simpa only [BitVec.extractLsb'_append_eq_left] using congrArg (BitVec.extractLsb' w v) h
  · simpa only [BitVec.extractLsb'_append_eq_right] using congrArg (BitVec.extractLsb' 0 w) h

theorem tableKey_inj {d d' c c' : Byte} {t t' : BitVec 2} :
    tableKey d c t = tableKey d' c' t' ↔ d = d' ∧ c = c' ∧ t = t' := by
  simp only [tableKey, append_eq_append_iff, and_true, true_and, and_assoc]

theorem and_typeMask (b : Byte) (t : BitVec 2) :
    b &&& (0#1 ++ t ++ 0#5 : Byte) = (0#1 ++ (typeOf b &&& t) ++ 0#5 : Byte) := by
  have hb : b = (dirOf b).bit ++ typeOf b ++ (recipOf b).code := (requestTypeByte_fields b).symm
  calc b &&& (0#1 ++ t ++ 0#5 : Byte)
      = ((dirOf b).bit ++ typeOf b ++ (recipOf b).code) &&& (0#1 ++ t ++ 0#5) := by rw [← hb]
    _ = 0#1 ++ (typeOf b &&& t) ++ 0#5 := by simp only [BitVec.and_append, BitVec.and_zero]

theorem key_and_tableKey (r : Request) (d c : Byte) (t : BitVec 2) :
    r.key &&& tableKey d c t =
      tableKey (hiByte r.wValue &&& d) (r.bRequest &&& c) (typeOf r.bmRequestType &&& t) := by
  simp only [Request.key, tableKey, BitVec.and_append, BitVec.and_zero, and_typeMask]

/-! ## The three kinds of row -/

/-- A row for a request type, whatever the code. -/
def typeRow (m : String) (type : BitVec 2) : OpcodeRow :=
  ⟨m, tableKey 0#8 0#8 type, tableKey 0#8 0#8 (.allOnes 2)⟩

/-- A row for a code of type Standard. -/
def codeRow (m : String) (code : Byte) : OpcodeRow :=
  ⟨m, tableKey 0#8 code 0, tableKey 0#8 (.allOnes 8) (.allOnes 2)⟩

/-- A row for GET_DESCRIPTOR with a descriptor type. -/
def descriptorRow (m : String) (desc : Byte) : OpcodeRow :=
  ⟨m, tableKey desc 6 0, tableKey (.allOnes 8) (.allOnes 8) (.allOnes 2)⟩

theorem opcodeTable_eq : opcodeTable =
    [codeRow "GET_STATUS" 0x00, codeRow "CLEAR_FEATURE" 0x01, codeRow "STD_RESERVED_02" 0x02,
     codeRow "SET_FEATURE" 0x03, codeRow "STD_RESERVED_04" 0x04, codeRow "SET_ADDRESS" 0x05,
     descriptorRow "GET_DESCRIPTOR.DEVICE" 1, descriptorRow "GET_DESCRIPTOR.CONFIGURATION" 2,
     descriptorRow "GET_DESCRIPTOR.STRING" 3, codeRow "GET_DESCRIPTOR.OTHER" 0x06, codeRow "SET_DESCRIPTOR" 0x07,
     codeRow "GET_CONFIGURATION" 0x08, codeRow "SET_CONFIGURATION" 0x09, codeRow "GET_INTERFACE" 0x0A,
     codeRow "SET_INTERFACE" 0x0B, codeRow "SYNCH_FRAME" 0x0C, typeRow "STD_UNDEFINED" 0, typeRow "CLASS" 1,
     typeRow "VENDOR" 2, typeRow "RESERVED_TYPE" 3] := by
  decide

@[simp] theorem typeRow_mnemonic (m : String) (t : BitVec 2) : (typeRow m t).mnemonic = m := rfl
@[simp] theorem codeRow_mnemonic (m : String) (c : Byte) : (codeRow m c).mnemonic = m := rfl
@[simp] theorem descriptorRow_mnemonic (m : String) (d : Byte) : (descriptorRow m d).mnemonic = m := rfl

/-- A row selects a key by its masked fields. -/
theorem selects_key (r : Request) (m : String) (d c dm cm : Byte) (t tm : BitVec 2) :
    OpcodeRow.selects ⟨m, tableKey d c t, tableKey dm cm tm⟩ r.key =
      decide (hiByte r.wValue &&& dm = d ∧ r.bRequest &&& cm = c ∧ typeOf r.bmRequestType &&& tm = t) :=
  decide_eq_decide.mpr ((Eq.congr_left (key_and_tableKey r dm cm tm)).trans tableKey_inj)

@[simp] theorem typeRow_selects (r : Request) (m : String) (t : BitVec 2) :
    (typeRow m t).selects r.key = decide (typeOf r.bmRequestType = t) := by
  simp only [typeRow, selects_key, BitVec.and_zero, BitVec.and_allOnes, true_and]

@[simp] theorem codeRow_selects (r : Request) (m : String) (c : Byte) :
    (codeRow m c).selects r.key = decide (r.bRequest = c ∧ typeOf r.bmRequestType = 0) := by
  simp only [codeRow, selects_key, BitVec.and_zero, BitVec.and_allOnes, true_and]

@[simp] theorem descriptorRow_selects (r : Request) (m : String) (d : Byte) :
    (descriptorRow m d).selects r.key =
      decide (hiByte r.wValue = d ∧ r.bRequest = 6 ∧ typeOf r.bmRequestType = 0) := by
  simp only [descriptorRow, selects_key, BitVec.and_allOnes]

/-! ## The scan, along the decoder's cases -/

theorem tableMnemonic_descriptor {r : Request} (ht : typeOf r.bmRequestType = 0) (hq : r.bRequest = 6) :
    tableMnemonic r.key = some (decodeGetDescriptor r).mnemonic := by
  simp only [decodeGetDescriptor]
  split
  case h_4 h1 h2 h3 =>
    simp only [imp_false] at h1 h2 h3
    simp [tableMnemonic, opcodeTable_eq, Instr.mnemonic, ht, hq, ← BitVec.toNat_inj, h1, h2, h3]
  all_goals
    rename_i hd
    simp [tableMnemonic, opcodeTable_eq, Instr.mnemonic, ht, hq, ← BitVec.toNat_inj, hd]

theorem tableMnemonic_standard {r : Request} (ht : typeOf r.bmRequestType = 0) :
    tableMnemonic r.key = some (decodeStandard r).mnemonic := by
  simp only [decodeStandard]
  split
  case h_7 hq => exact tableMnemonic_descriptor ht (BitVec.eq_of_toNat_eq hq)
  case h_14 =>
    simp only [imp_false] at *
    simp [tableMnemonic, opcodeTable_eq, Instr.mnemonic, ← BitVec.toNat_inj, *]
  all_goals
    rename_i hq
    simp [tableMnemonic, opcodeTable_eq, Instr.mnemonic, ht, ← BitVec.toNat_inj, hq]

theorem tableMnemonic_key (r : Request) : tableMnemonic r.key = some (decodeRequest r).mnemonic := by
  simp only [decodeRequest]
  split
  case h_1 ht => exact tableMnemonic_standard (BitVec.eq_of_toNat_eq ht)
  case h_4 h0 h1 h2 => simp [tableMnemonic, opcodeTable_eq, Instr.mnemonic, typeOf_eq_three h0 h1 h2]
  all_goals
    rename_i ht
    simp [tableMnemonic, opcodeTable_eq, Instr.mnemonic, ← BitVec.toNat_inj, ht]

/-- Settles O3: the packet's bytes are the key of the request assembled of them. -/
theorem decoderScansOpcodeTable : Obligations.DecoderScansOpcodeTable := by
  intro b0 b1 b2 b3 b4 b5 b6 b7
  exact ⟨_, rfl, key_assemble b0 b1 b2 b3 b4 b5 b6 b7 ▸ tableMnemonic_key _⟩

end Sys2Proof
end

section
/-! PROOFS. Writes and reads of the endpoint-controller registers (O50). -/

namespace Sys2Proof.Machine

/-! ## Replacing the selected endpoint -/

@[simp] theorem State.selected_setSelected (s : State) (e : Ep) : (s.setSelected e).selected = e :=
  Eps.get_set_self s.eps s.epc.sel e

@[simp] theorem State.setSelected_setSelected (s : State) (e f : Ep) :
    (s.setSelected e).setSelected f = s.setSelected f := by
  simp [State.setSelected, State.setEp]

@[simp] theorem State.setSelected_selected (s : State) : s.setSelected s.selected = s := by
  simp [State.setSelected, State.setEp, State.selected_eq]

/-! ## The guarded primitives as conditionals -/

theorem State.commitIn_eq (s : State) :
    s.commitIn = if s.selected.en = true ∧ s.selected.txin = true then
      s.setSelected { s.selected with inq := some s.selected.fifo, fifo := [], txin := false } else s := by
  simp only [State.commitIn, Bool.and_eq_true]

theorem State.releaseOut_eq (s : State) :
    s.releaseOut = if s.selected.en = true ∧ s.selected.rxout = true then
      s.setSelected { s.selected with fifo := [], rxout := false } else s := by
  simp only [State.releaseOut, Bool.and_eq_true]

theorem State.consumeSetup_eq (s : State) :
    s.consumeSetup = if s.selected.en = true ∧ s.selected.rxstp = true then
      s.setSelected { s.selected with fifo := [], rxstp := false, txin := true } else s := by
  simp only [State.consumeSetup, Bool.and_eq_true]

theorem State.fifoWrite_eq (s : State) (b : Byte) :
    s.fifoWrite b =
      if s.selected.en = false ∨ s.selected.rxstp = true then .ok s
      else if s.selected.fifo.length < bankBytes s.selected.size ∧ s.selected.inq = none then
        .ok (s.setSelected { s.selected with fifo := s.selected.fifo ++ [b] })
      else .error .fifoOverflow := by
  simp only [State.fifoWrite, Bool.or_eq_true, Bool.not_eq_eq_eq_not, Bool.not_true]

/-! ## EPCTL, in whatever order its actions come (30 R117) -/

@[simp] theorem State.epDisable_stallClear (s : State) : s.stallClear.epDisable = s.epDisable := by
  simp [State.stallClear, State.epDisable]

@[simp] theorem State.epDisable_stallRequest (s : State) : s.stallRequest.epDisable = s.epDisable := by
  rcases s.stallRequest_cases with ⟨_, h⟩ | ⟨_, h⟩ <;> simp [h, State.epDisable]

@[simp] theorem State.stallClear_epDisable (s : State) : s.epDisable.stallClear = s.epDisable := by
  simp [State.stallClear, State.epDisable, Ep.blank]

@[simp] theorem State.stallRequest_epDisable (s : State) : s.epDisable.stallRequest = s.epDisable := by
  simp [State.stallRequest, State.epDisable, Ep.blank]

/-- The stall bits do nothing beside EP_DISABLE, before it or after it. -/
theorem State.writeEpctl_disable {s : State} {b : Byte} (h : b.getLsbD 0 = false) : s.writeEpctl b = s.epDisable := by
  simp only [State.writeEpctl, h]
  cases Config.epctlEpenPlace <;> cases Config.epctlStallReqLast <;> simp [apply_ite State.epDisable]

/-- EP_ENABLE and STALL_CLR write different fields, so they commute. -/
theorem State.writeEpctl_enable {s : State} {b : Byte} (h0 : b.getLsbD 0 = true) (h5 : b.getLsbD 5 = false) :
    s.writeEpctl b = s.setSelected
      { s.selected with en := true, stallReq := if b.getLsbD 4 then false else s.selected.stallReq } := by
  simp only [State.writeEpctl, h0, h5]
  cases Config.epctlEpenPlace <;> cases Config.epctlStallReqLast <;> cases b.getLsbD 4 <;>
    simp [State.epEnable, State.stallClear]

/-- On an enabled endpoint EP_ENABLE changes nothing that STALL_REQ looks at. -/
theorem State.writeEpctl_stall {s : State} {b : Byte} (h0 : b.getLsbD 0 = true) (h5 : b.getLsbD 5 = true)
    (h4 : b.getLsbD 4 = false) (hen : s.selected.en = true) :
    s.writeEpctl b = s.setSelected { s.selected with stallReq := true } := by
  simp only [State.writeEpctl, h0, h5, h4]
  cases Config.epctlEpenPlace <;> cases Config.epctlStallReqLast <;>
    simp [State.epEnable, State.stallRequest, hen]

/-! ## The bits of a register as it reads -/

theorem getLsbD_flagBit (c : Bool) {pos : Nat} (h : pos < 8) (n : Nat) :
    (flagBit c pos).getLsbD n = (decide (n = pos) && c) := by
  cases c with
  | false => simp [flagBit]
  | true =>
    simp only [flagBit, if_true, BitVec.getLsbD_ofNat, Nat.testBit_two_pow, eq_comm (a := pos), Bool.and_true]
    by_cases hn : n = pos <;> simp [hn, h]

theorem getLsbD_append_zero {w : Nat} (x : BitVec w) (k n : Nat) :
    (x ++ 0#k).getLsbD n = (decide (k ≤ n) && x.getLsbD (n - k)) := by
  rw [BitVec.getLsbD_append]
  by_cases hn : n < k
  · rw [if_pos hn, BitVec.getLsbD_zero, decide_eq_false (Nat.not_le.mpr hn), Bool.false_and]
  · rw [if_neg hn, decide_eq_true (Nat.not_lt.mp hn), Bool.true_and]

theorem getLsbD_zero_append {w : Nat} (x : BitVec w) (k n : Nat) : (0#k ++ x).getLsbD n = x.getLsbD n := by
  rw [BitVec.getLsbD_append]
  by_cases hn : n < w
  · rw [if_pos hn]
  · rw [if_neg hn, BitVec.getLsbD_zero, BitVec.getLsbD_of_ge x n (Nat.not_lt.mp hn)]

/-- ADDR: the flag above the seven bits of the address (30 R115). -/
theorem getLsbD_flag_append (c : Bool) (a : BitVec 7) (n : Nat) :
    ((if c then 1#1 else 0#1) ++ a).getLsbD n = if n = 7 then c else a.getLsbD n := by
  rw [BitVec.getLsbD_append]
  rcases Nat.lt_trichotomy n 7 with hn | rfl | hn
  · rw [if_pos hn, if_neg (Nat.ne_of_lt hn)]
  · cases c <;> rfl
  · rw [if_neg (Nat.lt_asymm hn), if_neg (Nat.ne_of_gt hn), BitVec.getLsbD_of_ge a n (Nat.le_of_lt hn)]
    exact BitVec.getLsbD_of_ge _ _ (by omega)

/-- EPCFG0: the type in bits 7:6 and the direction in bit 0 (30 R118). -/
theorem getLsbD_type_or_flagBit (t : BitVec 2) (c : Bool) (n : Nat) :
    ((t ++ 0#6 : Byte) ||| flagBit c 0).getLsbD n = if n = 0 then c else decide (6 ≤ n) && t.getLsbD (n - 6) := by
  have ht : BitVec.getLsbD (w := 8) (t ++ 0#6) n = _ := getLsbD_append_zero t 6 n
  rw [BitVec.getLsbD_or, ht, getLsbD_flagBit c (by decide)]
  by_cases hn : n = 0 <;> simp [hn]

/-- EPCFG1: the size in bits 5:4 (30 R119). -/
theorem getLsbD_size (z : BitVec 2) (n : Nat) :
    (0#2 ++ z ++ 0#4).getLsbD n = (decide (4 ≤ n) && z.getLsbD (n - 4)) := by
  rw [getLsbD_append_zero, getLsbD_zero_append]

theorem State.regRead_state {s : State} {r : Reg} (h : r ≠ .epdat) : (s.regRead r).2 = s := by
  cases r with
  | epdat => exact absurd rfl h
  | _ => rfl

/-! ## Every register -/

/-- Settles O50, register by register; each write is its primitive. -/
theorem registerWrites : Obligations.RegisterWrites := by
  intro s b
  refine ⟨⟨rfl, fun n hn => ?epsel, fun hn => ?epselFault, fun h0 => ?disable, fun h0 h5 => ?enable,
      fun h0 h5 h4 hen => ?stall⟩,
    ⟨rfl, fun h6 => ?epcfg1Fault, fun h6 => ?epcfg1⟩,
    ⟨?none, ?commit, ?release, ?consume, ?nakout, ?nakin, ?order⟩,
    ⟨rfl, s.fifoWrite_eq b⟩,
    ⟨fun h3 => ?ack, fun h3 => ?keep, rfl, fun h0 => ?attach, fun h0 ha => ?detach⟩,
    ⟨fun r => State.regRead_state, fun c bs hen hf => ?epdatRead, getLsbD_flag_append _ _, ?epselRead,
      fun n => ?epctlRead, getLsbD_type_or_flagBit _ _, getLsbD_size _, fun n => ?epintRead, ?epbcRead, fun n => ?devintRead,
      fun n => ?devienRead, fun n => ?devconRead⟩⟩
  case epsel =>
    have hnum : (b.extractLsb' 0 3).toNat = n.val := by simp [hn]
    simp only [State.regWrite, hnum, State.select_num]
  case epselFault =>
    have hnum : ¬ (b.extractLsb' 0 3).toNat < 5 := by simpa using hn
    simp only [State.regWrite, State.select, dif_neg hnum]
  case disable => simp only [State.regWrite, State.writeEpctl_disable h0, State.epDisable]
  case enable => simp only [State.regWrite, State.writeEpctl_enable h0 h5]
  case stall => simp only [State.regWrite, State.writeEpctl_stall h0 h5 h4 hen]
  case epcfg1Fault => simp only [State.regWrite, h6, if_true]
  case epcfg1 => simp only [State.regWrite, State.epConfig, h6, Bool.false_eq_true, if_false]
  case none => simp [State.regWrite, State.writeEpint]
  case commit => simp [State.regWrite, State.writeEpint, s.commitIn_eq]
  case release => simp [State.regWrite, State.writeEpint, s.releaseOut_eq]
  case consume => simp [State.regWrite, State.writeEpint, s.consumeSetup_eq]
  case nakout => simp [State.regWrite, State.writeEpint, State.clearNakout]
  case nakin => simp [State.regWrite, State.writeEpint, State.clearNakin]
  case order => simp [State.regWrite, State.writeEpint, Except.bind]
  case ack => simp only [State.regWrite, State.eventAck, h3, Bool.false_eq_true, if_false]
  case keep => simp only [State.regWrite, h3, if_true]
  case attach => simp only [State.regWrite, State.attach, h0, Bool.false_eq_true, if_false]
  case detach => simp only [State.regWrite, h0, ha, if_true]
  case epdatRead => simp only [State.regRead, State.fifoRead, hen, hf]
  case epselRead => exact (BitVec.toNat_ofNat _ _).trans (Nat.mod_eq_of_lt (by omega))
  case epbcRead => exact BitVec.toNat_ofNat _ _
  case epintRead => simp [State.regRead, State.epintByte, getLsbD_flagBit]
  case epctlRead | devintRead | devienRead | devconRead => simp [State.regRead, getLsbD_flagBit]

end Sys2Proof.Machine
end

section
/-! PROOFS. The endpoints, whatever agent moves: a disabled one stays quiet (O52), and every bank keeps one owner (O53). -/

namespace Sys2Proof.Machine

variable {n : EpNum} {e e' : Ep}

/-! ## Disabled endpoints (40 R149) -/

theorem Ep.quietWhenDisabled_of_en (h : e.en = true) : e.quietWhenDisabled := fun hd => by simp [h] at hd

/-- A reset leaves an endpoint quiet unless it is enabled, whatever it held (40 R133). -/
theorem Ep.fifoReset_quiet (e : Ep) : e.fifoReset.quietWhenDisabled := fun hd =>
  ⟨rfl, hd, rfl, rfl, rfl, rfl, rfl, rfl⟩

/-- The engine enables, configures or resets a disabled endpoint, and does nothing else to it. -/
theorem Ep.Effect.quiet (h : e.Effect e') (hq : e.quietWhenDisabled) : e'.quietWhenDisabled := by
  cases h with
  | enable => exact quietWhenDisabled_of_en rfl
  | config => exact hq
  | fifoReset => exact e.fifoReset_quiet
  | write _ hen | read _ _ hen | commit hen | commitApart _ hen | release hen | consume hen | stall hen =>
    exact quietWhenDisabled_of_en hen

/-- The host reaches enabled endpoints alone. -/
theorem Ep.HostEffect.quiet (h : e.HostEffect n e') : e'.quietWhenDisabled := by
  cases h with
  | setup _ _ hen | taken _ hen | nakIn hen | nakOut hen | status _ hen | data _ hen =>
    exact quietWhenDisabled_of_en hen

/-- Settles O52, by induction over the step, endpoint by endpoint. -/
theorem stepKeepsDisabledQuiet : Obligations.StepKeepsDisabledQuiet := by
  intro s t hs hstep
  exact step_induct_ep (P := fun _ e => e.quietWhenDisabled) (fun _ _ _ hq he => he.quiet hq)
    (fun _ _ _ _ he => he.quiet) (fun _ _ => ⟨rfl, rfl, rfl, rfl, rfl, rfl, rfl, rfl⟩)
    (fun _ _ => Ep.quietWhenDisabled_of_en rfl) hs hstep

/-! ## The owner of a bank (40 R137, R152) -/

/-- A bank with no setup pending is owned once a free one has nothing committed. -/
theorem Ep.owned_of_no_setup (hs : e.rxstp = false) (hq : e.txin = true → e.inq = none) : e.owned :=
  ⟨hq, fun h => by simp [hs] at h⟩

/-- A pending setup leaves no free bank and nothing committed, so either of these rules one out. -/
theorem Ep.owned.no_setup (h : e.owned) (hb : e.txin = true ∨ e.inq ≠ none) : e.rxstp = false := by
  refine Bool.eq_false_iff.mpr fun hs => ?_
  obtain ⟨ht, _, hq⟩ := h.2 hs
  simp [ht, hq] at hb

/-- A commit finds the bank free, so no setup is pending; a setup that is consumed had left nothing committed. -/
theorem Ep.Effect.owned (h : e.Effect e') (ho : e.owned) : e'.owned := by
  cases h with
  | enable | config | write | read | stall => exact ho
  | fifoReset => exact owned_of_no_setup rfl fun _ => rfl
  | commit _ ht | commitApart _ _ ht => exact owned_of_no_setup (ho.no_setup (.inl ht)) nofun
  | release =>
    obtain ⟨hfree, hsetup⟩ := ho
    exact ⟨hfree, fun hs => (hsetup hs).imp_right fun ⟨_, hq⟩ => ⟨rfl, hq⟩⟩
  | consume _ hs =>
    obtain ⟨_, _, hq⟩ := ho.2 hs
    exact owned_of_no_setup rfl fun _ => hq

/-- No micro-step makes a setup pending. -/
theorem Ep.Effect.rxstp (h : e.Effect e') (hs : e.rxstp = false) : e'.rxstp = false := by
  cases h with
  | fifoReset | consume => rfl
  | enable | config | write | read | commit | commitApart | release | stall => exact hs

/-- Only a setup transaction makes a setup pending, on endpoint 0. -/
theorem Ep.HostEffect.rxstp (h : e.HostEffect n e') (hn : n ≠ 0) (hs : e.rxstp = false) : e'.rxstp = false := by
  cases h with
  | setup _ h0 => exact absurd h0 hn
  | taken | nakIn | nakOut | status | data => exact hs

/-- An OUT is accepted only with no setup pending: on endpoint 0 the rule tests it, and elsewhere there never is one. -/
theorem Ep.HostEffect.owned (h : e.HostEffect n e') (ho : e.owned) (hn : n ≠ 0 → e.rxstp = false) :
    e'.owned := by
  cases h with
  | setup => exact ⟨nofun, fun _ => ⟨rfl, rfl, rfl⟩⟩
  | taken p _ hq => exact owned_of_no_setup (ho.no_setup (.inr (by simp [hq]))) fun _ => rfl
  | nakIn | nakOut => exact ho
  | status _ _ hs => exact owned_of_no_setup hs fun _ => rfl
  | data p _ h0 => exact owned_of_no_setup ((em (n = 0)).elim h0 hn) ho.1

/-- Settles O53, by induction over the step, endpoint by endpoint: the two parts together, because the host's OUT to
endpoints 1 to 4 rests on the second. -/
theorem stepKeepsBanksOwned : Obligations.StepKeepsBanksOwned := by
  intro s t ⟨hown, hzero⟩ hstep
  have h := step_induct_ep (P := fun n e => e.owned ∧ (n ≠ 0 → e.rxstp = false))
    (fun _ _ _ ⟨ho, hs⟩ he => ⟨he.owned ho, fun hn => he.rxstp (hs hn)⟩)
    (fun _ _ _ ⟨ho, hs⟩ he => ⟨he.owned ho hs, fun hn => he.rxstp hn (hs hn)⟩)
    (fun _ => ⟨Ep.owned_of_no_setup rfl fun _ => rfl, fun _ => rfl⟩)
    (fun _ _ => ⟨Ep.owned_of_no_setup rfl fun _ => rfl, fun _ => rfl⟩)
    (fun n => ⟨hown n, hzero n⟩) hstep
  exact ⟨fun n => (h n).1, fun n => (h n).2⟩

end Sys2Proof.Machine
end

section
/-! PROOFS. The host's transactions, one by one (O37 to O42): which endpoint it reaches, and the branches of
its rule, each with the state it leaves. -/

namespace Sys2Proof.Machine

variable {s u : State} {tx : HostTx} {a : BitVec 7} {n : EpNum} {p : List Byte}

/-! ## A step of the host -/

/-- A step that takes the host's choice is its transaction, or no move where there is none. -/
theorem step_host (h : s.chooses (.host tx) u) : step s = .next ((u.hostStep tx).getD u) := by
  obtain ⟨hf, hm⟩ := h
  simp only [step, State.route_take hf, hm, State.take]

theorem State.hostStep_detached (h : s.epc.attached = false) (tx : HostTx) : s.hostStep tx = none := by
  simp [State.hostStep, h]

theorem State.hostStep_busReset (h : s.epc.attached = true) : s.hostStep .busReset = some s.busReset := by
  simp [State.hostStep, h]

theorem State.hostStep_setup (h : s.epc.attached = true) (a : BitVec 7) (bs : List Byte) :
    s.hostStep (.setup a bs) = s.hostSetup a bs := by
  simp [State.hostStep, h]

theorem State.hostStep_tokenIn (h : s.epc.attached = true) (a : BitVec 7) (e : Nat) :
    s.hostStep (.tokenIn a e) = some (s.hostIn a e) := by
  simp [State.hostStep, h]

theorem State.hostStep_tokenOut (h : s.epc.attached = true) (a : BitVec 7) (e : Nat) (p : List Byte) :
    s.hostStep (.tokenOut a e p) = s.hostOut a e p := by
  simp [State.hostStep, h]

/-! ## Which endpoint a transaction reaches (40 R150) -/

theorem State.hostIn_outside (s : State) (a : BitVec 7) {e : Nat} (h : 5 ≤ e) :
    s.hostIn a e = s.answer (.tokenIn a e) .timeout := by
  simp [State.hostIn, Nat.not_lt.mpr h]

theorem State.hostOut_outside (s : State) (a : BitVec 7) (p : List Byte) {e : Nat} (h : 5 ≤ e) :
    s.hostOut a e p = some (s.answer (.tokenOut a e p) .timeout) := by
  simp [State.hostOut, Nat.not_lt.mpr h]

theorem State.hostIn_num (s : State) (a : BitVec 7) (n : EpNum) :
    s.hostIn a n.val =
      if a ≠ s.epc.deviceAddress ∨ (s.ep n).en = false ∨ (n ≠ 0 ∧ (s.ep n).dir = .toDevice) then
        s.answer (.tokenIn a n.val) .timeout
      else s.hostInAt (.tokenIn a n.val) n := by
  simp only [State.hostIn, n.isLt, dite_true]

/-- Endpoint 0 takes both directions. -/
theorem State.hostOut_zero (a : BitVec 7) (h : p.length ≤ bankBytes (s.ep 0).size) :
    s.hostOut a 0 p = some
      (if a ≠ s.epc.deviceAddress ∨ (s.ep 0).en = false then s.answer (.tokenOut a 0 p) .timeout
      else s.hostOut0 (.tokenOut a 0 p) p) := by
  simp [State.hostOut, Nat.not_lt.mpr h, apply_ite some]

theorem State.hostOut_num (a : BitVec 7) (hn : n ≠ 0) (h : p.length ≤ bankBytes (s.ep n).size) :
    s.hostOut a n.val p = some
      (if a ≠ s.epc.deviceAddress ∨ (s.ep n).en = false ∨ (s.ep n).dir = .toHost then
        s.answer (.tokenOut a n.val p) .timeout
      else s.hostOutAt (.tokenOut a n.val p) n p) := by
  simp [State.hostOut, hn, Nat.not_lt.mpr h, apply_ite some]

/-! ## A setup transaction (40 R152) -/

theorem State.hostSetup_pending (h : (s.ep 0).rxstp = true) (a : BitVec 7) (bs : List Byte) :
    s.hostSetup a bs = none := by
  simp [State.hostSetup, h]

/-- Eight bytes are the bank's as they are, with no draw. -/
theorem State.hostSetup_eight (h : ¬(s.ep 0).rxstp = true) (a : BitVec 7) {bs : List Byte} (hb : bs.length = 8) :
    s.hostSetup a bs = some
      (if a ≠ s.epc.deviceAddress ∨ (s.ep 0).en = false then s.answer (.setup a bs) .timeout
      else
        State.answer { s.setEp 0 ((s.ep 0).withSetup bs) with ctrlDir := dirOf (bs.headD 0) } (.setup a bs) .ack) := by
  simp only [State.hostSetup, if_neg h, s.setupBytes_eight hb, apply_ite some]

/-! ## The transactions -/

/-- Settles O37: the transaction is `State.busReset`, which is the rule's update. -/
theorem busResetDisablesEndpoints : Obligations.BusResetDisablesEndpoints := by
  intro s u h ha
  rw [step_host h, State.hostStep_busReset ha]
  rfl

/-- Settles O38: a setup is pending, or the transaction is unanswered, or it is accepted. -/
theorem setupTransactions : Obligations.SetupTransactions := by
  intro s u a b0 b1 b2 b3 b4 b5 b6 b7 h ha
  rw [step_host h, State.hostStep_setup ha]
  by_cases hpending : (u.ep 0).rxstp = true
  · rw [State.hostSetup_pending hpending, Option.getD_none, if_pos hpending]
  · rw [State.hostSetup_eight hpending a rfl, Option.getD_some, if_neg hpending]
    refine congrArg _ (if_congr Iff.rfl ?timeout ?ack)
    case timeout | ack => rfl

/-- Settles O39: there is no transaction before attachment, and none reaches an endpoint from 5 on. -/
theorem unansweredTransactions : Obligations.UnansweredTransactions := by
  intro s u tx h
  refine ⟨fun ha => ?detached, fun a e htx ha he => ?tokenIn, fun a e p htx ha he => ?tokenOut⟩
  case detached => rw [step_host h, State.hostStep_detached ha, Option.getD_none]
  case tokenIn =>
    subst htx
    rw [step_host h, State.hostStep_tokenIn ha, State.hostIn_outside u a he]
    rfl
  case tokenOut =>
    subst htx
    rw [step_host h, State.hostStep_tokenOut ha, State.hostOut_outside u a p he]
    rfl

/-- Settles O40: the IN is unanswered, or stalled, or answered by the packet that is committed or by NAK. -/
theorem inTransactions : Obligations.InTransactions := by
  intro s u a n h ha
  rw [step_host h, State.hostStep_tokenIn ha, State.hostIn_num, Option.getD_some]
  refine congrArg _ (if_congr Iff.rfl ?timeout (if_congr Iff.rfl ?stall ?committed))
  case timeout | stall => rfl
  case committed => rfl

/-- Settles O41: the OUT is unanswered, or stalled, or accepted or refused by its direction's test. -/
theorem outTransactionsToEndpointZero : Obligations.OutTransactionsToEndpointZero := by
  intro s u a p h ha hp
  rw [step_host h, State.hostStep_tokenOut ha, State.hostOut_zero a hp, Option.getD_some]
  refine congrArg _ (if_congr Iff.rfl ?timeout (if_congr Iff.rfl ?stall (if_congr Iff.rfl ?read ?write)))
  case timeout | stall => rfl
  case read | write => exact if_congr Iff.rfl rfl rfl

/-- Settles O42: the OUT is unanswered, or stalled, or accepted unless a packet waits. -/
theorem outTransactionsToOtherEndpoints : Obligations.OutTransactionsToOtherEndpoints := by
  intro s u a n p h ha hn hp
  rw [step_host h, State.hostStep_tokenOut ha, State.hostOut_num a hn hp, Option.getD_some]
  refine congrArg _ (if_congr Iff.rfl ?timeout (if_congr Iff.rfl ?stall (if_congr Iff.rfl ?ack ?nak)))
  case timeout | stall | ack | nak => rfl

end Sys2Proof.Machine
end

section
/-! PROOFS. The device state machine: what the engine has still to run writes at most the device state that the table of
41 R191 gives next, and so a step changes the device state only along the table (O55, O59). -/

namespace Sys2Proof.Machine

/-! ## The device states a program writes and the instructions it leads to -/

/-- A program writes the device states `ds` and leads to at most `n` instructions. -/
def StateProgram (ds : List DeviceState) (n : Nat) (k : List Stmt) : Prop :=
  k.filterMap Stmt.writesState = ds ∧ k.countP Stmt.leadsToInstr ≤ n

section StateProgram

variable {ds es : List DeviceState} {m n : Nat} {st : Stmt} {k l : List Stmt} {d : DeviceState}

theorem stateProgram_nil : StateProgram [] 0 [] := ⟨rfl, Nat.le_refl 0⟩

theorem StateProgram.mono (h : StateProgram ds m k) (hmn : m ≤ n) : StateProgram ds n k :=
  ⟨h.1, h.2.trans hmn⟩

theorem StateProgram.append (hl : StateProgram ds m l) (hk : StateProgram es n k) :
    StateProgram (ds ++ es) (m + n) (l ++ k) := by
  refine ⟨?_, ?_⟩
  · rw [List.filterMap_append, hl.1, hk.1]
  · rw [List.countP_append]
    exact Nat.add_le_add hl.2 hk.2

theorem Stmt.writesState_eq_none (h : ∀ d, st ≠ .setDevState d) : st.writesState = none := by
  cases st with
  | setDevState d => exact absurd rfl (h d)
  | _ => rfl

/-- What is left after a statement that writes no device state leads to one instruction less where the statement leads to
one. -/
theorem StateProgram.tail (h : StateProgram ds n (st :: k)) (hw : st.writesState = none) :
    ∃ m, n = st.leadsToInstr.toNat + m ∧ StateProgram ds m k := by
  obtain ⟨hds, hn⟩ := h
  rw [List.filterMap_cons_none hw] at hds
  have hcount : (st :: k).countP Stmt.leadsToInstr = st.leadsToInstr.toNat + k.countP Stmt.leadsToInstr := by
    rw [List.countP_cons]
    cases st.leadsToInstr <;> simp [Nat.add_comm]
  obtain ⟨m, rfl⟩ := Nat.exists_eq_add_of_le (show st.leadsToInstr.toNat ≤ n by omega)
  exact ⟨m, rfl, hds, by omega⟩

theorem StateProgram.leadsToInstr_head (h : StateProgram ds 0 (st :: k)) : st.leadsToInstr = false := by
  simpa using List.countP_eq_zero.mp (Nat.le_zero.mp h.2) st List.mem_cons_self

theorem stateProgram_setDevState :
    StateProgram ds n (.setDevState d :: k) ↔ ∃ es, ds = d :: es ∧ StateProgram es n k := by
  simp [StateProgram, Stmt.writesState, Stmt.leadsToInstr, eq_comm]

end StateProgram

/-! ## The programs of the model -/

theorem taskProgram_stateProgram : StateProgram [] 1 taskProgram := ⟨rfl, by decide⟩

theorem stallPath_stateProgram : StateProgram [] 0 stallPath := ⟨rfl, by decide⟩

/-- A handler starts with at most one test. -/
theorem handlerOf_stateProgram (i : Instr) : StateProgram [] 1 (handlerOf i) := by
  cases i <;> simp [StateProgram, handlerOf, Stmt.writesState, Stmt.leadsToInstr]

/-- A test leads to no write and to at most one further test, or, where the present state is the one the request is legal in,
to the write of the next (43 R241, R243, R250, R252). -/
theorem checkProgram_stateProgram (s : State) (c : Check) :
    StateProgram [] 1 (s.checkProgram c) ∨
      ∃ d, s.core.devState.next = some d ∧ StateProgram [d] 0 (s.checkProgram c) := by
  rcases s.checkProgram_cases c with h | ⟨_, h⟩ | ⟨_, _, _, h⟩ | ⟨_, _, _, h⟩ | ⟨_, _, _, _, hd, h⟩ |
    ⟨_, _, _, _, hd, h⟩ | ⟨_, h⟩ | ⟨_, h⟩ | ⟨_, _, _, h⟩ | ⟨_, h⟩ <;> rw [h]
  case inr.inr.inr.inr.inl => exact .inr ⟨.address, by rw [hd]; rfl, rfl, Nat.le_refl 0⟩
  case inr.inr.inr.inr.inr.inl => exact .inr ⟨.configured, by rw [hd]; rfl, rfl, Nat.le_refl 0⟩
  all_goals exact .inl (by simp [StateProgram, Stmt.writesState, Stmt.leadsToInstr, statusReply, controlIn])

theorem serveNext_stateProgram (n m : Nat) : StateProgram [] 0 [serveNext n m] := by
  unfold serveNext; split <;> exact ⟨rfl, Nat.le_refl 0⟩

theorem builtInString_stateProgram (p : Params) (v : Half) : StateProgram [] 0 (builtInString p v) := by
  unfold builtInString
  split
  · exact ⟨rfl, Nat.le_refl 0⟩
  · split <;> exact ⟨rfl, Nat.le_refl 0⟩

theorem vendorProgram_stateProgram {a : VendorAnswer} {p : List Stmt} (h : vendorProgram a = some p) :
    StateProgram [] 0 p := by
  cases a <;> cases h <;> exact ⟨rfl, Nat.le_refl 0⟩

theorem configured_stateProgram (eds : List EndpointDesc) :
    StateProgram [] 0 (eds.map (.configure .test)) := by
  simp [StateProgram, Stmt.writesState, Stmt.leadsToInstr]

/-- What follows a statement that is no test writes no device state, and leads to an instruction only where the statement
does. -/
theorem Stmt.Next.stateProgram {st : Stmt} {l : List Stmt} (h : st.Next l) (hc : ∀ c, st ≠ .check c) :
    StateProgram [] st.leadsToInstr.toNat l := by
  cases h with
  | check c s => exact absurd rfl (hc c)
  | done => exact stateProgram_nil.mono (Nat.zero_le _)
  | bound n m | served _ _ n m => exact serveNext_stateProgram n m
  | builtIn v x p => exact builtInString_stateProgram p v
  | vendor a p h => exact vendorProgram_stateProgram h
  | configured eds => exact configured_stateProgram eds
  | _ => exact ⟨rfl, by simp [List.countP_cons, Stmt.leadsToInstr, Machine.initTail, statusReply, Machine.controlIn]⟩

/-- A statement that is no test and no write of the device state changes nothing of what is still to be written. -/
theorem StateProgram.next {ds : List DeviceState} {n : Nat} {st : Stmt} {k l : List Stmt}
    (h : StateProgram ds n (st :: k)) (hl : st.Next l) (hc : ∀ c, st ≠ .check c)
    (hd : ∀ d, st ≠ .setDevState d) : StateProgram ds n (l ++ k) := by
  obtain ⟨m, rfl, hk⟩ := h.tail (Stmt.writesState_eq_none hd)
  exact (hl.stateProgram hc).append hk

/-! ## The invariant -/

/-- Either no write is pending and at most one instruction is to come, or the table's next state is to be written and no
instruction is to come. -/
theorem State.stateMachineInv_iff {s : State} :
    s.StateMachineInv ↔ StateProgram [] 1 s.cont ∨
      ∃ d, s.core.devState.next = some d ∧ StateProgram [d] 0 s.cont := by
  have hzero : s.cont.countP Stmt.leadsToInstr ≤ 0 ↔ ∀ st ∈ s.cont, st.leadsToInstr = false := by
    simp [List.countP_eq_zero]
  simp only [State.StateMachineInv, StateProgram, hzero, ← List.countP_eq_length_filter]
  constructor
  · rintro ⟨hn, hw | ⟨⟨d, hd, hw⟩, hno⟩⟩
    · exact .inl ⟨hw, hn⟩
    · exact .inr ⟨d, hd, hw, hno⟩
  · rintro (⟨hw, hn⟩ | ⟨d, hd, hw, hno⟩)
    · exact ⟨hn, .inl hw⟩
    · exact ⟨(hzero.mpr hno).trans (Nat.zero_le 1), .inr ⟨⟨d, hd, hw⟩, hno⟩⟩

theorem State.stateMachineInv_of_program {s : State} {n : Nat} (hn : n ≤ 1) (h : StateProgram [] n s.cont) :
    s.StateMachineInv :=
  State.stateMachineInv_iff.mpr (.inl (h.mono hn))

theorem State.stateMachineInv_of_empty {s : State} (h : s.cont = []) : s.StateMachineInv :=
  State.stateMachineInv_of_program (Nat.zero_le 1) (h ▸ stateProgram_nil)

/-- The invariant depends on the device state and the continuation alone. -/
theorem State.StateMachineInv.congr {s t : State} (h : s.StateMachineInv) (hc : t.core = s.core)
    (hk : t.cont = s.cont) : t.StateMachineInv := by
  simpa only [State.StateMachineInv, hc, hk] using h

/-! ## A micro-step and a run of them -/

/-- `t` is in the device state of `s` and meets the invariant, or has made the table's one move from it and has no further
one to come. -/
def State.Transition (s t : State) : Prop :=
  (t.core.devState = s.core.devState ∧ t.StateMachineInv) ∨
    (s.core.devState.next = some t.core.devState ∧ StateProgram [] 0 t.cont)

section Transition

variable {s t u : State} {st : Stmt} {k l : List Stmt}

theorem State.Transition.inv (h : s.Transition t) : t.StateMachineInv := by
  rcases h with ⟨_, h⟩ | ⟨_, h⟩
  · exact h
  · exact State.stateMachineInv_of_program (Nat.zero_le 1) h

theorem State.Transition.devState (h : s.Transition t) :
    t.core.devState = s.core.devState ∨ s.core.devState.next = some t.core.devState :=
  h.imp (·.1) (·.1)

/-- 41 R191: no other statement of the engine changes the device state. -/
theorem State.Effect.devState_eq (h : s.Effect st u) (hd : ∀ d, st ≠ .setDevState d) :
    u.core.devState = s.core.devState := by
  rcases h.core with e | ⟨_, _, e⟩ | ⟨_, e⟩ | ⟨_, _, e⟩ | ⟨d, hst, _⟩ | ⟨_, _, e⟩
  case inr.inr.inr.inr.inl => exact absurd hst (hd d)
  all_goals rw [e]

/-- A statement that leads to an instruction has no write after it, and is the only one to lead to one. -/
theorem State.StateMachineInv.rest (h : s.StateMachineInv) (hk : s.cont = st :: k)
    (hst : st.leadsToInstr = true) (hw : st.writesState = none) : StateProgram [] 0 k := by
  rw [State.stateMachineInv_iff, hk] at h
  rcases h with h | ⟨d, _, h⟩
  · obtain ⟨m, hm, hrest⟩ := h.tail hw
    obtain rfl : m = 0 := by rw [hst, Bool.toNat_true] at hm; omega
    exact hrest
  · rw [h.leadsToInstr_head] at hst
    cases hst

/-- A test has no write after it, so the write it leads to is the only one. -/
theorem State.StateMachineInv.check {c : Check} (h : s.StateMachineInv) (hk : s.cont = .check c :: k) :
    (s.goto (s.checkProgram c ++ k)).StateMachineInv := by
  have hrest := h.rest hk rfl rfl
  rw [State.stateMachineInv_iff, State.goto_cont, State.goto_core]
  exact (checkProgram_stateProgram s c).imp (·.append hrest)
    fun ⟨d, hd, hp⟩ => ⟨d, hd, hp.append hrest⟩

/-- A write about to run is of the table's next state, and no write and no instruction is to come after it. -/
theorem State.StateMachineInv.setDevState {d : DeviceState} (h : s.StateMachineInv)
    (hk : s.cont = .setDevState d :: k) : s.core.devState.next = some d ∧ StateProgram [] 0 k := by
  rw [State.stateMachineInv_iff, hk] at h
  rcases h with h | ⟨d', hd, h⟩ <;> obtain ⟨es, he, hp⟩ := stateProgram_setDevState.mp h <;> cases he
  exact ⟨hd, hp⟩

/-- A micro-step of a statement moves along the table, the write of the device state being the one that does. -/
theorem State.stmtStep_transition (h : s.StateMachineInv) (hk : s.cont = st :: k)
    (hst : s.stmtStep st k = some t) (hu : s.Effect st u) (hl : st.Next l) (ht : t = u.goto (l ++ k)) :
    s.Transition t := by
  by_cases hd : ∃ d, st = .setDevState d
  · obtain ⟨d, rfl⟩ := hd
    cases hst
    obtain ⟨hnext, hrest⟩ := h.setDevState hk
    refine .inr ⟨hnext, ?_⟩
    rwa [← s.goto_cont k] at hrest
  by_cases hc : ∃ c, st = .check c
  · obtain ⟨c, rfl⟩ := hc
    cases hst
    exact .inl ⟨rfl, h.check hk⟩
  · simp only [not_exists] at hd hc
    have hstate : t.core.devState = s.core.devState := by rw [ht, State.goto_core, hu.devState_eq hd]
    refine .inl ⟨hstate, ?_⟩
    rw [State.stateMachineInv_iff, hk] at h
    rw [State.stateMachineInv_iff, hstate, ht, State.goto_cont]
    exact h.imp (·.next hl hc hd) fun ⟨d, hnext, hp⟩ => ⟨d, hnext, hp.next hl hc hd⟩

theorem State.initEntry_core (s : State) : s.initEntry.core = s.core := by
  rcases s.initEntry_cases with e | e <;> rw [e]
  exact s.goto_core _

theorem State.initEntry_stateProgram (s : State) : StateProgram [] 0 s.initEntry.cont := by
  rcases s.initEntry_cases with e | e <;> rw [e]
  · exact stateProgram_nil
  · exact ⟨rfl, Nat.le_refl 0⟩

theorem State.initEntry_stateMachineInv (s : State) : s.initEntry.StateMachineInv :=
  State.stateMachineInv_of_program (Nat.zero_le 1) s.initEntry_stateProgram

/-- A micro-step moves along the table. -/
theorem State.micro_transition (h : s.StateMachineInv) (hm : s.micro = some t) : s.Transition t := by
  rcases State.micro_cont hm with ⟨f, rfl⟩ | ⟨_, rfl⟩ | ⟨_, rfl⟩ | ⟨_, rfl⟩ | ⟨st, k, u, l, hk, hst, hu, hl, ht⟩
  · exact .inl ⟨rfl, h.congr rfl rfl⟩
  · exact .inl ⟨by rw [s.initEntry_core], s.initEntry_stateMachineInv⟩
  · exact .inl ⟨rfl, State.stateMachineInv_of_program (Nat.le_refl 1) taskProgram_stateProgram⟩
  · exact .inl ⟨rfl, State.stateMachineInv_of_empty rfl⟩
  · exact State.stmtStep_transition h hk hst hu hl ht

/-- Where no write and no instruction is to come, a micro-step other than the start of a task leaves it so. -/
theorem State.micro_settled (h : StateProgram [] 0 s.cont) (hi : s.engine ≠ .idle) (hm : s.micro = some t) :
    t.core.devState = s.core.devState ∧ StateProgram [] 0 t.cont := by
  rcases State.micro_cases hm with ⟨_, rfl⟩ | ⟨he, _⟩ | ⟨_, rfl⟩ | ⟨st, k, he, hst⟩
  · exact ⟨by rw [s.initEntry_core], s.initEntry_stateProgram⟩
  · exact absurd he hi
  · exact ⟨rfl, stateProgram_nil⟩
  · rw [State.cont_busy he] at h
    have hd : ∀ d, st ≠ .setDevState d := fun d hst => by
      subst hst
      simpa using stateProgram_setDevState.mp h
    have hc : ∀ c, st ≠ .check c := fun c hst => by
      subst hst
      cases h.leadsToInstr_head
    rcases State.stmtStep_stepsBy hst with ⟨f, rfl⟩ | ⟨u, l, hu, hl, rfl⟩
    · exact ⟨rfl, by rwa [State.raise_cont, State.cont_busy he]⟩
    · exact ⟨hu.devState_eq hd, by rw [State.goto_cont]; exact h.next hl hc hd⟩

/-- A transition may go on by a micro-step that does not start a task: the second move of the table needs an instruction. -/
theorem State.Transition.micro (h : s.Transition u) (hi : u.engine ≠ .idle) (hm : u.micro = some t) :
    s.Transition t := by
  rcases h with ⟨hstate, hinv⟩ | ⟨hnext, hdone⟩
  · simpa only [State.Transition, hstate] using State.micro_transition hinv hm
  · obtain ⟨hstate, hdone'⟩ := State.micro_settled hdone hi hm
    exact .inr ⟨by rw [hstate]; exact hnext, hdone'⟩

/-- A run of micro-steps ends between two tasks, so it makes one transition at most. -/
theorem State.Transition.runEngine (n : Nat) (h : s.Transition u) : s.Transition (State.runEngine n u) := by
  induction n generalizing u with
  | zero => exact h
  | succ n ih =>
    simp only [State.runEngine]
    split
    · exact h
    · next hb =>
      have hi : u.engine ≠ .idle := fun he => hb (by rw [he]; rfl)
      split
      · exact h
      · next t hm => exact ih (h.micro hi hm)

end Transition

/-! ## The other moves -/

/-- The classification has no write after it, and its handler's test is the one that leads on to the instruction. -/
theorem State.enter_stateMachineInv {s : State} (h : s.StateMachineInv) (ha : s.engine.atClassify = true)
    (i : Instr) : (s.enter (handlerOf i)).StateMachineInv := by
  obtain ⟨k, hk, hp⟩ := State.cont_atClassify ha
  rw [hp]
  refine State.stateMachineInv_of_program (Nat.le_refl 1) ?_
  rw [State.goto_cont]
  exact (handlerOf_stateProgram i).append (stallPath_stateProgram.append (h.rest hk rfl rfl))

/-- A completed run of the reset handler abandons what was to be written; any other leaves the device state. -/
theorem State.resetHandler_stateMachineInv {s : State} (h : s.StateMachineInv) :
    s.resetHandler.StateMachineInv := by
  rcases s.resetHandler_cases with ⟨f, e⟩ | ⟨_, e⟩ | ⟨d, mps, _, _, _, e⟩ <;> rw [e]
  · exact h.congr rfl rfl
  · exact State.stateMachineInv_of_empty (State.abandon_cont _)
  · exact State.stateMachineInv_of_empty (by rw [State.restart_eq, State.abandon_cont])

theorem State.resetHandler_devState (s : State) :
    s.resetHandler.core.devState = s.core.devState ∨ s.resetHandler.core.devState = .default := by
  rcases s.resetHandler_cases with ⟨f, e⟩ | ⟨_, e⟩ | ⟨d, mps, _, _, _, e⟩ <;> rw [e]
  · exact .inl rfl
  · exact .inl (by simp)
  · exact .inr (by simp [State.restart_eq])

/-! ## Every step -/

/-- Settles O55, by induction over the step: only an instruction's test leads to a write of the device state, the one the
table gives next, and the write is gone before the next instruction. -/
theorem stepKeepsStateMachine : Obligations.StepKeepsStateMachine := by
  intro s t h hstep
  refine step_induct (P := State.StateMachineInv) ?move ?burst ?raise ?micro ?enter ?reset ?init ?host h hstep
  case move => exact fun s hs => hs.congr s.nextMove_core (State.cont_congr s.nextMove_engine)
  case burst => exact fun s n hs => hs.congr rfl rfl
  case raise => exact fun s f hs => hs.congr rfl rfl
  case micro => exact fun s t hs hm => (State.micro_transition hs hm).inv
  case enter => exact fun s i hs _ ha _ => State.enter_stateMachineInv hs ha i
  case reset => exact fun s hs _ => State.resetHandler_stateMachineInv hs
  case init => exact fun s _ _ => s.initEntry_stateMachineInv
  case host =>
    intro s tx t hs hx
    obtain ⟨hcore, _, _, hengine, _⟩ := State.hostStep_frame hx
    exact hs.congr hcore (State.cont_congr hengine)

/-- Settles O59: the engine's run makes one transition at most, the reset agent's handler leaves Default, and no other agent
writes the core. -/
theorem deviceStateTransitions : Obligations.DeviceStateTransitions := by
  intro s t h hstep
  obtain ⟨_, m, u, hm, hc⟩ := step_cases hstep
  have hu : s.nextMove.2.StateMachineInv := h.congr s.nextMove_core (State.cont_congr s.nextMove_engine)
  rw [← s.nextMove_core]
  rw [hm] at hu ⊢
  rcases hc with rfl | ⟨_, _, _, _, _, rfl⟩ | ⟨n, r, hn, _, ha, _, rfl⟩ | ⟨n, v, hn, _, hv, rfl⟩ | ⟨hr, _, rfl⟩ |
    ⟨_, _, _, rfl⟩ | ⟨tx, _, hx⟩
  · exact .inl rfl
  · exact .inl rfl
  · have hv : u.Transition (State.enter { u with burst := n } (handlerOf (decodeRequest r))) :=
      .inl ⟨rfl, State.enter_stateMachineInv (hu.congr rfl rfl) ha _⟩
    exact (hv.runEngine n).devState.imp_right fun hnext => .inl ⟨n, hn, hnext⟩
  · exact ((State.micro_transition hu hv).runEngine n).devState.imp_right fun hnext => .inl ⟨n, hn, hnext⟩
  · exact u.resetHandler_devState.imp_right fun hdefault => .inr ⟨hr, hdefault⟩
  · exact .inl (by rw [State.initEntry_core])
  · exact .inl (by rw [(State.hostStep_frame hx).1])

end Sys2Proof.Machine
end

section
/-! PROOFS. The bytes of a transfer: what `control_in` takes from its source and what `control_out` reads stay within the
request's length, and no second transfer is begun (O56). -/

namespace Sys2Proof.Machine

/-! ## Programs that have begun no transfer -/

/-- No statement of a program is inside a transfer. -/
def TransfersUnbegun (k : List Stmt) : Prop := ∀ st ∈ k, st.transferUnbegun = true

@[simp] theorem transfersUnbegun_nil : TransfersUnbegun [] := fun _ h => nomatch h

@[simp] theorem transfersUnbegun_cons {st : Stmt} {k : List Stmt} :
    TransfersUnbegun (st :: k) ↔ st.transferUnbegun = true ∧ TransfersUnbegun k := by
  simp [TransfersUnbegun]

@[simp] theorem transfersUnbegun_append {k l : List Stmt} :
    TransfersUnbegun (k ++ l) ↔ TransfersUnbegun k ∧ TransfersUnbegun l := by
  simp [TransfersUnbegun, or_imp, forall_and]

theorem taskProgram_unbegun : TransfersUnbegun taskProgram := by simp [taskProgram, Stmt.transferUnbegun]

theorem stallPath_unbegun : TransfersUnbegun stallPath := by simp [stallPath, Stmt.transferUnbegun]

theorem handlerOf_unbegun (i : Instr) : TransfersUnbegun (handlerOf i) := by
  cases i <;> simp [handlerOf, Stmt.transferUnbegun]

theorem checkProgram_unbegun (s : State) (c : Check) : TransfersUnbegun (s.checkProgram c) := by
  rcases s.checkProgram_cases c with h | ⟨_, h⟩ | ⟨_, _, _, h⟩ | ⟨_, _, _, h⟩ | ⟨_, _, _, _, _, h⟩ |
    ⟨_, _, _, _, _, h⟩ | ⟨_, h⟩ | ⟨_, h⟩ | ⟨_, _, _, h⟩ | ⟨_, h⟩ <;> rw [h] <;>
    simp [Stmt.transferUnbegun, statusReply, setAddressProgram, setConfigurationProgram, controlIn, controlOut]

theorem serveNext_unbegun (n m : Nat) : (serveNext n m).transferUnbegun = true := by
  unfold serveNext; split <;> rfl

theorem builtInString_unbegun (p : Params) (v : Half) : TransfersUnbegun (builtInString p v) := by
  unfold builtInString
  split
  · simp [controlIn, Stmt.transferUnbegun]
  · split <;> simp [controlIn, Stmt.transferUnbegun]

theorem vendorProgram_unbegun {a : VendorAnswer} {p : List Stmt} (h : vendorProgram a = some p) :
    TransfersUnbegun p := by
  cases a <;> cases h <;> simp [controlIn, controlOut, Stmt.transferUnbegun]

/-- Only a statement of a transfer leads into a transfer. -/
theorem Stmt.Next.unbegun_or_transfer {st : Stmt} {l : List Stmt} (h : st.Next l) :
    TransfersUnbegun l ∨ (∃ line v, st = .controlIn line v) ∨ ∃ line v, st = .controlOut line v := by
  cases h with
  | controlIn line line' v v' => exact .inr (.inl ⟨line, v, rfl⟩)
  | controlOut line line' v v' => exact .inr (.inr ⟨line, v, rfl⟩)
  | check c s => exact .inl (checkProgram_unbegun s c)
  | bound n m | served _ _ n m => exact .inl (by simp [serveNext_unbegun])
  | builtIn v x p => exact .inl (builtInString_unbegun p v)
  | vendor a p h => exact .inl (vendorProgram_unbegun h)
  | configured eds => exact .inl (by simp [TransfersUnbegun, Stmt.transferUnbegun])
  | _ => exact .inl (by simp [Stmt.transferUnbegun, Machine.initTail, statusReply, Machine.controlIn])

/-! ## The invariant -/

section Bounded

variable {s t u : State} {st : Stmt} {k l : List Stmt}

/-- The bound says nothing of a transfer not begun. -/
theorem Stmt.bounded_of_unbegun (n : Nat) (h : st.transferUnbegun = true) : st.bounded n := by
  cases st with
  | controlIn line v =>
    cases line with
    | entry => trivial
    | _ => cases h
  | controlOut line v =>
    cases line with
    | entry => trivial
    | _ => cases h
  | _ => trivial

theorem State.transferBounded_cons (h : s.cont = st :: k) :
    s.TransferBounded ↔ st.bounded s.requestLength ∧ TransfersUnbegun k := by
  simp only [State.TransferBounded, h, TransfersUnbegun]

theorem State.transferBounded_of_unbegun (h : TransfersUnbegun s.cont) : s.TransferBounded := by
  cases hk : s.cont with
  | nil => simp only [State.TransferBounded, hk]
  | cons st k =>
    rw [hk, transfersUnbegun_cons] at h
    exact (State.transferBounded_cons hk).mpr ⟨Stmt.bounded_of_unbegun _ h.1, h.2⟩

theorem State.transferBounded_goto (h : TransfersUnbegun k) : (s.goto k).TransferBounded :=
  State.transferBounded_of_unbegun (by rwa [s.goto_cont])

/-- The invariant depends on the core and the continuation alone. -/
theorem State.TransferBounded.congr (h : s.TransferBounded) (hc : t.core = s.core) (hk : t.cont = s.cont) :
    t.TransferBounded := by
  simpa only [State.TransferBounded, State.requestLength, hc, hk] using h

/-! ## The lines of the transfers -/

/-- Line 12 may start with as many bytes as are left of the length. -/
theorem ciBounded_ciFill {w n : Nat} {p : List Byte} {v : CiVars} (hi : v.i + n ≤ v.len) (hw : v.len ≤ w) :
    ciBounded w (ciFill n p) v := by
  unfold ciFill
  split
  · exact ⟨by omega, hw⟩
  · exact ⟨hi, hw⟩

/-- Line 10 may start with as many bytes as are still expected. -/
theorem coBounded_coDrain {w n : Nat} {v : CoVars} (hg : v.got + n ≤ v.len) (hw : v.len ≤ w) :
    coBounded w (coDrain n) v := by
  unfold coDrain
  split
  · exact ⟨by omega, hw⟩
  · exact ⟨hg, hw⟩

/-- A statement of a transfer may follow in a state with the same core. -/
theorem State.transferBounded_next (hc : u.core = s.core) (hst : st.bounded s.requestLength)
    (hk : TransfersUnbegun k) : (u.goto (st :: k)).TransferBounded := by
  refine (State.transferBounded_cons (u.goto_cont _)).mpr ⟨?_, hk⟩
  simpa only [State.requestLength, State.goto_core, hc] using hst

/-- 42 R202: the clamp brings the length to the request's, and each packet takes at most what is left of it. -/
theorem State.controlInStep_bounded {line : CiLine} {v : CiVars} (h : s.TransferBounded)
    (hk : s.cont = .controlIn line v :: k) (hs : s.controlInStep line v k = some t) : t.TransferBounded := by
  obtain ⟨hb, hun⟩ := (State.transferBounded_cons hk).mp h
  have hnext : ∀ line' v', ciBounded s.requestLength line' v' →
      (s.goto (.controlIn line' v' :: k)).TransferBounded := fun _ _ hst =>
    State.transferBounded_next rfl hst hun
  have hraise : ∀ f, (s.raise f).TransferBounded := fun _ => h.congr rfl rfl
  have hret : (s.goto k).TransferBounded := State.transferBounded_goto hun
  cases line with
  | entry =>
    simp only [State.controlInStep] at hs
    split at hs <;> cases hs
    · exact hnext _ _ trivial
    · exact hraise _
  | pending =>
    simp only [State.controlInStep] at hs
    split at hs <;> cases hs
    · exact hnext _ _ trivial
    · exact hret
  | consume => cases hs; exact State.transferBounded_next s.consumeSetup_core trivial hun
  | readMps => cases hs; exact hnext _ _ trivial
  | decideZlp =>
    simp only [State.controlInStep] at hs
    split at hs <;> cases hs
    · exact hraise _
    · exact hnext _ _ trivial
  | clamp =>
    simp only [State.controlInStep] at hs
    split at hs <;> cases hs
    · exact hraise _
    · next r hr =>
      have hw : s.requestLength = r.wLength.toNat := by simp only [State.requestLength, hr]
      exact hnext _ _ (show min v.len r.wLength.toNat ≤ s.requestLength from hw ▸ Nat.min_le_right _ _)
  | zero => cases hs; exact hnext _ _ ⟨Nat.zero_le _, hb⟩
  | loop | waitData | checkNak | checkZlp | waitZlp | waitStatus =>
    simp only [State.controlInStep] at hs
    split at hs <;> cases hs <;> exact hnext _ _ hb
  | packetSize =>
    cases hs
    obtain ⟨hi, hw⟩ := hb
    exact hnext _ _ (ciBounded_ciFill (by omega) hw)
  | fill n p =>
    obtain ⟨hi, hw⟩ := hb
    cases n with
    | zero => cases hs; exact hnext _ _ ⟨by omega, hw⟩
    | succ n =>
      simp only [State.controlInStep] at hs
      split at hs
      · cases hs; exact hraise _
      · next b _ =>
        cases hs
        cases hu : s.sendByte b with
        | error f => exact hraise f
        | ok u =>
          obtain ⟨_, rfl⟩ := State.sendByte_update hu
          have hi' : v.i + 1 + n ≤ v.len := by omega
          exact State.transferBounded_next rfl (ciBounded_ciFill (v := { v with i := v.i + 1 }) hi' hw) hun
  | commit p => cases hs; exact State.transferBounded_next (s.sendPacket_core p) hb hun
  | commitZlp =>
    simp only [State.controlInStep] at hs
    split at hs <;> cases hs
    · exact hnext _ _ hb
    · exact State.transferBounded_next (s.commitApart_core []) hb hun
  | release => cases hs; exact State.transferBounded_next s.releaseOut_core hb hun
  | ret => cases hs; exact hret

/-- 42 R205: the clamp brings the length to the request's, and each packet is read up to the bytes still expected. -/
theorem State.controlOutStep_bounded {line : CoLine} {v : CoVars} (h : s.TransferBounded)
    (hk : s.cont = .controlOut line v :: k) (hs : s.controlOutStep line v k = some t) : t.TransferBounded := by
  obtain ⟨hb, hun⟩ := (State.transferBounded_cons hk).mp h
  have hnext : ∀ line' v', coBounded s.requestLength line' v' →
      (s.goto (.controlOut line' v' :: k)).TransferBounded := fun _ _ hst =>
    State.transferBounded_next rfl hst hun
  have hraise : ∀ f, (s.raise f).TransferBounded := fun _ => h.congr rfl rfl
  have hret : (s.goto k).TransferBounded := State.transferBounded_goto hun
  cases line with
  | entry =>
    simp only [State.controlOutStep] at hs
    split at hs <;> cases hs
    · exact hnext _ _ trivial
    · exact hraise _
  | pending =>
    simp only [State.controlOutStep] at hs
    split at hs <;> cases hs
    · exact hnext _ _ trivial
    · exact hret
  | consume => cases hs; exact State.transferBounded_next s.consumeSetup_core trivial hun
  | clamp =>
    simp only [State.controlOutStep] at hs
    split at hs <;> cases hs
    · exact hraise _
    · next r hr =>
      have hw : s.requestLength = r.wLength.toNat := by simp only [State.requestLength, hr]
      exact hnext _ _ (show min v.len r.wLength.toNat ≤ s.requestLength from hw ▸ Nat.min_le_right _ _)
  | zero => cases hs; exact hnext _ _ ⟨Nat.zero_le _, hb⟩
  | loop | waitData | checkOut | waitReady | waitDone =>
    simp only [State.controlOutStep] at hs
    split at hs <;> cases hs <;> exact hnext _ _ hb
  | packetSize =>
    cases hs
    obtain ⟨hg, hw⟩ := hb
    exact hnext _ _ (coBounded_coDrain (by omega) hw)
  | drain n =>
    obtain ⟨hg, hw⟩ := hb
    cases n with
    | zero => cases hs; exact hnext _ _ ⟨by omega, hw⟩
    | succ n =>
      cases hs
      have hg' : v.got + 1 + n ≤ v.len := by omega
      exact State.transferBounded_next (by simp [State.receiveByte])
        (coBounded_coDrain (v := { v with got := v.got + 1 }) hg' hw) hun
  | release => cases hs; exact State.transferBounded_next s.releaseOut_core hb hun
  | commit => cases hs; exact State.transferBounded_next (s.commitApart_core []) hb hun
  | ret => cases hs; exact hret

/-- A micro-step of a statement keeps the bound: it is a line of the one transfer begun, or it begins none. -/
theorem State.stmtStep_bounded (h : s.TransferBounded) (hk : s.cont = st :: k) (hst : s.stmtStep st k = some t)
    (hl : st.Next l) (ht : t = u.goto (l ++ k)) : t.TransferBounded := by
  rcases hl.unbegun_or_transfer with hun | ⟨line, v, rfl⟩ | ⟨line, v, rfl⟩
  · rw [ht]
    exact State.transferBounded_goto
      (transfersUnbegun_append.mpr ⟨hun, ((State.transferBounded_cons hk).mp h).2⟩)
  · exact State.controlInStep_bounded h hk hst
  · exact State.controlOutStep_bounded h hk hst

end Bounded

/-! ## Every step -/

/-- Settles O56, by induction over the step: only the lines of the transfer at the head count bytes, each at most as many as
are left of the clamped length, and nothing else begins a transfer. -/
theorem stepKeepsTransferBounded : Obligations.StepKeepsTransferBounded := by
  intro s t h hstep
  refine step_induct_cont (P := State.TransferBounded) ?congr ?empty ?init ?task ?stmt ?enter ?reset ?ack ?host h hstep
  case congr => exact fun s t hc _ _ hk hs => hs.congr hc hk
  case empty => exact fun s t _ _ _ hk _ => State.transferBounded_of_unbegun (by simp [hk])
  case init => exact fun s _ _ => State.transferBounded_goto (by simp [Stmt.transferUnbegun])
  case task => exact fun s _ _ => State.transferBounded_goto taskProgram_unbegun
  case stmt => exact fun s t st k u l hs hk hst _ hl ht => State.stmtStep_bounded hs hk hst hl ht
  case enter =>
    intro s i k hs hk _
    have hun := ((State.transferBounded_cons hk).mp hs).2
    exact State.transferBounded_goto (by simp [handlerOf_unbegun, stallPath_unbegun, hun])
  case reset =>
    exact fun s mps _ _ => State.transferBounded_of_unbegun (by simp [State.restart_eq, State.abandon_cont])
  case ack => exact fun s hs => hs.congr rfl rfl
  case host =>
    intro s tx t hs hx
    obtain ⟨hcore, _, _, hengine, _⟩ := State.hostStep_frame hx
    exact hs.congr hcore (State.cont_congr hengine)

end Sys2Proof.Machine
end

section
/-! PROOFS. The selection: whatever acts on endpoint 0 by way of EPC.sel finds it selected, and so F3 is never recorded
(O57). -/

namespace Sys2Proof.Machine

/-! ## Programs and the selection they need -/

section Fits

variable {z : Bool} {st : Stmt} {k l : List Stmt}

theorem Stmt.leavesZero_mono (h : st.leavesZero false = true) : st.leavesZero z = true := by
  cases z with
  | false => exact h
  | true =>
    cases st with
    | sel n => exact h
    | taskSetup | check _ | taskBound | serveSelect _ _ | serve _ _ | askConfigure | configure _ _ => cases h
    | _ => rfl

theorem selectionFits_cons :
    selectionFits z (st :: k) = true ↔
      (st.needsZero = true → z = true) ∧ selectionFits (st.leavesZero z) k = true := by
  cases hn : st.needsZero <;> simp [selectionFits, hn]

/-- A program that runs with any selection at its start runs with endpoint 0 selected. -/
theorem selectionFits_mono (h : selectionFits false k = true) : selectionFits z k = true := by
  induction k generalizing z with
  | nil => rfl
  | cons st k ih =>
    obtain ⟨hn, hk⟩ := selectionFits_cons.mp h
    refine selectionFits_cons.mpr ⟨fun hst => absurd (hn hst) (by decide), ?_⟩
    cases hz : st.leavesZero false with
    | false => exact ih (hz ▸ hk)
    | true => rw [Stmt.leavesZero_mono hz]; exact hz ▸ hk

theorem selectionFits_of_le {z' : Bool} (hz : z' = true → z = true) (h : selectionFits z' k = true) :
    selectionFits z k = true := by
  cases z' with
  | false => exact selectionFits_mono h
  | true => exact hz rfl ▸ h

/-! ## The programs of the model -/

theorem serveNext_fits (n m : Nat) (h : selectionFits false k = true) :
    selectionFits z (serveNext n m :: k) = true := by
  unfold serveNext
  split
  · exact selectionFits_cons.mpr ⟨nofun, h⟩
  · exact selectionFits_cons.mpr ⟨nofun, selectionFits_mono h⟩

/-- A test leads to a program for which endpoint 0 has to be selected at its start at most, and after which nothing is said of
the selection. -/
theorem checkProgram_fits (s : State) (c : Check) (h : selectionFits false k = true) :
    selectionFits true (s.checkProgram c ++ k) = true := by
  rcases s.checkProgram_cases c with e | ⟨_, e⟩ | ⟨_, _, _, e⟩ | ⟨_, _, _, e⟩ | ⟨_, _, _, _, _, e⟩ |
    ⟨_, _, _, _, _, e⟩ | ⟨_, e⟩ | ⟨_, e⟩ | ⟨_, _, _, e⟩ | ⟨_, e⟩ <;> rw [e]
  case inr.inl => simpa [selectionFits, Stmt.needsZero, Stmt.leavesZero] using h
  case inr.inr.inr.inr.inr.inl =>
    simpa [setConfigurationProgram, controlOut, selectionFits, Stmt.needsZero, Stmt.leavesZero] using h
  all_goals
    simpa [statusReply, controlIn, setAddressProgram, controlOut, selectionFits, Stmt.needsZero, Stmt.leavesZero]
      using selectionFits_mono h

theorem builtInString_fits (p : Params) (v : Half) (h : selectionFits true k = true) :
    selectionFits true (builtInString p v ++ k) = true := by
  unfold builtInString
  split
  · exact h
  · split <;> exact h

theorem vendorProgram_fits {a : VendorAnswer} {p : List Stmt} (hp : vendorProgram a = some p)
    (h : selectionFits true k = true) : selectionFits true (p ++ k) = true := by
  cases a <;> cases hp <;> exact h

theorem configured_fits (eds : List EndpointDesc) (h : selectionFits false k = true) :
    selectionFits z (eds.map (.configure .test) ++ k) = true := by
  induction eds generalizing z with
  | nil => exact selectionFits_mono h
  | cons ed eds ih => exact selectionFits_cons.mpr ⟨nofun, ih⟩

theorem stallPath_fits (h : selectionFits true k = true) : selectionFits z (stallPath ++ k) = true := by
  simpa [stallPath, selectionFits, Stmt.needsZero, Stmt.leavesZero] using h

theorem handlerOf_fits (i : Instr) (h : ∀ z, selectionFits z k = true) :
    selectionFits true (handlerOf i ++ k) = true := by
  cases i <;> exact h _

/-- What follows a statement that selects nothing fits where the statement does. -/
theorem Stmt.Next.fits (hl : st.Next l) (hs : ∀ n, st ≠ .sel n) (hr : ∀ n, st ≠ .readHalt n)
    (h : selectionFits z (st :: k) = true) : selectionFits z (l ++ k) = true := by
  obtain ⟨hn, hk⟩ := selectionFits_cons.mp h
  cases hl with
  | done =>
    refine selectionFits_of_le (fun hz => ?_) hk
    cases st with
    | sel n => exact absurd rfl (hs n)
    | readHalt n => exact absurd rfl (hr n)
    | taskSetup | check _ | taskBound | serveSelect _ _ | serve _ _ | askConfigure | configure _ _ => cases hz
    | _ => exact hz
  | status n p w => exact absurd rfl (hr n)
  | check c s => rw [hn rfl]; exact checkProgram_fits s c hk
  | bound n m | served _ _ n m => exact serveNext_fits n m hk
  | builtIn v x p => obtain rfl := hn rfl; exact builtInString_fits p v hk
  | vendor a p hp => obtain rfl := hn rfl; exact vendorProgram_fits hp hk
  | configured eds => exact configured_fits eds hk
  | init | initTail | ramWrite | selected | serve | configure => exact hk
  | _ => obtain rfl := hn rfl; exact hk

end Fits

/-! ## The invariant -/

section Selection

variable {s t u : State} {st : Stmt} {k l : List Stmt} {f : Fault}

/-- The invariant depends on the selection and the continuation alone. -/
theorem State.SelectionInv.congr (h : s.SelectionInv) (he : t.epc.sel = s.epc.sel) (hk : t.cont = s.cont) :
    t.SelectionInv := by
  simpa only [State.SelectionInv, he, hk] using h

theorem State.selectionInv_of_empty (h : s.cont = []) : s.SelectionInv := by
  simp only [State.SelectionInv, h, selectionFits]

theorem State.selectionInv_goto (h : selectionFits (decide (s.epc.sel = 0)) k = true) : (s.goto k).SelectionInv := by
  rw [State.SelectionInv, State.goto_cont]
  exact h

theorem State.SelectionInv.fits (h : s.SelectionInv) (hk : s.cont = k) :
    selectionFits (decide (s.epc.sel = 0)) k = true := by
  simpa only [State.SelectionInv, hk] using h

/-- The statement about to run finds endpoint 0 selected where it needs it. -/
theorem State.SelectionInv.sel_eq_zero (h : s.SelectionInv) (hk : s.cont = st :: k) (hn : st.needsZero = true) :
    s.epc.sel = 0 :=
  of_decide_eq_true ((selectionFits_cons.mp (h.fits hk)).1 hn)

/-- A statement that selects needs no selection, and but for SEL itself nothing is said of the selection after it. -/
theorem Stmt.fits_of_selects {z : Bool} {n : Nat} (hs : st.selects = some n) (hsel : ∀ m, st ≠ .sel m)
    (h : selectionFits z (st :: k) = true) (z' : Bool) : selectionFits z' (st :: k) = true := by
  cases st with
  | sel m => exact absurd rfl (hsel m)
  | serveSelect m b => exact h
  | configure line ed => exact h
  | _ => cases hs

/-- What a statement other than SEL leaves selected fits it as well as what it found. -/
theorem State.Effect.fits (h : s.Effect st u) (hsel : ∀ n, st ≠ .sel n)
    (hk : selectionFits (decide (s.epc.sel = 0)) (st :: k) = true) :
    selectionFits (decide (u.epc.sel = 0)) (st :: k) = true := by
  rcases h.epc with e | ⟨n, hs, _⟩ | ⟨_, _, e⟩ | ⟨_, e⟩ | ⟨_, e⟩ | ⟨_, e⟩
  case inr.inl => exact Stmt.fits_of_selects hs hsel hk _
  all_goals rw [e]; exact hk

/-- A micro-step of a statement keeps the invariant: SEL and GET_STATUS's read of the halt bit, after which endpoint 0 is
selected again, by what they select, and any other by what it leads to. -/
theorem State.stmtStep_selectionInv (h : s.SelectionInv) (hk : s.cont = st :: k) (hst : s.stmtStep st k = some t) :
    t.SelectionInv := by
  have hfits := h.fits hk
  by_cases hsel : ∃ n, st = .sel n
  · obtain ⟨n, rfl⟩ := hsel
    cases hst
    cases hn : s.select n with
    | error f => exact h.congr rfl rfl
    | ok u =>
      have hz : (n == 0) = decide (u.epc.sel = 0) := by
        rw [← (State.select_ok hn).1, Bool.eq_iff_iff, beq_iff_eq, decide_eq_true_iff, Fin.ext_iff]
        rfl
      exact State.selectionInv_goto (hz ▸ hfits)
  by_cases hread : ∃ n, st = .readHalt n
  · obtain ⟨n, rfl⟩ := hread
    cases hst
    exact State.selectionInv_goto (by simpa [selectionFits, statusReply, controlIn, Stmt.needsZero,
      Stmt.leavesZero] using hfits)
  · simp only [not_exists] at hsel hread
    rcases State.stmtStep_stepsBy hst with ⟨f, rfl⟩ | ⟨u, l, hu, hl, rfl⟩
    · exact h.congr rfl rfl
    · exact State.selectionInv_goto (hl.fits hsel hread (hu.fits hsel hfits))

theorem State.initEntry_selectionInv (s : State) : s.initEntry.SelectionInv := by
  rcases s.initEntry_cases with e | e <;> rw [e]
  · exact State.selectionInv_of_empty rfl
  · exact State.selectionInv_goto rfl

/-- The handler of an instruction and the stall path take the place of the classification, which had endpoint 0 selected. -/
theorem State.enter_selectionInv (h : s.SelectionInv) (ha : s.engine.atClassify = true) (i : Instr) :
    (s.enter (handlerOf i)).SelectionInv := by
  obtain ⟨k, hk, hp⟩ := State.cont_atClassify ha
  have hz := h.sel_eq_zero hk rfl
  have hrest := (selectionFits_cons.mp (h.fits hk)).2
  rw [hz] at hrest
  rw [hp]
  refine State.selectionInv_goto ?_
  rw [hz]
  exact handlerOf_fits i fun z => stallPath_fits hrest

theorem State.resetHandler_selectionInv (h : s.SelectionInv) : s.resetHandler.SelectionInv := by
  rcases s.resetHandler_cases with ⟨f, e⟩ | ⟨_, e⟩ | ⟨d, mps, _, _, _, e⟩ <;> rw [e]
  · exact h.congr rfl rfl
  · exact State.selectionInv_of_empty (State.abandon_cont _)
  · exact State.selectionInv_of_empty (by rw [State.restart_eq, State.abandon_cont])

end Selection

/-! ## Who records F3 -/

/-- A move from `s` to `t` records no fault F3. -/
def State.RecordsNoF3 (s t : State) : Prop := .ep0NotSelected ∈ t.faults → .ep0NotSelected ∈ s.faults

section Faults

variable {s t : State} {st : Stmt} {k : List Stmt} {f : Fault}

theorem State.recordsNoF3_of_faults (h : t.faults = s.faults) : s.RecordsNoF3 t := fun hf => h ▸ hf

theorem State.recordsNoF3_raise (h : f ≠ .ep0NotSelected) : s.RecordsNoF3 (s.raise f) := fun hf => by
  rw [State.raise_faults] at hf
  split at hf
  · exact hf
  · simpa [h.symm] using hf

/-- An operation that leaves the faults alone, or raises a fault other than F3, before the engine goes on. -/
theorem State.recordsNoF3_orRaise {r : Except Fault State} (hok : ∀ u, r = .ok u → u.faults = s.faults)
    (herr : ∀ f, r = .error f → f ≠ .ep0NotSelected) (k : List Stmt) :
    s.RecordsNoF3 (s.orRaise (r.map (·.goto k))) := by
  cases r with
  | ok u => exact State.recordsNoF3_of_faults (hok u rfl)
  | error f => exact State.recordsNoF3_raise (herr f rfl)

/-- The state a callback leaves, before the engine goes on. -/
theorem State.recordsNoF3_snd {α : Type} {p : α × State} {a : α} (hp : p = (a, t)) (h : p.2.faults = s.faults) :
    s.RecordsNoF3 (t.goto k) := by
  subst hp; exact State.recordsNoF3_of_faults h

/-! ### The operations -/

theorem State.select_noF3 {n : Nat} (h : s.select n = .error f) : f ≠ .ep0NotSelected := by
  rw [(State.select_error h).2]; decide

theorem State.fifoWrite_noF3 {b : Byte} (h : s.fifoWrite b = .error f) : f ≠ .ep0NotSelected := by
  rw [State.fifoWrite_error h]; decide

theorem State.ramWriteByte_noF3 {a : Nat} {b : Byte} (h : s.ramWriteByte a b = .error f) : f ≠ .ep0NotSelected := by
  rw [(State.ramWriteByte_error h).2]; decide

theorem State.romRead_noF3 {a : Nat} (h : s.romRead a = .error f) : f ≠ .ep0NotSelected := by
  simp only [State.romRead] at h
  split at h <;> cases h
  decide

theorem State.ramRead_noF3 {a : Nat} (h : s.ramRead a = .error f) : f ≠ .ep0NotSelected := by
  simp only [State.ramRead] at h
  split at h
  · split at h <;> cases h
    decide
  · cases h; decide

theorem State.byteAt_noF3 {src : Source} {i : Nat} (h : s.byteAt src i = .error f) : f ≠ .ep0NotSelected := by
  simp only [State.byteAt] at h
  split at h
  · exact State.romRead_noF3 h
  · exact State.ramRead_noF3 h

theorem State.sendByte_noF3 {b : Byte} (h : s.sendByte b = .error f) : f ≠ .ep0NotSelected := by
  simp only [State.sendByte] at h
  split at h
  · cases h
  · exact State.fifoWrite_noF3 h

theorem State.recordsNoF3_select (n : Nat) (k : List Stmt) :
    s.RecordsNoF3 (s.orRaise ((s.select n).map (·.goto k))) :=
  State.recordsNoF3_orRaise (fun u hu => by rw [(State.select_ok hu).2]) (fun _ => State.select_noF3) k

theorem State.recordsNoF3_fifoWrite (b : Byte) (k : List Stmt) :
    s.RecordsNoF3 (s.orRaise ((s.fifoWrite b).map (·.goto k))) := by
  refine State.recordsNoF3_orRaise (fun u hu => ?_) (fun _ => State.fifoWrite_noF3) k
  rcases State.fifoWrite_ok hu with ⟨_, rfl⟩ | ⟨_, _, _, _, rfl⟩ <;> rfl

theorem State.recordsNoF3_ramWriteByte (a : Nat) (b : Byte) (k : List Stmt) :
    s.RecordsNoF3 (s.orRaise ((s.ramWriteByte a b).map (·.goto k))) :=
  State.recordsNoF3_orRaise (fun u hu => by rw [(State.ramWriteByte_ok hu).2]) (fun _ => State.ramWriteByte_noF3) k

theorem State.recordsNoF3_sendByte (b : Byte) (k : List Stmt) :
    s.RecordsNoF3 (s.orRaise ((s.sendByte b).map (·.goto k))) := by
  refine State.recordsNoF3_orRaise (fun u hu => ?_) (fun _ => State.sendByte_noF3) k
  obtain ⟨_, rfl⟩ := State.sendByte_update hu
  rfl

/-! ### The statements -/

theorem State.controlInStep_noF3 {line : CiLine} {v : CiVars} (hz : s.epc.sel = 0)
    (h : s.controlInStep line v k = some t) : s.RecordsNoF3 t := by
  have hsame : ∀ k', s.RecordsNoF3 (s.goto k') := fun _ => State.recordsNoF3_of_faults rfl
  have hraise : s.RecordsNoF3 (s.raise .unwritten) := State.recordsNoF3_raise (by decide)
  cases line with
  | entry =>
    simp only [State.controlInStep, if_pos hz] at h
    cases h; exact hsame _
  | decideZlp | clamp =>
    simp only [State.controlInStep] at h
    split at h <;> cases h
    · exact hraise
    · exact hsame _
  | pending | loop | waitData | checkNak | checkZlp | waitZlp | waitStatus =>
    simp only [State.controlInStep] at h
    split at h <;> cases h <;> exact hsame _
  | commitZlp =>
    simp only [State.controlInStep] at h
    cases h
    split
    · exact hsame _
    · exact State.recordsNoF3_of_faults (s.commitApart_faults [])
  | fill n p =>
    cases n with
    | zero => cases h; exact hsame _
    | succ n =>
      simp only [State.controlInStep] at h
      split at h
      · next f hf => cases h; exact State.recordsNoF3_raise (State.byteAt_noF3 hf)
      · cases h; exact State.recordsNoF3_sendByte _ _
  | readMps | zero | packetSize | ret => cases h; exact hsame _
  | consume => cases h; exact State.recordsNoF3_of_faults s.consumeSetup_faults
  | commit p => cases h; exact State.recordsNoF3_of_faults (s.sendPacket_faults p)
  | release => cases h; exact State.recordsNoF3_of_faults s.releaseOut_faults

theorem State.controlOutStep_noF3 {line : CoLine} {v : CoVars} (hz : s.epc.sel = 0)
    (h : s.controlOutStep line v k = some t) : s.RecordsNoF3 t := by
  have hsame : ∀ k', s.RecordsNoF3 (s.goto k') := fun _ => State.recordsNoF3_of_faults rfl
  cases line with
  | entry =>
    simp only [State.controlOutStep, if_pos hz] at h
    cases h; exact hsame _
  | clamp =>
    simp only [State.controlOutStep] at h
    split at h <;> cases h
    · exact State.recordsNoF3_raise (by decide)
    · exact hsame _
  | pending | loop | waitData | checkOut | waitReady | waitDone =>
    simp only [State.controlOutStep] at h
    split at h <;> cases h <;> exact hsame _
  | drain n =>
    cases n with
    | zero => cases h; exact hsame _
    | succ n => cases h; exact State.recordsNoF3_of_faults (by simp [State.receiveByte])
  | zero | packetSize | ret => cases h; exact hsame _
  | consume => cases h; exact State.recordsNoF3_of_faults s.consumeSetup_faults
  | commit => cases h; exact State.recordsNoF3_of_faults (s.commitApart_faults [])
  | release => cases h; exact State.recordsNoF3_of_faults s.releaseOut_faults

theorem State.initStep_noF3 (line : InitLine) : s.RecordsNoF3 (s.initStep line k) := by
  cases line with
  | check text =>
    simp only [State.initStep]
    split
    · exact State.recordsNoF3_of_faults rfl
    · exact State.recordsNoF3_raise (by decide)
  | _ => exact State.recordsNoF3_of_faults rfl

theorem State.ramWriteStep_noF3 (a : Nat) (bs : List Byte) : s.RecordsNoF3 (s.ramWriteStep a bs k) := by
  match bs with
  | [] => exact State.recordsNoF3_of_faults rfl
  | [b] => exact State.recordsNoF3_ramWriteByte a b k
  | b :: c :: bs => exact State.recordsNoF3_ramWriteByte a b _

theorem State.configureStep_noF3 (line : CfgLine) (ed : EndpointDesc) :
    s.RecordsNoF3 (s.configureStep line ed k) := by
  cases line with
  | select => exact State.recordsNoF3_select _ _
  | test =>
    simp only [State.configureStep]
    split <;> exact State.recordsNoF3_of_faults rfl
  | _ => exact State.recordsNoF3_of_faults rfl

theorem State.serveStep_noF3 (line : SvcLine) (v : SvcVars) : s.RecordsNoF3 (s.serveStep line v k) := by
  cases line with
  | putByte b => exact State.recordsNoF3_fifoWrite b _
  | direction | ready | window _ | arrived | count =>
    simp only [State.serveStep]
    split <;> exact State.recordsNoF3_of_faults rfl
  | _ => exact State.recordsNoF3_of_faults (by simp [State.serveStep])

/-- 42 R209: F3 is the transfers' alone to raise, and only with another endpoint selected. -/
theorem State.stmtStep_noF3 (hz : st.needsZero = true → s.epc.sel = 0) (h : s.stmtStep st k = some t) :
    s.RecordsNoF3 t := by
  cases st with
  | controlIn line v => exact State.controlInStep_noF3 (hz rfl) h
  | controlOut line v => exact State.controlOutStep_noF3 (hz rfl) h
  | sel n => cases h; exact State.recordsNoF3_select n k
  | init line => cases h; exact State.initStep_noF3 line
  | ramWrite a bs => cases h; exact State.ramWriteStep_noF3 a bs
  | serveSelect n bound =>
    cases h
    simp only [State.serveSelectStep]
    split
    · next f hf => exact State.recordsNoF3_raise (State.select_noF3 hf)
    · next u hu => exact State.recordsNoF3_of_faults (by rw [(State.select_ok hu).2]; rfl)
  | serve line v => cases h; exact State.serveStep_noF3 line v
  | configure line ed => cases h; exact State.configureStep_noF3 line ed
  | readLength _ | readTotalLow _ | readTotalHigh _ _ =>
    cases h
    simp only [State.readLengthStep, State.readTotalLowStep, State.readTotalHighStep]
    split
    · next f hf => exact State.recordsNoF3_raise (State.romRead_noF3 hf)
    · exact State.recordsNoF3_of_faults rfl
  | recordVendor =>
    cases h; simp only [State.recordVendorStep]; split
    · exact State.recordsNoF3_raise (by decide)
    · exact State.recordsNoF3_of_faults rfl
  | askVendor =>
    cases h; simp only [State.askVendorStep]; split
    · exact State.recordsNoF3_raise (by decide)
    · split
      · exact State.recordsNoF3_raise (by decide)
      · exact State.recordsNoF3_of_faults (by simp)
  | classify => cases h
  | askDevice =>
    cases h; simp only [State.askDeviceStep]
    split <;> next hc => exact State.recordsNoF3_snd hc s.callDeviceDescriptor_faults
  | askConfiguration =>
    cases h; simp only [State.askConfigurationStep]
    split <;> next hc => exact State.recordsNoF3_snd hc (s.callConfigurationDescriptor_faults _)
  | askString v x =>
    cases h; simp only [State.askStringStep]
    split <;> next hc => exact State.recordsNoF3_snd hc (s.callStringDescriptor_faults v x)
  | dispatchRead got => cases h; exact State.recordsNoF3_of_faults s.fifoRead_faults
  | askConfigure => cases h; exact State.recordsNoF3_of_faults (s.callConfigureEndpoints_faults _)
  | stallRequest => cases h; exact State.recordsNoF3_of_faults s.stallRequest_faults
  | stallConsume => cases h; exact State.recordsNoF3_of_faults s.consumeSetup_faults
  | taskSetup | stallTest =>
    cases h
    simp only [State.taskSetupStep, State.stallTestStep]
    split <;> exact State.recordsNoF3_of_faults rfl
  | _ => cases h; exact State.recordsNoF3_of_faults rfl

/-- The reset handler's own faults are F2 and F6 (46 R316). -/
theorem State.resetHandler_noF3 : s.RecordsNoF3 s.resetHandler := by
  simp only [State.resetHandler]
  split
  · exact State.recordsNoF3_of_faults (by simp)
  · split
    · next f hf => exact State.recordsNoF3_raise (State.romRead_noF3 hf)
    · split
      · exact State.recordsNoF3_of_faults (by simp [State.restart_eq])
      · exact State.recordsNoF3_raise (by decide)

end Faults

/-! ## Every step -/

/-- The selection fits what is still to run, and F3 is not recorded. -/
def State.SelectionKept (s : State) : Prop := s.SelectionInv ∧ .ep0NotSelected ∉ s.faults

theorem State.SelectionKept.next {s t : State} (h : s.SelectionKept) (hinv : t.SelectionInv) (hf : s.RecordsNoF3 t) :
    t.SelectionKept := ⟨hinv, fun ht => h.2 (hf ht)⟩

theorem State.SelectionKept.congr {s t : State} (h : s.SelectionKept) (he : t.epc.sel = s.epc.sel)
    (hk : t.cont = s.cont) (hf : t.faults = s.faults) : t.SelectionKept :=
  h.next (h.1.congr he hk) (State.recordsNoF3_of_faults hf)

theorem State.SelectionKept.initEntry {s : State} (h : s.SelectionKept) : s.initEntry.SelectionKept := by
  refine h.next s.initEntry_selectionInv (State.recordsNoF3_of_faults ?_)
  rcases s.initEntry_cases with e | e <;> rw [e]
  rfl

/-- A micro-step keeps the selection: a statement that could raise F3 needs endpoint 0 selected, and so has it. -/
theorem State.SelectionKept.micro {s t : State} (h : s.SelectionKept) (hm : s.micro = some t) : t.SelectionKept := by
  rcases State.micro_cases hm with ⟨_, rfl⟩ | ⟨_, rfl⟩ | ⟨_, rfl⟩ | ⟨st, k, he, hst⟩
  · exact h.initEntry
  · exact h.next (State.selectionInv_goto rfl) (State.recordsNoF3_of_faults rfl)
  · exact h.next (State.selectionInv_of_empty rfl) (State.recordsNoF3_of_faults rfl)
  · have hk := State.cont_busy he
    exact h.next (State.stmtStep_selectionInv h.1 hk hst) (State.stmtStep_noF3 (h.1.sel_eq_zero hk) hst)

theorem State.SelectionKept.runEngine {s : State} (h : s.SelectionKept) (n : Nat) :
    (State.runEngine n s).SelectionKept :=
  State.runEngine_induct (fun _ _ hs hm => hs.micro hm) n h

theorem step_selectionKept {s t : State} (h : s.SelectionInv) (hstep : step s = .next t) : t.SelectionKept := by
  obtain ⟨hf, m, u, hm, hc⟩ := step_cases hstep
  have hs : s.SelectionKept := ⟨h, by simp [hf]⟩
  have hu : s.nextMove.2.SelectionKept :=
    hs.congr (by rw [s.nextMove_epc]) (State.cont_congr s.nextMove_engine) s.nextMove_faults
  rw [hm] at hu
  rcases hc with rfl | ⟨_, _, _, _, _, rfl⟩ | ⟨n, r, _, _, ha, _, rfl⟩ | ⟨n, v, _, _, hv, rfl⟩ | ⟨_, _, rfl⟩ |
    ⟨_, _, _, rfl⟩ | ⟨tx, _, hx⟩
  · exact hu
  · exact hu.next (hu.1.congr rfl rfl) (State.recordsNoF3_raise (by decide))
  · have hburst : State.SelectionInv { u with burst := n } := hu.1.congr rfl rfl
    have henter := State.enter_selectionInv hburst ha (decodeRequest r)
    exact (hu.next henter (State.recordsNoF3_of_faults rfl)).runEngine n
  · exact (hu.micro hv).runEngine n
  · exact hu.next (State.resetHandler_selectionInv hu.1) State.resetHandler_noF3
  · exact hu.initEntry
  · obtain ⟨_, _, _, he, hfaults, _, _, _, hsel, _⟩ := State.hostStep_frame hx
    exact hu.congr hsel (State.cont_congr he) hfaults

/-- Settles O57: every statement that needs endpoint 0 selected follows a SEL(0) with no other selection in between, and F3 is
raised only by such a statement with another endpoint selected. -/
theorem stepKeepsSelection : Obligations.StepKeepsSelection := by
  intro s t h hstep
  obtain ⟨hinv, hf⟩ := step_selectionKept h hstep
  exact ⟨hinv, fun ht => absurd ht hf⟩

end Sys2Proof.Machine
end

section
/-! PROOFS. The transfers after their first packet: `control_in`'s next packets and its end (O34, O35), and `control_out`'s
packets and its status stage (O36). -/

namespace Sys2Proof.Machine

/-! ## A step of the engine -/

section EngineStep

variable {s u t : State} {k : List Stmt} {st : Stmt} {m n : Nat}

/-- A move of the engine with no boundary before it is a run of one micro-step and the share's. -/
theorem State.advance_eq (hb : u.engine.boundary = false) : u.advance n = State.runEngine (n + 1) u := by
  cases hm : u.micro with
  | none => rw [State.runEngine_held (n + 1) hm]; simp only [State.advance, hm]
  | some t => rw [State.runEngine_micro n hb hm]; simp only [State.advance, hm]

/-- A step that takes the engine's choice at a continuation is such a run. -/
theorem step_engine (h : s.chooses (.engine n) u) (hk : u.engineAt (st :: k))
    (hb : (Engine.busy (st :: k)).boundary = false) : step s = .next (State.runEngine (n + 1) u) := by
  obtain ⟨hf, hm⟩ := h
  obtain ⟨hen, he⟩ := hk
  have hc : (Engine.busy (st :: k)).atClassify = false := by
    cases st with
    | classify => cases hb
    | _ => rfl
  rw [← he] at hb hc
  simp only [step, State.route_take hf, hm, State.take, State.engineMove, hen, hc, if_true, Bool.false_eq_true,
    if_false, State.advance_eq hb]

/-- A step of just so many micro-steps ends where they lead. -/
theorem step_runsTo (h : s.chooses (.engine n) u) (hk : u.engineAt (st :: k))
    (hb : (Engine.busy (st :: k)).boundary = false) (ht : (u.within (u.ep 0) (st :: k)).RunsTo m t)
    (hm : n + 1 = m) : step s = .next t := by
  rw [State.within_self hk.2, ← hm] at ht
  rw [step_engine h hk hb, ht.exact]

/-- A step of as many micro-steps, or more, ends where they lead if the engine holds there. -/
theorem step_runsTo_held (h : s.chooses (.engine n) u) (hk : u.engineAt (st :: k))
    (hb : (Engine.busy (st :: k)).boundary = false) (ht : (u.within (u.ep 0) (st :: k)).RunsTo m t)
    (hm : m ≤ n + 1) (hheld : t.micro = none) : step s = .next t := by
  rw [State.within_self hk.2] at ht
  rw [step_engine h hk hb, ht.holds hm hheld]

/-- A state within which endpoint 0 is as it was differs in the engine's position alone. -/
theorem State.within_ep (s : State) (k : List Stmt) : s.within (s.ep 0) k = { s with engine := .busy k } := by
  simp only [State.within, State.ep, Eps.set_get]

end EngineStep

/-! ## Endpoint 0's operations within a transfer -/

section Within

variable {s : State} {e : Ep} {k : List Stmt}

theorem State.within_commitApart (hsel : s.epc.sel = 0) (he : e.en = true) (ht : e.txin = true) (p : List Byte) :
    (s.within e k).commitApart p = s.within { e with txin := false, inq := some p } k := by
  simp [State.commitApart, State.within_selected hsel, State.within_setSelected hsel, he, ht]

theorem State.within_releaseOut (hsel : s.epc.sel = 0) (he : e.en = true) (hx : e.rxout = true) :
    (s.within e k).releaseOut = s.within { e with fifo := [], rxout := false } k := by
  simp [State.releaseOut, State.within_selected hsel, State.within_setSelected hsel, he, hx]

/-- A byte read from the bank is an event (42 R206). -/
theorem State.within_receiveByte (hsel : s.epc.sel = 0) (he : e.en = true) {b : Byte} {bs : List Byte}
    (hf : e.fifo = b :: bs) (first : Bool) :
    (s.within e k).receiveByte first = (s.record (.outByte 0 b first)).within { e with fifo := bs } k := by
  simp only [State.receiveByte, State.fifoRead, State.within_selected hsel, State.within_setSelected hsel, he, hf]
  rfl

end Within

/-! ## The next packets of `control_in` -/

section In

variable {s : State} {e : Ep} {k : List Stmt} {v : CiVars} {p bs : List Byte}

/-- With the last packet taken and no OUT refused, the engine comes to the packet's size (lines 9 and 10). -/
theorem State.waitData_runsTo (hen : s.engineEnabled = true) (ht : e.txin = true) (hn : e.nakout = false) :
    (s.within e (.controlIn .waitData v :: k)).RunsTo 2 (s.within e (.controlIn .packetSize v :: k)) := by
  have h1 : (s.within e (.controlIn .waitData v :: k)).RunsTo 1 (s.within e (.controlIn .checkNak v :: k)) :=
    State.runsTo_in (State.within_engineAt hen) (by simp [State.controlInStep, ht, State.within_goto])
  have h2 : (s.within e (.controlIn .checkNak v :: k)).RunsTo 1 (s.within e (.controlIn .packetSize v :: k)) :=
    State.runsTo_in (State.within_engineAt hen) (by simp [State.controlInStep, hn, State.within_goto])
  exact h1.trans h2

/-- The packet's size is what is left of the length, one packet at most (line 11). -/
theorem State.packetSize_runsTo (hen : s.engineEnabled = true) (hl : bs.length = min (v.len - v.i) v.mps) :
    (s.within e (.controlIn .packetSize v :: k)).RunsTo 1
      (s.within e (.controlIn (ciFill bs.length []) v :: k)) :=
  State.runsTo_in (State.within_engineAt hen) (by simp [State.controlInStep, hl, State.within_goto])

/-- Beside an OUT packet the bytes stay with the packet of the engine's position (line 12, log 21). -/
theorem State.fill_beside_runsTo (hen : s.engineEnabled = true) (hx : e.rxout = true)
    (hb : s.sourceBytes v.src v.i bs) :
    (s.within e (.controlIn (ciFill bs.length p) v :: k)).RunsTo bs.length
      (s.within e (.controlIn (.commit (p ++ bs)) { v with i := v.i + bs.length } :: k)) := by
  induction bs generalizing v p with
  | nil => simpa [ciFill] using State.RunsTo.refl _
  | cons b bs ih =>
    have hread : (s.within e (.controlIn (.fill (bs.length + 1) p) v :: k)).byteAt v.src v.i = .ok b :=
      (State.byteAt_congr rfl rfl rfl _ _).trans (hb 0 (Nat.succ_pos _))
    have hstep : (s.within e (.controlIn (.fill (bs.length + 1) p) v :: k)).RunsTo 1
        (s.within e (.controlIn (ciFill bs.length (p ++ [b])) { v with i := v.i + 1 } :: k)) := by
      refine State.runsTo_in (State.within_engineAt hen) ?_
      simp only [State.controlInStep, hread, State.sendByte, State.within_ep0, hx]
      rfl
    have hrest := ih (v := { v with i := v.i + 1 }) (p := p ++ [b]) fun j hj => by
      simpa [Nat.add_assoc, Nat.add_comm 1 j] using hb (j + 1) (Nat.succ_lt_succ hj)
    have hall := hstep.trans hrest
    rw [Nat.add_comm 1 bs.length, List.append_assoc, Nat.add_assoc, Nat.add_comm 1 bs.length] at hall
    exact hall

/-- Beside an OUT packet a request of direction OUT has its own packet committed (line 13, log 21). -/
theorem State.commit_beside_runsTo (hen : s.engineEnabled = true) (hx : e.rxout = true)
    (hd : s.ctrlDir = .toDevice) (hsel : s.epc.sel = 0) (he : e.en = true) (ht : e.txin = true) :
    (s.within e (.controlIn (.commit p) v :: k)).RunsTo 1
      (s.within { e with txin := false, inq := some p } (.controlIn .loop v :: k)) := by
  have hd' : (s.within e (.controlIn (.commit p) v :: k)).ctrlDir = .toDevice := hd
  refine State.runsTo_in (State.within_engineAt hen) ?_
  simp [State.controlInStep, State.sendPacket, hx, hd', State.within_commitApart hsel he ht, State.within_goto]

/-- Beside an OUT packet a control read's packet is discarded (line 13, log 21). -/
theorem State.discard_beside_runsTo (hen : s.engineEnabled = true) (hx : e.rxout = true) (hd : s.ctrlDir = .toHost) :
    (s.within e (.controlIn (.commit p) v :: k)).RunsTo 1 (s.within e (.controlIn .loop v :: k)) := by
  have hd' : (s.within e (.controlIn (.commit p) v :: k)).ctrlDir = .toHost := hd
  refine State.runsTo_in (State.within_engineAt hen) ?_
  simp [State.controlInStep, State.sendPacket, hx, hd', State.within_goto]

end In

/-- Settles O34: the run of lines 9 to 13, whose line 12 fills the bank, or leaves an OUT packet in it alone. -/
theorem controlInSendsNextPacket : Obligations.ControlInSendsNextPacket := by
  intro s u n k v bs hch hb
  refine ⟨fun hn hk ht hnak hl => ?_, fun p hn hk hx => ?_⟩
  · have hwait := State.waitData_runsTo (v := v) (k := k) hk.1 ht hnak
    have hsize := hwait.trans (State.packetSize_runsTo hk.1 hl)
    refine ⟨fun hsel he hs hx hf hq hmps => ?_, fun hx hd hsel he => ?_, fun hx hd => ?_⟩
    · have hpacket := State.packet_runsTo (k := k) hk.1 hsel he hs hx hq hf ht v bs hl (by omega) hb
      rw [← hf] at hpacket
      exact step_runsTo hch hk rfl (hwait.trans hpacket) (by omega)
    · have hfill := hsize.trans (State.fill_beside_runsTo hk.1 hx hb)
      exact step_runsTo hch hk rfl (hfill.trans (State.commit_beside_runsTo hk.1 hx hd hsel he ht)) (by omega)
    · have hfill := hsize.trans (State.fill_beside_runsTo hk.1 hx hb)
      rw [← State.within_ep]
      exact step_runsTo hch hk rfl (hfill.trans (State.discard_beside_runsTo hk.1 hx hd)) (by omega)
  · have hfill := State.fill_beside_runsTo (p := p) (k := k) hk.1 hx hb
    refine ⟨fun hd hsel he ht => ?_, fun hd => ?_⟩
    · exact step_runsTo hch hk rfl (hfill.trans (State.commit_beside_runsTo hk.1 hx hd hsel he ht)) (by omega)
    · rw [← State.within_ep]
      exact step_runsTo hch hk rfl (hfill.trans (State.discard_beside_runsTo hk.1 hx hd)) (by omega)

/-! ## The end of `control_in` -/

section InEnd

variable {s : State} {e : Ep} {k : List Stmt} {v : CiVars}

/-- An OUT refused ends the data stage at the wait for the bank, before a packet or before the zero-length one (lines 9 and
10, 15 and 16). -/
theorem State.earlyOut_runsTo {l : CiLine} (hl : l = .waitData ∨ l = .waitZlp) (hen : s.engineEnabled = true)
    (hn : e.nakout = true) :
    (s.within e (.controlIn l v :: k)).RunsTo 2 (s.within e (.controlIn .waitStatus v :: k)) := by
  obtain ⟨l', h1, h2⟩ : ∃ l',
      (s.within e (.controlIn l v :: k)).controlInStep l v k = some (s.within e (.controlIn l' v :: k)) ∧
      (s.within e (.controlIn l' v :: k)).controlInStep l' v k =
        some (s.within e (.controlIn .waitStatus v :: k)) := by
    rcases hl with rfl | rfl
    · exact ⟨.checkNak, by simp [State.controlInStep, hn, State.within_goto],
        by simp [State.controlInStep, hn, State.within_goto]⟩
    · exact ⟨.commitZlp, by simp [State.controlInStep, hn, State.within_goto],
        by simp [State.controlInStep, hn, State.within_goto]⟩
  exact (State.runsTo_in (State.within_engineAt hen) h1).trans (State.runsTo_in (State.within_engineAt hen) h2)

/-- With the bank free and no OUT refused the zero-length packet is committed apart from what the bank holds (lines 15 and
16, log 20). -/
theorem State.zlp_runsTo (hen : s.engineEnabled = true) (hsel : s.epc.sel = 0) (he : e.en = true) (ht : e.txin = true)
    (hn : e.nakout = false) :
    (s.within e (.controlIn .waitZlp v :: k)).RunsTo 2
      (s.within { e with txin := false, inq := some [] } (.controlIn .waitStatus v :: k)) := by
  have h1 : (s.within e (.controlIn .waitZlp v :: k)).RunsTo 1 (s.within e (.controlIn .commitZlp v :: k)) :=
    State.runsTo_in (State.within_engineAt hen) (by simp [State.controlInStep, ht, State.within_goto])
  have h2 : (s.within e (.controlIn .commitZlp v :: k)).RunsTo 1
      (s.within { e with txin := false, inq := some [] } (.controlIn .waitStatus v :: k)) :=
    State.runsTo_in (State.within_engineAt hen) (by
      simp [State.controlInStep, hn, State.within_commitApart hsel he ht, State.within_goto])
  exact h1.trans h2

/-- The status OUT is released and `control_in` returns (lines 17 to 19). -/
theorem State.statusOut_runsTo (hen : s.engineEnabled = true) (hsel : s.epc.sel = 0) (he : e.en = true)
    (hx : e.rxout = true) :
    (s.within e (.controlIn .waitStatus v :: k)).RunsTo 3
      ((s.within { e with fifo := [], rxout := false } []).goto k) := by
  have h1 : (s.within e (.controlIn .waitStatus v :: k)).RunsTo 1 (s.within e (.controlIn .release v :: k)) :=
    State.runsTo_in (State.within_engineAt hen) (by simp [State.controlInStep, hx, State.within_goto])
  have h2 : (s.within e (.controlIn .release v :: k)).RunsTo 1
      (s.within { e with fifo := [], rxout := false } (.controlIn .ret v :: k)) :=
    State.runsTo_in (State.within_engineAt hen) (by
      simp only [State.controlInStep, State.within_releaseOut hsel he hx, State.within_goto])
  have h3 : (s.within { e with fifo := [], rxout := false } (.controlIn .ret v :: k)).RunsTo 1
      ((s.within { e with fifo := [], rxout := false } []).goto k) :=
    State.runsTo_in (State.within_engineAt hen) rfl
  exact (h1.trans h2).trans h3

end InEnd

/-- Settles O35: each end of the data stage leads to the wait for the status OUT, and its release to the caller. -/
theorem controlInEnds : Obligations.ControlInEnds := by
  intro s u n k v hch
  refine ⟨fun l hn hl hk hnak hx => ?_, fun hn hk hsel he ht hnak => ?_, fun hn hk hsel he hx => ?_⟩
  · have hheld : (u.within (u.ep 0) (.controlIn .waitStatus v :: k)).micro = none := by
      rw [State.within_micro hk.1]
      simp [State.stmtStep, State.controlInStep, hx]
    rw [← State.within_ep]
    exact step_runsTo_held hch hk rfl (State.earlyOut_runsTo hl hk.1 hnak) (by omega) hheld
  · exact step_runsTo hch hk rfl (State.zlp_runsTo hk.1 hsel he ht hnak) (by omega)
  · exact step_runsTo hch hk rfl (State.statusOut_runsTo hk.1 hsel he hx) (by omega)

/-! ## The packets of `control_out` -/

/-- The events of the bytes read once `got` bytes of the stage have been: the first byte of the stage is marked (42 R206). -/
def outEvents (got : Nat) (bs : List Byte) : List Event :=
  bs.mapIdx fun j b => .outByte 0 b (decide (got + j = 0))

theorem outEvents_cons (got : Nat) (b : Byte) (bs : List Byte) :
    outEvents got (b :: bs) = .outByte 0 b (decide (got = 0)) :: outEvents (got + 1) bs := by
  simp [outEvents, List.mapIdx_cons, Nat.add_assoc, Nat.add_comm 1]

section Out

variable {s : State} {e : Ep} {k : List Stmt} {v : CoVars} {bs rest : List Byte}

/-- The bytes of one packet are read one by one (line 10). -/
theorem State.drain_runsTo (hen : s.engineEnabled = true) (hsel : s.epc.sel = 0) (he : e.en = true)
    (hf : e.fifo = bs ++ rest) :
    (s.within e (.controlOut (coDrain bs.length) v :: k)).RunsTo bs.length
      ({ s with trace := s.trace ++ outEvents v.got bs }.within { e with fifo := rest }
        (.controlOut .release { v with got := v.got + bs.length } :: k)) := by
  induction bs generalizing s e v with
  | nil =>
    rw [List.nil_append] at hf
    subst hf
    simpa [coDrain, outEvents] using State.RunsTo.refl _
  | cons b bs ih =>
    have hf' : e.fifo = b :: (bs ++ rest) := hf
    have hstep : (s.within e (.controlOut (.drain (bs.length + 1)) v :: k)).RunsTo 1
        ((s.record (.outByte 0 b (decide (v.got = 0)))).within { e with fifo := bs ++ rest }
          (.controlOut (coDrain bs.length) { v with got := v.got + 1 } :: k)) :=
      State.runsTo_out (State.within_engineAt hen) (by
        simp only [State.controlOutStep, State.within_receiveByte hsel he hf', State.within_goto])
    have hrest := ih (s := s.record (.outByte 0 b (decide (v.got = 0)))) (e := { e with fifo := bs ++ rest })
      (v := { v with got := v.got + 1 }) hen hsel he rfl
    have hall := hstep.trans hrest
    rw [State.record_trace, List.append_assoc, List.singleton_append, ← outEvents_cons, Nat.add_comm 1 bs.length,
      Nat.add_assoc, Nat.add_comm 1 bs.length] at hall
    exact hall

/-- From the wait for an OUT packet to the loop test, a packet in the bank is read up to the bytes still expected, and the
rest of it is dropped with its release (lines 7 to 11). -/
theorem State.outPacket_runsTo (hen : s.engineEnabled = true) (hsel : s.epc.sel = 0) (he : e.en = true)
    (hx : e.rxout = true) :
    (s.within e (.controlOut .waitData v :: k)).RunsTo (min e.fifo.length (v.len - v.got) + 4)
      ({ s with trace := s.trace ++ outEvents v.got (e.fifo.take (v.len - v.got)) }.within
        { e with fifo := [], rxout := false }
        (.controlOut .loop { v with got := v.got + min e.fifo.length (v.len - v.got) } :: k)) := by
  have hlen : (e.fifo.take (v.len - v.got)).length = min e.fifo.length (v.len - v.got) := by
    rw [List.length_take, Nat.min_comm]
  have h1 : (s.within e (.controlOut .waitData v :: k)).RunsTo 1 (s.within e (.controlOut .checkOut v :: k)) :=
    State.runsTo_out (State.within_engineAt hen) (by simp [State.controlOutStep, hx, State.within_goto])
  have h2 : (s.within e (.controlOut .checkOut v :: k)).RunsTo 1 (s.within e (.controlOut .packetSize v :: k)) :=
    State.runsTo_out (State.within_engineAt hen) (by simp [State.controlOutStep, hx, State.within_goto])
  have h3 : (s.within e (.controlOut .packetSize v :: k)).RunsTo 1
      (s.within e (.controlOut (coDrain (e.fifo.take (v.len - v.got)).length) v :: k)) :=
    State.runsTo_out (State.within_engineAt hen) (by
      simp only [State.controlOutStep, State.within_selected hsel, Ep.byteCount, hlen, State.within_goto])
  have h4 := State.drain_runsTo (v := v) (k := k) hen hsel he (List.take_append_drop (v.len - v.got) e.fifo).symm
  rw [hlen] at h3 h4
  generalize outEvents v.got (e.fifo.take (v.len - v.got)) = es at h4 ⊢
  generalize min e.fifo.length (v.len - v.got) = n at h3 h4 ⊢
  have h5 : ({ s with trace := s.trace ++ es }.within { e with fifo := e.fifo.drop (v.len - v.got) }
        (.controlOut .release { v with got := v.got + n } :: k)).RunsTo 1
      ({ s with trace := s.trace ++ es }.within { e with fifo := [], rxout := false }
        (.controlOut .loop { v with got := v.got + n } :: k)) := by
    have hrel := fun k' => State.within_releaseOut (s := { s with trace := s.trace ++ es })
      (e := { e with fifo := e.fifo.drop (v.len - v.got) }) (k := k') hsel he hx
    exact State.runsTo_out (State.within_engineAt hen) (by simp only [State.controlOutStep, hrel, State.within_goto])
  have hall := (((h1.trans h2).trans h3).trans h4).trans h5
  rwa [show 1 + 1 + 1 + n + 1 = n + 4 by omega] at hall

/-- The loop test goes on while bytes are expected (line 6). -/
theorem State.outLoop_runsTo (hen : s.engineEnabled = true) :
    (s.within e (.controlOut .loop v :: k)).RunsTo 1
      (s.within e (.controlOut (if v.got < v.len then .waitData else .waitReady) v :: k)) := by
  refine State.runsTo_out (State.within_engineAt hen) ?_
  simp only [State.controlOutStep]
  split <;> rfl

/-- An IN refused, with no OUT packet, ends the data stage (lines 7 and 8). -/
theorem State.earlyIn_runsTo (hen : s.engineEnabled = true) (hx : e.rxout = false) (hn : e.nakin = true) :
    (s.within e (.controlOut .waitData v :: k)).RunsTo 2 (s.within e (.controlOut .waitReady v :: k)) := by
  have h1 : (s.within e (.controlOut .waitData v :: k)).RunsTo 1 (s.within e (.controlOut .checkOut v :: k)) :=
    State.runsTo_out (State.within_engineAt hen) (by simp [State.controlOutStep, hn, State.within_goto])
  have h2 : (s.within e (.controlOut .checkOut v :: k)).RunsTo 1 (s.within e (.controlOut .waitReady v :: k)) :=
    State.runsTo_out (State.within_engineAt hen) (by simp [State.controlOutStep, hx, State.within_goto])
  exact h1.trans h2

/-! ## The status stage of `control_out` -/

/-- Once the bank is free the zero-length status packet is committed apart from what it holds (lines 12 and 13, log 20). -/
theorem State.statusIn_runsTo (hen : s.engineEnabled = true) (hsel : s.epc.sel = 0) (he : e.en = true)
    (ht : e.txin = true) :
    (s.within e (.controlOut .waitReady v :: k)).RunsTo 2
      (s.within { e with txin := false, inq := some [] } (.controlOut .waitDone v :: k)) := by
  have h1 : (s.within e (.controlOut .waitReady v :: k)).RunsTo 1 (s.within e (.controlOut .commit v :: k)) :=
    State.runsTo_out (State.within_engineAt hen) (by simp [State.controlOutStep, ht, State.within_goto])
  have h2 : (s.within e (.controlOut .commit v :: k)).RunsTo 1
      (s.within { e with txin := false, inq := some [] } (.controlOut .waitDone v :: k)) :=
    State.runsTo_out (State.within_engineAt hen) (by
      simp only [State.controlOutStep, State.within_commitApart hsel he ht, State.within_goto])
  exact h1.trans h2

/-- Once the host has taken the status packet `control_out` returns (lines 14 and 15). -/
theorem State.statusDone_runsTo (hen : s.engineEnabled = true) (ht : e.txin = true) :
    (s.within e (.controlOut .waitDone v :: k)).RunsTo 2 ((s.within e []).goto k) := by
  have h1 : (s.within e (.controlOut .waitDone v :: k)).RunsTo 1 (s.within e (.controlOut .ret v :: k)) :=
    State.runsTo_out (State.within_engineAt hen) (by simp [State.controlOutStep, ht, State.within_goto])
  have h2 : (s.within e (.controlOut .ret v :: k)).RunsTo 1 ((s.within e []).goto k) :=
    State.runsTo_out (State.within_engineAt hen) rfl
  exact h1.trans h2

end Out

/-- Settles O36: each part of `control_out` is a run from one of its holds, or from the loop test, to the next. -/
theorem controlOutReadsPacket : Obligations.ControlOutReadsPacket := by
  intro s u k v n hch
  refine ⟨fun hn hk hsel he hx => ?_, fun hn hk => ?_, fun hn hk hx hnak => ?_, fun hn hk hsel he ht => ?_,
    fun hn hk ht => ?_⟩
  · exact step_runsTo hch hk rfl (State.outPacket_runsTo hk.1 hsel he hx) (by omega)
  · rw [← State.within_ep]
    exact step_runsTo hch hk rfl (State.outLoop_runsTo hk.1) (by omega)
  · rw [← State.within_ep]
    exact step_runsTo hch hk rfl (State.earlyIn_runsTo hk.1 hx hnak) (by omega)
  · exact step_runsTo hch hk rfl (State.statusIn_runsTo hk.1 hsel he ht) (by omega)
  · have hret : { u with engine := Engine.ofCont k } = (u.within (u.ep 0) []).goto k := by rw [State.within_ep]; rfl
    rw [hret]
    exact step_runsTo hch hk rfl (State.statusDone_runsTo hk.1 ht) (by omega)

end Sys2Proof.Machine
end

section
/-! PROOFS. The requests that complete by the stall path: where the run of an instruction ends, and what the host is
answered after it (O10, O11, O13 to O15). -/

namespace Sys2Proof.Machine

/-! ## Where the run of an instruction ends -/

/-- From `s` every run of `n` micro-steps or more ends in `t`. -/
def State.EndsIn (s : State) (n : Nat) (t : State) : Prop := ∀ m, n ≤ m → State.runEngine m s = t

section Ends

variable {s t u : State} {k p : List Stmt} {st : Stmt} {c : Check} {m n : Nat}

theorem State.EndsIn.mono (h : s.EndsIn m t) (hmn : m ≤ n) : s.EndsIn n t := fun l hl => h l (hmn.trans hl)

theorem State.RunsTo.endsIn (h : s.RunsTo m t) (h' : t.EndsIn n u) : s.EndsIn (m + n) u := by
  intro l hl
  obtain ⟨d, rfl⟩ := Nat.exists_eq_add_of_le hl
  rw [Nat.add_assoc, h, h' _ (Nat.le_add_right n d)]

theorem State.RunsTo.endsIn_boundary (h : s.RunsTo n t) (ht : t.engine.boundary = true) : s.EndsIn n t :=
  fun _ hm => h.stops hm ht

theorem State.RunsTo.endsIn_held (h : s.RunsTo n t) (ht : t.micro = none) : s.EndsIn n t :=
  fun _ hm => h.holds hm ht

/-- A statement that is no boundary takes one micro-step. -/
theorem State.goto_runsTo (hen : s.engineEnabled = true) (hb : (Engine.busy (st :: k)).boundary = false)
    (hs : (s.goto (st :: k)).stmtStep st k = some t) : (s.goto (st :: k)).RunsTo 1 t :=
  State.runsTo_stmt ⟨hen, rfl⟩ hb hs

/-- An instruction answers the state in which its handler and the stall path end. -/
theorem State.execute_endsIn (h : s.atInstr k) (hp : (s.goto (p ++ (stallPath ++ k))).EndsIn n t)
    (hn : n ≤ s.burst) : s.execute p = .next t := by
  rw [State.execute, State.atInstr_enter h, hp _ hn]

theorem State.checkProgram_goto (s : State) (k : List Stmt) (c : Check) :
    (s.goto k).checkProgram c = s.checkProgram c := by
  cases c <;> rfl

/-- A test takes one micro-step, and its program is run next. -/
theorem State.EndsIn.check (hc : s.checkProgram c = p) (h : (s.goto (p ++ k)).EndsIn n t)
    (hen : s.engineEnabled = true) : (s.goto (.check c :: k)).EndsIn (1 + n) t := by
  refine State.RunsTo.endsIn (State.goto_runsTo hen rfl ?_) h
  simp only [State.stmtStep, State.checkProgram_goto, hc]
  rfl

theorem State.stallPath_endsIn (hen : s.engineEnabled = true) (k : List Stmt) :
    (s.goto (stallPath ++ k)).EndsIn 4 (s.afterStall k) :=
  fun _ hm => State.stallPath_runs (s := s.goto (stallPath ++ k)) ⟨hen, rfl⟩ hm

end Ends

/-! ## The requests -/

/-- Settles O10: none of the seven has a statement of its own before the stall path. -/
theorem requestsWithoutEffectStall : Obligations.RequestsWithoutEffectStall := by
  intro s k d p v x l h hb
  have hstall := State.execute_stall h hb
  exact ⟨hstall, hstall, hstall, hstall, hstall, hstall, hstall⟩

/-- Settles O11: nor has any of the five. -/
theorem reservedCodesAndTypesStall : Obligations.ReservedCodesAndTypesStall := by
  intro s k d p q v x l h hb
  have hstall := State.execute_stall h hb
  exact ⟨hstall, hstall, hstall, hstall, hstall⟩

/-- GET_STATUS for a recipient it does not serve, or for an endpoint above 4 (43 R235). -/
theorem State.statusRecipient_stalls {s : State} {p : Recipient} {x : Half} (hen : s.engineEnabled = true)
    (k : List Stmt)
    (hp : (p ≠ .device ∧ p ≠ .endpoint) ∨ (p = .endpoint ∧ 4 < (x.extractLsb' 0 4).toNat)) :
    (s.goto (.check (.statusRecipient p x) :: (stallPath ++ k))).EndsIn 6 (s.afterStall k) := by
  have hstall := State.stallPath_endsIn hen k
  rcases hp with ⟨hdev, hep⟩ | ⟨rfl, hx⟩
  · have hc : s.checkProgram (.statusRecipient p x) = [] := by
      cases p with
      | device => exact absurd rfl hdev
      | endpoint => exact absurd rfl hep
      | _ => rfl
    exact (State.EndsIn.check hc hstall hen).mono (by omega)
  · have hc : s.checkProgram (.statusNumber x) = [] := dif_neg (Nat.not_lt.mpr hx)
    exact State.EndsIn.check (p := [.check (.statusNumber x)]) rfl (State.EndsIn.check hc hstall hen) hen

theorem setAddressLegal_eq_false {d : Dir} {p : Recipient} {q : DeviceState}
    (h : d = .toHost ∨ p ≠ .device ∨ q ≠ .default) : setAddressLegal d p q = false := by
  rcases h with rfl | h | h
  · rfl
  · simp [setAddressLegal, h]
  · simp [setAddressLegal, h]

theorem setConfigurationLegal_eq_false {d : Dir} {p : Recipient} {v : Half} {q : DeviceState}
    (h : d = .toHost ∨ p ≠ .device ∨ q ≠ .address ∨ 1 < v.toNat) : setConfigurationLegal d p v q = false := by
  rcases h with rfl | h | h | h
  · rfl
  · simp [setConfigurationLegal, h]
  · simp [setConfigurationLegal, h]
  · simp [setConfigurationLegal, Nat.not_le.mpr h]

theorem getDescriptorLegal_eq_false {d : Dir} {p : Recipient} (h : d = .toDevice ∨ p = .endpoint) :
    getDescriptorLegal d p = false := by
  rcases h with rfl | rfl
  · rfl
  · simp [getDescriptorLegal]

/-- Settles O13: each handler's first test fails, or, for GET_STATUS that is IN, its second or third. -/
theorem failedChecksStall : Obligations.FailedChecksStall := by
  intro s k d p n q v x l h hb
  have hfirst : ∀ c, s.checkProgram c = [] → s.execute [.check c] = .next (s.afterStall k) :=
    fun c hc => State.execute_check_stall h hc (by omega)
  refine ⟨fun hc => ?status, fun hc => ?address, fun hc => ?configuration, fun hc => ?descriptor, fun hc => ?vendor⟩
  case status =>
    cases d with
    | toDevice => exact hfirst (.statusDirection .toDevice p x) rfl
    | toHost =>
      have hrecip := State.statusRecipient_stalls h.1 k (hc.resolve_left nofun)
      exact State.execute_endsIn h
        (State.EndsIn.check (p := [.check (.statusRecipient p x)]) rfl hrecip h.1) (by omega)
  case address => exact hfirst (.address d p v) (by
    simp [State.checkProgram, addressProgram, setAddressLegal_eq_false hc, stall])
  case configuration => exact hfirst (.configuration d p v) (by
    simp [State.checkProgram, configurationProgram, setConfigurationLegal_eq_false hc, stall])
  case descriptor =>
    have hrow : ∀ row, s.execute [.check (.descriptor d p row)] = .next (s.afterStall k) := fun row =>
      hfirst _ (by simp [State.checkProgram, descriptorProgram, getDescriptorLegal_eq_false hc, stall])
    exact ⟨hrow _, hrow _, hrow _⟩
  case vendor => exact hfirst .vendor (by simp [State.checkProgram, vendorPresentProgram, hc, stall])

/-! ## After the stall path -/

theorem State.afterStall_ep0 (s : State) (k : List Stmt) : (s.afterStall k).ep 0 = (s.ep 0).stalled :=
  Eps.get_set_self s.eps 0 _

theorem Ep.stalled_of_pending {e : Ep} (hen : e.en = true) (hs : e.rxstp = true) :
    e.stalled = { e with stallReq := true, fifo := [], rxstp := false, txin := true } :=
  if_pos ⟨hen, hs⟩

/-- Endpoint 0 takes both directions. -/
theorem State.hostIn_zero (s : State) (a : BitVec 7) :
    s.hostIn a 0 =
      if a ≠ s.epc.deviceAddress ∨ (s.ep 0).en = false then s.answer (.tokenIn a 0) .timeout
      else s.hostInAt (.tokenIn a 0) 0 := by
  simp [State.hostIn]

/-- Settles O14: endpoint 0 is enabled and stalls, and neither transaction looks further. -/
theorem stalledRequestAnswersStall : Obligations.StalledRequestAnswersStall := by
  intro s k p ha hen hs hp
  have hep := (s.afterStall_ep0 k).trans (Ep.stalled_of_pending hen hs)
  have haddr : (s.afterStall k).epc.deviceAddress = s.epc.deviceAddress := rfl
  constructor
  · rw [State.hostStep_tokenIn (s := s.afterStall k) ha, State.hostIn_zero]
    simp [haddr, hep, hen, State.hostInAt]
  · rw [State.hostStep_tokenOut (s := s.afterStall k) ha, State.hostOut_zero _ (by rwa [hep])]
    simp [haddr, hep, hen, State.hostOut0]

/-- Settles O15: the step is a run of the stall path. -/
theorem stallPathConsumesPendingSetup : Obligations.StallPathConsumesPendingSetup := by
  intro s u n k hch hn hk
  rw [step_engine hch hk rfl, State.stallPath_runs (k := k) hk (by omega)]
  rfl

end Sys2Proof.Machine
end

section
/-! PROOFS. GET_STATUS: the status word is stored and its first packet committed (O16, O17), and no instruction stores
anything else (O18). -/

namespace Sys2Proof.Machine

/-! ## The first packet of an instruction -/

section Packet

variable {s : State} {k : List Stmt} {r : Request} {bs : List Byte} {len : Nat}

/-- Of the bytes given only those of the first packet count. -/
theorem ciFirst_take (e : Ep) (bs : List Byte) (len wl mps : Nat) :
    ciFirst e (bs.take (min (min len wl) mps)) len wl mps = ciFirst e bs len wl mps := by
  simp only [ciFirst, List.take_take, Nat.min_self]

/-- `control_in` of a source whose first bytes are `bs` holds once its first packet is committed. -/
theorem State.controlIn_endsIn (h : s.readyAt k r) (src : Source) (hb : s.sourceBytes src 0 bs)
    (hbs : min (min len r.wLength.toNat) s.core.ctrlMps.toNat ≤ bs.length) :
    (s.goto (controlIn src len :: (stallPath ++ k))).EndsIn 90 (s.firstPacket src len r.wLength.toNat bs k) := by
  obtain ⟨⟨hat, hsel, hreq, hen, hrxstp, _⟩, hrxout, hinq, hnak, hfits⟩ := h
  intro m hm
  rw [State.controlIn_first (s := s.goto (controlIn src len :: (stallPath ++ k))) hat.1 hsel hreq hen hrxstp hrxout
    hinq hnak hfits src len rfl (bs.take (min (min len r.wLength.toNat) s.core.ctrlMps.toNat))
    (by rw [List.length_take, Nat.min_eq_left hbs, State.goto_core])
    (fun j hj => by
      rw [List.length_take] at hj
      rw [List.getElem_take]
      exact hb j (by omega)) hm, State.goto_core, ciFirst_take]
  rfl

end Packet

/-! ## The status word -/

section Status

variable {s : State} {k : List Stmt} {r : Request}

theorem State.ramWriteByte_goto {a : Nat} (ha : a < s.par.ramSize) (b : Byte) :
    (s.goto k).ramWriteByte a b = .ok (State.goto { s with ram := Memory.set a b s.ram } k) :=
  if_pos ha

/-- A run of bytes inside RAM is stored, a byte a micro-step (20 R67). -/
theorem State.ramWrite_runsTo (hen : s.engineEnabled = true) {a : Nat} (b : Byte) (bs : List Byte)
    (ha : a + bs.length < s.par.ramSize) :
    (s.goto (.ramWrite a (b :: bs) :: k)).RunsTo (bs.length + 1)
      (State.goto { s with ram := Memory.setAll a (b :: bs) s.ram } k) := by
  have ha0 : a < s.par.ramSize := by omega
  induction bs generalizing s a b with
  | nil =>
    exact State.goto_runsTo hen rfl (by
      simp only [State.stmtStep, State.ramWriteStep, State.ramWriteByte_goto ha0]; rfl)
  | cons c cs ih =>
    rw [List.length_cons] at ha
    have hfirst : (s.goto (.ramWrite a (b :: c :: cs) :: k)).RunsTo 1
        (State.goto { s with ram := Memory.set a b s.ram } (.ramWrite (a + 1) (c :: cs) :: k)) :=
      State.goto_runsTo hen rfl (by simp only [State.stmtStep, State.ramWriteStep, State.ramWriteByte_goto ha0]; rfl)
    have hrest := ih (s := { s with ram := Memory.set a b s.ram }) hen (a := a + 1) c
      (show a + 1 + cs.length < s.par.ramSize by omega) (show a + 1 < s.par.ramSize by omega)
    rw [List.length_cons, Nat.add_comm (cs.length + 1) 1]
    exact hfirst.trans hrest

/-- Bytes just stored inside RAM can be read. -/
theorem State.sourceBytes_setAll {a : Nat} {bs : List Byte} (ha : a + bs.length ≤ s.par.ramSize) :
    State.sourceBytes { s with ram := Memory.setAll a bs s.ram } ⟨.ram, a⟩ 0 bs := by
  intro j hj
  simp only [State.byteAt, State.ramRead, Nat.zero_add, Memory.get?_setAll_mem bs s.ram hj, Option.some_or]
  exact if_pos (by omega)

/-- The two bytes of a status word are stored and sent (43 R236). -/
theorem State.statusReply_endsIn (h : s.readyAt k r) (ha : s.par.statusAddr + 1 < s.par.ramSize) (w : Half) :
    (s.goto (statusReply s.par w ++ (stallPath ++ k))).EndsIn 92
      (State.firstPacket { s with ram := Memory.setAll s.par.statusAddr [loByte w, hiByte w] s.ram }
        ⟨.ram, s.par.statusAddr⟩ 2 r.wLength.toNat [loByte w, hiByte w] k) := by
  have ⟨⟨hat, _⟩, _⟩ := h
  have hstore := State.ramWrite_runsTo (k := controlIn ⟨.ram, s.par.statusAddr⟩ 2 :: (stallPath ++ k)) hat.1
    (loByte w) [hiByte w] ha
  have hsource := State.sourceBytes_setAll (s := s) (a := s.par.statusAddr) (bs := [loByte w, hiByte w]) ha
  exact hstore.endsIn (State.controlIn_endsIn
    (s := { s with ram := Memory.setAll s.par.statusAddr [loByte w, hiByte w] s.ram }) h _ hsource (by simp))

/-- GET_STATUS that is IN comes to its second test (43 R235). -/
theorem State.statusDirection_endsIn {t : State} {p : Recipient} {x : Half} {n : Nat} (hen : s.engineEnabled = true)
    (h : (s.goto (.check (.statusRecipient p x) :: k)).EndsIn n t) :
    (s.goto (.check (.statusDirection .toHost p x) :: k)).EndsIn (1 + n) t :=
  State.EndsIn.check (p := [.check (.statusRecipient p x)]) rfl h hen

/-- Settles O16: after its two tests the device's zero word is stored and sent. -/
theorem getStatusDeviceSendsZero : Obligations.GetStatusDeviceSendsZero := by
  intro s k r v x l h ha
  have ⟨⟨hat, _, _, _, _, hburst⟩, _⟩ := h
  have hreply := State.EndsIn.check (c := .statusRecipient .device x) rfl (State.statusReply_endsIn h ha 0) hat.1
  exact State.execute_endsIn hat (State.statusDirection_endsIn hat.1 hreply) (by omega)

/-- SEL of an endpoint. -/
theorem State.sel_runsTo (hen : s.engineEnabled = true) (n : EpNum) :
    (s.goto (.sel n.val :: k)).RunsTo 1 (State.goto { s with epc := { s.epc with sel := n } } k) :=
  State.goto_runsTo hen rfl (by simp only [State.stmtStep, State.select_num]; rfl)

/-- The halt bit of an endpoint is read, with endpoint 0 selected again after it (43 R235). -/
theorem State.readHalt_runsTo (hen : s.engineEnabled = true) (hsel : s.epc.sel = 0) (n : EpNum) :
    (s.goto (.sel n.val :: .readHalt n :: k)).RunsTo 3
      (s.goto (statusReply s.par (haltWord (s.ep n).stallReq) ++ k)) := by
  have hselect := State.sel_runsTo (k := .readHalt n :: k) hen n
  have hread : (State.goto { s with epc := { s.epc with sel := n } } (.readHalt n :: k)).RunsTo 1
      (State.goto { s with epc := { s.epc with sel := n } }
        (.sel (0 : EpNum).val :: (statusReply s.par (haltWord (s.ep n).stallReq) ++ k))) :=
    State.goto_runsTo (s := { s with epc := { s.epc with sel := n } }) hen rfl rfl
  have hback := State.sel_runsTo (s := { s with epc := { s.epc with sel := n } })
    (k := statusReply s.par (haltWord (s.ep n).stallReq) ++ k) hen 0
  have hsame : ({ s with epc := { s.epc with sel := 0 } } : State) = s := by rw [← hsel]
  have hall := (hselect.trans hread).trans hback
  rwa [hsame] at hall

theorem loByte_haltWord (b : Bool) : loByte (haltWord b) = if b then 1 else 0 := by
  cases b <;> decide

theorem hiByte_haltWord (b : Bool) : hiByte (haltWord b) = 0 := by
  cases b <;> decide

/-- Settles O17: after its three tests the endpoint's halt bit is read, stored and sent. -/
theorem getStatusEndpointSendsHaltBit : Obligations.GetStatusEndpointSendsHaltBit := by
  intro s k r v x l n h ha hn
  have ⟨⟨hat, hsel, _, _, _, hburst⟩, _⟩ := h
  have hnumber : s.checkProgram (.statusNumber x) = [.sel n.val, .readHalt n] := by
    have hx : statusEndpoint x = n.val := hn
    simp [State.checkProgram, statusNumberProgram, hx]
  have hreply := State.statusReply_endsIn h ha (haltWord (s.ep n).stallReq)
  have hhalt := (State.readHalt_runsTo (k := stallPath ++ k) hat.1 hsel n).endsIn hreply
  have hrecip := State.EndsIn.check (c := .statusRecipient .endpoint x) (p := [.check (.statusNumber x)]) rfl
    (State.EndsIn.check hnumber hhalt hat.1) hat.1
  rw [loByte_haltWord, hiByte_haltWord] at hrecip
  exact State.execute_endsIn hat (State.statusDirection_endsIn hat.1 hrecip) (by omega)

end Status

/-! ## What the instructions store -/

/-- A statement of a handler that stores nothing outside the two bytes at `a`, and nothing at all unless `status`. -/
def Stmt.storesIn (status : Prop) (a : Nat) : Stmt → Prop
  | .ramWrite b bs => status ∧ a ≤ b ∧ b + bs.length ≤ a + 2
  | .readHalt _ => status
  | .check (.statusDirection _ _ _) => status
  | .check (.statusRecipient _ _) => status
  | .check (.statusNumber _) => status
  | .init _ => False
  | _ => True

/-- The same for each statement of a program. -/
def StoresIn (status : Prop) (a : Nat) (k : List Stmt) : Prop := ∀ st ∈ k, st.storesIn status a

section Stores

variable {status : Prop} {a : Nat} {s t u v : State} {st : Stmt} {k l : List Stmt}

@[simp] theorem storesIn_nil : StoresIn status a [] := fun _ h => nomatch h

@[simp] theorem storesIn_cons : StoresIn status a (st :: k) ↔ st.storesIn status a ∧ StoresIn status a k := by
  simp [StoresIn]

theorem StoresIn.append (hk : StoresIn status a k) (hl : StoresIn status a l) : StoresIn status a (k ++ l) :=
  fun st h => (List.mem_append.mp h).elim (hk st) (hl st)

theorem statusReply_storesIn (p : Params) (w : Half) (h : status) : StoresIn status p.statusAddr (statusReply p w) := by
  simp [statusReply, Stmt.storesIn, controlIn, h]

/-- Only GET_STATUS's tests lead to a store, and that is of the status word. -/
theorem State.checkProgram_storesIn {c : Check} (h : (Stmt.check c).storesIn status s.par.statusAddr) :
    StoresIn status s.par.statusAddr (s.checkProgram c) := by
  cases c with
  | statusDirection d p x =>
    simp only [State.checkProgram, statusDirectionProgram, stall]
    split
    · simpa [Stmt.storesIn] using h
    · exact storesIn_nil
  | statusRecipient p x =>
    cases p with
    | device => exact statusReply_storesIn _ _ h
    | endpoint => simpa [State.checkProgram, statusRecipientProgram, Stmt.storesIn] using h
    | _ => exact storesIn_nil
  | statusNumber x =>
    simp only [State.checkProgram, statusNumberProgram, stall]
    split
    · simpa [Stmt.storesIn] using h
    · exact storesIn_nil
  | address d p v =>
    simp only [State.checkProgram, addressProgram, setAddressProgram, stall]
    split <;> simp [Stmt.storesIn, controlOut]
  | descriptor d p row =>
    simp only [State.checkProgram, descriptorProgram, stall]
    split <;> simp [Stmt.storesIn]
  | resolve row => cases row <;> simp [State.checkProgram, resolveProgram, stall, Stmt.storesIn]
  | configuration d p v =>
    simp only [State.checkProgram, configurationProgram, setConfigurationProgram, stall]
    split <;> simp [Stmt.storesIn, controlOut]
  | vendor =>
    simp only [State.checkProgram, vendorPresentProgram, stall]
    split <;> simp [Stmt.storesIn]

theorem builtInString_storesIn (p : Params) (w : Half) : StoresIn status a (builtInString p w) := by
  unfold builtInString
  split
  · simp [controlIn, Stmt.storesIn]
  · split <;> simp [controlIn, Stmt.storesIn]

theorem vendorProgram_storesIn {w : VendorAnswer} {p : List Stmt} (h : vendorProgram w = some p) :
    StoresIn status a p := by
  cases w <;> cases h <;> simp [controlIn, controlOut, Stmt.storesIn]

theorem serveNext_storesIn (n m : Nat) : StoresIn status a [serveNext n m] := by
  unfold serveNext; split <;> simp [Stmt.storesIn]

/-- A statement other than a store, a test and the read of a halt bit leads to no store. -/
theorem Stmt.Next.storesIn (h : st.Next l) (hst : st.storesIn status a) (hw : ∀ b bs, st ≠ .ramWrite b bs)
    (hc : ∀ c, st ≠ .check c) (hr : ∀ n, st ≠ .readHalt n) : StoresIn status a l := by
  cases h with
  | ramWrite b b' bs bs' => exact absurd rfl (hw b bs)
  | check c s => exact absurd rfl (hc c)
  | status n p w => exact absurd rfl (hr n)
  | init | initTail => exact hst.elim
  | bound n m | served _ _ n m => exact serveNext_storesIn n m
  | builtIn w x p => exact builtInString_storesIn p w
  | vendor w p h => exact vendorProgram_storesIn h
  | configured eds => simp [StoresIn, Stmt.storesIn]
  | _ => simp [Stmt.storesIn, Machine.controlIn]

/-- A store inside the status word stores its first byte and leaves the rest of it, or faults. -/
theorem State.ramWriteStep_storesIn {b : Nat} {bs : List Byte}
    (h : (Stmt.ramWrite b bs).storesIn status s.par.statusAddr) :
    (∃ f, s.ramWriteStep b bs k = s.raise f) ∨
      ∃ u l, s.Effect (.ramWrite b bs) u ∧ StoresIn status s.par.statusAddr l ∧
        s.ramWriteStep b bs k = u.goto (l ++ k) := by
  obtain ⟨hs, hlo, hhi⟩ := h
  match bs with
  | [] => exact .inr ⟨s, [], .nothing _, storesIn_nil, rfl⟩
  | [c] =>
    cases hw : s.ramWriteByte b c with
    | error f => exact .inl ⟨f, by simp only [State.ramWriteStep, hw]; rfl⟩
    | ok u => exact .inr ⟨u, [], .store b c [] u hw, storesIn_nil, by simp only [State.ramWriteStep, hw]; rfl⟩
  | c :: d :: ds =>
    have hrest : StoresIn status s.par.statusAddr [.ramWrite (b + 1) (d :: ds)] := by
      simp only [List.length_cons] at hhi
      simp only [storesIn_cons, storesIn_nil, Stmt.storesIn, List.length_cons, and_true]
      exact ⟨hs, by omega, by omega⟩
    cases hw : s.ramWriteByte b c with
    | error f => exact .inl ⟨f, by simp only [State.ramWriteStep, hw]; rfl⟩
    | ok u => exact .inr ⟨u, _, .store b c _ u hw, hrest, by simp only [State.ramWriteStep, hw]; rfl⟩

/-- A micro-step of such a statement leads to such statements. -/
theorem State.stmtStep_storesIn (hst : st.storesIn status s.par.statusAddr) (h : s.stmtStep st k = some t) :
    (∃ f, t = s.raise f) ∨
      ∃ u l, s.Effect st u ∧ StoresIn status s.par.statusAddr l ∧ t = u.goto (l ++ k) := by
  by_cases hc : ∃ c, st = .check c
  · obtain ⟨c, rfl⟩ := hc
    cases h
    exact .inr ⟨s, _, .nothing _, State.checkProgram_storesIn hst, rfl⟩
  by_cases hr : ∃ n, st = .readHalt n
  · obtain ⟨n, rfl⟩ := hr
    cases h
    have hreply := statusReply_storesIn s.par (haltWord (s.ep n).stallReq) hst
    exact .inr ⟨s, .sel 0 :: _, .nothing _, storesIn_cons.mpr ⟨True.intro, hreply⟩, rfl⟩
  by_cases hw : ∃ b bs, st = .ramWrite b bs
  · obtain ⟨b, bs, rfl⟩ := hw
    cases h
    exact State.ramWriteStep_storesIn hst
  · simp only [not_exists] at hc hr hw
    exact (State.stmtStep_stepsBy h).imp_right fun ⟨u, l, hu, hl, ht⟩ =>
      ⟨u, l, hu, hl.storesIn hst hw hc hr, ht⟩

/-- `t` is a state of the run of an instruction begun in `s`, up to the dispatcher's return: RAM has changed in the
status word at most, or, unless `status`, not at all, and what is still to run before the return stores no more. -/
structure State.Storing (status : Prop) (s t : State) : Prop where
  par : t.par = s.par
  outside : ∀ a, a ≠ s.par.statusAddr → a ≠ s.par.statusAddr + 1 → Memory.get? a t.ram = Memory.get? a s.ram
  same : ¬status → t.ram = s.ram
  cont : ∃ l k, StoresIn status s.par.statusAddr l ∧ t.cont = l ++ .dispatchReturn :: k

theorem State.Storing.effect (h : s.Storing status t) (hst : st.storesIn status s.par.statusAddr)
    (hu : t.Effect st u) (hl : StoresIn status s.par.statusAddr l) :
    s.Storing status (u.goto (l ++ .dispatchReturn :: k)) := by
  obtain ⟨_, hpar, _⟩ := hu.fixed
  have hcont := u.goto_cont (l ++ .dispatchReturn :: k)
  rcases hu.ram with e | ⟨b, c, cs, rfl, _, e⟩
  · exact ⟨hpar.trans h.par, fun a h0 h1 => e ▸ h.outside a h0 h1, fun hn => e.trans (h.same hn), l, k, hl, hcont⟩
  · obtain ⟨hs, hlo, hhi⟩ := hst
    rw [List.length_cons] at hhi
    refine ⟨hpar.trans h.par, fun a h0 h1 => ?_, fun hn => absurd hs hn, l, k, hl, hcont⟩
    rw [State.goto_ram, e, Memory.get?_set_ne _ _ (by omega), h.outside a h0 h1]

/-- A micro-step before the dispatcher's return keeps it. -/
theorem State.Storing.micro (h : s.Storing status t) (hb : t.engine.boundary = false) (hm : t.micro = some v) :
    s.Storing status v := by
  obtain ⟨l, k, hl, hk⟩ := h.cont
  rcases State.micro_cases hm with ⟨he, _⟩ | ⟨he, _⟩ | ⟨he, _⟩ | ⟨st, k', he, hst⟩
  · simp [State.cont, he] at hk
  · simp [State.cont, he] at hk
  · simp [State.cont, he] at hk
  · rw [State.cont_busy he] at hk
    cases l with
    | nil =>
      obtain ⟨rfl, _⟩ := List.cons.inj hk
      rw [he] at hb
      cases hb
    | cons st' l =>
      obtain ⟨rfl, rfl⟩ := List.cons.inj hk
      obtain ⟨hhead, htail⟩ := storesIn_cons.mp hl
      rw [← h.par] at hhead htail
      rcases State.stmtStep_storesIn hhead hst with ⟨f, rfl⟩ | ⟨u, l', hu, hl', rfl⟩
      · exact ⟨h.par, h.outside, h.same, by rw [State.raise_cont]; exact h.cont⟩
      · rw [h.par] at hhead htail hl'
        rw [List.append_eq, ← List.append_assoc]
        exact h.effect hhead hu (hl'.append htail)

/-- What every micro-step keeps that a run takes, a run keeps. -/
theorem State.runEngine_induct_inside {P : State → Prop}
    (hm : ∀ t v, P t → t.engine.boundary = false → t.micro = some v → P v) (n : Nat) (h : P s) :
    P (State.runEngine n s) := by
  induction n generalizing s with
  | zero => exact h
  | succ n ih =>
    simp only [State.runEngine]
    split
    · exact h
    · next hb =>
      split
      · exact h
      · next v hv => exact ih (hm s v h (by simpa using hb) hv)

/-- Only the handler of GET_STATUS starts with a test that leads to a store. -/
theorem handlerOf_storesIn (i : Instr) : StoresIn (∃ d p v x l, i = .getStatus d p v x l) a (handlerOf i) := by
  cases i <;> simp [handlerOf, Stmt.storesIn]

theorem State.enter_storing (s : State) (i : Instr) :
    s.Storing (∃ d p v x l, i = .getStatus d p v x l) (s.enter (handlerOf i)) where
  par := rfl
  outside _ _ _ := rfl
  same _ := rfl
  cont := ⟨handlerOf i ++ [.sel 0, .stallTest], s.engine.afterClassify,
    (handlerOf_storesIn i).append (by simp [Stmt.storesIn]), by simp [State.enter, stallPath]⟩

end Stores

/-- Settles O18, by induction over the run of the instruction, which ends at the dispatcher's return at the latest. -/
theorem instructionsStoreOnlyStatusWord : Obligations.InstructionsStoreOnlyStatusWord := by
  intro i s t h
  rw [exec_next] at h
  cases h
  have hrun := State.runEngine_induct_inside (fun _ _ => State.Storing.micro) s.burst (s.enter_storing i)
  exact ⟨hrun.outside, fun hi => hrun.same fun ⟨d, p, v, x, l, e⟩ => hi d p v x l e⟩

end Sys2Proof.Machine
end

section
/-! PROOFS. SET_ADDRESS (O19 to O21) and SET_CONFIGURATION (O22, O23): up to the status packet, and after the host has
taken it. -/

namespace Sys2Proof.Machine

/-! ## Up to the status packet and after it -/

section Status

variable {s t : State} {k : List Stmt} {r : Request} {v : CoVars} {n : Nat}

/-- `control_out` with nothing to receive holds once its status packet is committed. -/
theorem State.controlOut_endsIn {k' : List Stmt} (h : s.pendingAt k' r) {len : Nat}
    (hlen : min len r.wLength.toNat = 0) :
    (s.goto (controlOut len :: k)).EndsIn 9 (s.statusPacket k) := by
  obtain ⟨hat, hsel, hreq, hen, hrxstp, _⟩ := h
  exact fun _ hm =>
    State.controlOut_status (s := s.goto (controlOut len :: k)) hat.1 hsel hreq hen hrxstp len hlen rfl hm

/-- Once the host has taken the status packet its caller goes on. -/
theorem State.statusTaken_runsTo (h : s.engineAt (.controlOut .waitDone v :: k)) (ht : (s.ep 0).txin = true) :
    s.RunsTo 2 (s.goto k) := by
  have hdone := State.statusDone_runsTo (s := s) (k := k) (v := v) h.1 ht
  rwa [State.within_self h.2, State.within_ep] at hdone

theorem State.setDevState_runsTo (hen : s.engineEnabled = true) (d : DeviceState) :
    (s.goto (.setDevState d :: k)).RunsTo 1 (State.goto { s with core := { s.core with devState := d } } k) :=
  State.goto_runsTo hen rfl rfl

/-- With no setup pending the stall path only selects endpoint 0. -/
theorem State.stallPath_quiet (hen : s.engineEnabled = true) (hs : (s.ep 0).rxstp = false) :
    (s.goto (stallPath ++ k)).EndsIn 2
      { s with epc := { s.epc with sel := 0 }, engine := .busy (.dispatchReturn :: k) } := by
  have hsel := State.sel_runsTo (k := .stallTest :: .dispatchReturn :: k) hen 0
  have htest : (State.goto { s with epc := { s.epc with sel := 0 } } (.stallTest :: .dispatchReturn :: k)).RunsTo 1
      (State.goto { s with epc := { s.epc with sel := 0 } } (.dispatchReturn :: k)) :=
    State.goto_runsTo (s := { s with epc := { s.epc with sel := 0 } }) hen rfl (by
      have hs' : (State.ep (State.goto { s with epc := { s.epc with sel := 0 } }
        (.stallTest :: .dispatchReturn :: k)) 0).rxstp = false := hs
      simp only [State.stmtStep, State.stallTestStep, hs']
      rfl)
  exact (hsel.trans htest).endsIn_boundary rfl

end Status

/-! ## SET_ADDRESS -/

/-- Settles O19: the check is passed, the address is programmed, and `control_out` comes to its status packet. -/
theorem setAddressCommitsStatus : Obligations.SetAddressCommitsStatus := by
  intro s k r v x l h hd
  have ⟨hat, _, _, _, _, hburst⟩ := h
  have hlegal : s.checkProgram (.address .toDevice .device v) = setAddressProgram v := by
    simp [State.checkProgram, addressProgram, setAddressLegal, hd]
  have hset : (s.goto (setAddressProgram v ++ (stallPath ++ k))).RunsTo 1
      ((s.addrSet (newAddress v)).goto (controlOut 0 :: .addrEnable :: .setDevState .address :: (stallPath ++ k))) :=
    State.goto_runsTo hat.1 rfl rfl
  have hstatus := State.controlOut_endsIn (s := s.addrSet (newAddress v))
    (k := .addrEnable :: .setDevState .address :: (stallPath ++ k)) h (len := 0) (Nat.zero_min _)
  exact State.execute_endsIn hat (State.EndsIn.check hlegal (hset.endsIn hstatus) hat.1) (by omega)

/-- After the status packet recognition is enabled, the state is Address, and the stall path finds nothing. -/
theorem State.setAddress_finishes {s : State} {k : List Stmt} {v : CoVars}
    (h : s.engineAt (.controlOut .waitDone v :: .addrEnable :: .setDevState .address :: (stallPath ++ k)))
    (ht : (s.ep 0).txin = true) (hs : (s.ep 0).rxstp = false) :
    s.EndsIn 6
      { s with
        core := { s.core with devState := .address }
        epc := { s.epc with addrEn := true, sel := 0 }
        engine := .busy (.dispatchReturn :: k) } := by
  have henable : (s.goto (.addrEnable :: .setDevState .address :: (stallPath ++ k))).RunsTo 1
      (s.addrEnable.goto (.setDevState .address :: (stallPath ++ k))) := State.goto_runsTo h.1 rfl rfl
  have hwrite := State.setDevState_runsTo (s := s.addrEnable) (k := stallPath ++ k) h.1 .address
  have hquiet := State.stallPath_quiet
    (s := { s.addrEnable with core := { s.addrEnable.core with devState := .address } }) (k := k) h.1 hs
  exact (((State.statusTaken_runsTo h ht).trans henable).trans hwrite).endsIn hquiet

/-- Settles O20: the step is that run. -/
theorem setAddressEnablesAfterStatus : Obligations.SetAddressEnablesAfterStatus := by
  intro s u n k v hch hn hk ht hs
  rw [step_engine hch hk rfl, State.setAddress_finishes hk ht hs _ (by omega)]

/-- The state once the host has taken the status packet by an IN at address `a` (40 R153). -/
def State.statusIn (s : State) (a : BitVec 7) (k : List Stmt) : State :=
  State.answer
    { s with
      eps := s.eps.set 0 { (s.ep 0).committed [] with inq := none, txin := true }
      engine := .busy (.controlOut .waitDone { len := 0, got := 0 } :: k) }
    (.tokenIn a 0) (.data [])

section StatusIn

variable {s : State} {k : List Stmt} {a : BitVec 7}

theorem State.statusPacket_ep0 : (s.statusPacket k).ep 0 = (s.ep 0).committed [] :=
  Eps.get_set_self s.eps 0 _

theorem State.statusIn_ep0 : (s.statusIn a k).ep 0 = { (s.ep 0).committed [] with inq := none, txin := true } :=
  Eps.get_set_self s.eps 0 _

/-- An IN at the device address takes endpoint 0's committed packet (40 R153). -/
theorem State.hostStep_takes {p : List Byte} (ha : s.epc.attached = true) (haddr : s.epc.deviceAddress = a)
    (hen : (s.ep 0).en = true) (hstall : (s.ep 0).stallReq = false) (hq : (s.ep 0).inq = some p) :
    s.hostStep (.tokenIn a 0) =
      some ((s.setEp 0 { s.ep 0 with inq := none, txin := true }).answer (.tokenIn a 0) (.data p)) := by
  rw [State.hostStep_tokenIn ha, State.hostIn_zero]
  simp [haddr, hen, State.hostInAt, hstall, hq]

theorem State.statusPacket_hostIn (ha : s.epc.attached = true) (haddr : s.epc.deviceAddress = a)
    (hen : (s.ep 0).en = true) (hstall : (s.ep 0).stallReq = false) :
    (s.statusPacket k).hostStep (.tokenIn a 0) = some (s.statusIn a k) := by
  have hep := State.statusPacket_ep0 (s := s) (k := k)
  rw [State.hostStep_takes (s := s.statusPacket k) (p := []) ha haddr (by rw [hep]; exact hen)
    (by rw [hep]; exact hstall) (by rw [hep]; rfl), hep]
  simp only [State.setEp, State.statusPacket, Eps.set_set, State.statusIn]

end StatusIn

/-- Settles O21: the host takes the status packet while recognition is off, and the run after it turns it on. -/
theorem setAddressTakesEffectAfterStatus : Obligations.SetAddressTakesEffectAfterStatus := by
  intro s k r v x l h hd ha hstall
  have ⟨hat, _, _, hen, _, _⟩ := h
  have hin := State.statusPacket_hostIn (s := s.addrSet (newAddress v)) (a := 0)
    (k := .addrEnable :: .setDevState .address :: (stallPath ++ k)) ha rfl hen hstall
  have hrun := State.setAddress_finishes
    (s := (s.addrSet (newAddress v)).statusIn 0 (.addrEnable :: .setDevState .address :: (stallPath ++ k)))
    (v := ⟨0, 0⟩) ⟨hat.1, rfl⟩ (by rw [State.statusIn_ep0]) (by rw [State.statusIn_ep0]; rfl) 6 (Nat.le_refl 6)
  refine ⟨_, _, _, setAddressCommitsStatus s k r v x l h hd, rfl, hd, hin, rfl, rfl, rfl, ?_, ?_, ?_⟩ <;> rw [hrun]
  rfl

/-! ## SET_CONFIGURATION -/

/-- Settles O22: the check is passed, the value is recorded, and `control_out` comes to its status packet. -/
theorem setConfigurationCommitsStatus : Obligations.SetConfigurationCommitsStatus := by
  intro s k r v x l h hd hv
  have ⟨hat, _, _, _, _, hburst⟩ := h
  have hlegal : s.checkProgram (.configuration .toDevice .device v) = setConfigurationProgram v := by
    simp [State.checkProgram, configurationProgram, setConfigurationLegal, hd, hv]
  have hset : (s.goto (setConfigurationProgram v ++ (stallPath ++ k))).RunsTo 1
      (State.goto { s with core := { s.core with activeConfig := loByte v } }
        (controlOut 0 :: .recordConfigure :: .askConfigure :: .setDevState .configured :: (stallPath ++ k))) :=
    State.goto_runsTo hat.1 rfl rfl
  have hstatus := State.controlOut_endsIn (s := { s with core := { s.core with activeConfig := loByte v } })
    (k := .recordConfigure :: .askConfigure :: .setDevState .configured :: (stallPath ++ k)) h (len := 0)
    (Nat.zero_min _)
  exact State.execute_endsIn hat (State.EndsIn.check hlegal (hset.endsIn hstatus) hat.1) (by omega)

theorem State.callConfigureEndpoints_goto (s : State) (k : List Stmt) (v : Byte) :
    (s.goto k).callConfigureEndpoints v = ((s.callConfigureEndpoints v).1, (s.callConfigureEndpoints v).2.goto k) := by
  simp only [State.callConfigureEndpoints, State.goto_env]
  split <;> rfl

/-- The records of the callback's answer are configured next (43 R252). -/
theorem State.askConfigure_runsTo {s t : State} {k : List Stmt} {eds : List EndpointDesc}
    (hen : s.engineEnabled = true) (hc : s.callConfigureEndpoints s.core.activeConfig = (eds, t)) :
    (s.goto (.askConfigure :: k)).RunsTo 1 (t.goto (eds.map (.configure .test) ++ k)) := by
  refine State.goto_runsTo hen rfl ?_
  simp only [State.stmtStep, State.askConfigureStep, State.callConfigureEndpoints_goto, State.goto_core, hc]
  rfl

theorem State.goto_self {s : State} {st : Stmt} {k : List Stmt} (h : s.engine = .busy (st :: k)) :
    s.goto (st :: k) = s := by
  show { s with engine := .busy (st :: k) } = s
  rw [← h]

theorem State.goto_append_cons (s : State) (k l : List Stmt) (st : Stmt) :
    s.goto (k ++ st :: l) = { s with engine := .busy (k ++ st :: l) } := by
  cases k <;> rfl

/-- Settles O23: the status packet's return, the event and the callback; and the last write with the stall path. -/
theorem setConfigurationFinishes : Obligations.SetConfigurationFinishes := by
  intro s u n k hch
  refine ⟨fun v eds t hn hk ht hc => ?ask, fun hn hk hs => ?last⟩
  case ask =>
    subst hn
    have hrecord : (u.goto (.recordConfigure :: .askConfigure :: .setDevState .configured :: (stallPath ++ k))).RunsTo 1
        ((u.record (.configure u.core.activeConfig)).goto
          (.askConfigure :: .setDevState .configured :: (stallPath ++ k))) := State.goto_runsTo hk.1 rfl rfl
    have hask := State.askConfigure_runsTo (s := u.record (.configure u.core.activeConfig))
      (k := .setDevState .configured :: (stallPath ++ k)) hk.1 hc
    rw [step_engine hch hk rfl, (((State.statusTaken_runsTo hk ht).trans hrecord).trans hask).exact,
      State.goto_append_cons]
    rfl
  case last =>
    have hwrite := State.setDevState_runsTo (k := stallPath ++ k) hk.1 .configured
    have hquiet := State.stallPath_quiet (s := { u with core := { u.core with devState := .configured } }) (k := k)
      hk.1 hs
    rw [step_engine hch hk rfl, ← State.goto_self hk.2]
    exact congrArg _ (hwrite.endsIn hquiet _ (by omega))

end Sys2Proof.Machine
end

section
/-! PROOFS. The requests that ask the application: GET_DESCRIPTOR whose descriptor is found (O25 to O27), and VENDOR with
each of its answers (O31 to O33). -/

namespace Sys2Proof.Machine

/-! ## What a callback leaves -/

/-- `t` is what a callback leaves of `s`: the choices still listed and the call history are all that changes. -/
def State.CalledTo (s t : State) : Prop := ∃ e cs, t = { s with env := e, calls := cs }

section Called

variable {s t : State} {k : List Stmt} {r : Request} {src : Source} {i : Nat} {bs : List Byte}

theorem State.callDeviceDescriptor_calledTo {d : Option Nat} (h : s.callDeviceDescriptor = (d, t)) : s.CalledTo t := by
  obtain ⟨e, he⟩ := s.callDeviceDescriptor_update
  exact ⟨e, _, by rwa [h] at he⟩

theorem State.callConfigurationDescriptor_calledTo {v : Byte} {d : Option Nat}
    (h : s.callConfigurationDescriptor v = (d, t)) : s.CalledTo t := by
  obtain ⟨e, he⟩ := s.callConfigurationDescriptor_update v
  exact ⟨e, _, by rwa [h] at he⟩

theorem State.callStringDescriptor_calledTo {w x : Half} {d : Option Nat} (h : s.callStringDescriptor w x = (d, t)) :
    s.CalledTo t := by
  obtain ⟨e, he⟩ := s.callStringDescriptor_update w x
  exact ⟨e, _, by rwa [h] at he⟩

theorem State.callVendorRequest_calledTo {a : VendorAnswer} (h : s.callVendorRequest r = (a, t)) : s.CalledTo t := by
  obtain ⟨e, he⟩ := s.callVendorRequest_update r
  exact ⟨e, _, by rwa [h] at he⟩

theorem State.CalledTo.engineEnabled (h : s.CalledTo t) : t.engineEnabled = s.engineEnabled := by
  obtain ⟨_, _, rfl⟩ := h; rfl

theorem State.CalledTo.core (h : s.CalledTo t) : t.core = s.core := by
  obtain ⟨_, _, rfl⟩ := h; rfl

theorem State.CalledTo.ep (h : s.CalledTo t) (n : EpNum) : t.ep n = s.ep n := by
  obtain ⟨_, _, rfl⟩ := h; rfl

theorem State.CalledTo.romRead (h : s.CalledTo t) (a : Nat) : t.romRead a = s.romRead a := by
  obtain ⟨_, _, rfl⟩ := h; rfl

theorem State.CalledTo.pendingAt (h : s.CalledTo t) (hs : s.pendingAt k r) : t.pendingAt k r := by
  obtain ⟨_, _, rfl⟩ := h; exact hs

theorem State.CalledTo.readyAt (h : s.CalledTo t) (hs : s.readyAt k r) : t.readyAt k r := by
  obtain ⟨_, _, rfl⟩ := h; exact hs

theorem State.CalledTo.sourceBytes (h : s.CalledTo t) (hs : s.sourceBytes src i bs) : t.sourceBytes src i bs := by
  obtain ⟨_, _, rfl⟩ := h; exact hs

/-- A source is sent from a callback's answer on: `bs` are the bytes of its first packet. -/
theorem State.CalledTo.controlIn_endsIn (hc : s.CalledTo t) (h : s.readyAt k r) (hb : s.sourceBytes src 0 bs)
    {len : Nat} (hbs : bs.length = min (min len r.wLength.toNat) s.core.ctrlMps.toNat) :
    (t.goto (controlIn src len :: (stallPath ++ k))).EndsIn 90 (t.firstPacket src len r.wLength.toNat bs k) :=
  State.controlIn_endsIn (hc.readyAt h) src (hc.sourceBytes hb) (by rw [hc.core, hbs])

end Called

/-! ## GET_DESCRIPTOR -/

section Found

variable {s t u : State} {k : List Stmt} {r : Request} {p : Recipient} {row : DescriptorRow} {ask : Stmt} {a n : Nat}
  {bs : List Byte}

/-- An accepted GET_DESCRIPTOR comes to its callback after two tests (43 R244, 44 R280), and answers the state in which the
run from the callback's answer on ends. -/
theorem State.execute_descriptor_endsIn (hat : s.atInstr k) (hp : p ≠ .endpoint) (hrow : resolveProgram row = [ask])
    (hb : (Engine.busy (ask :: (stallPath ++ k))).boundary = false)
    (hask : (s.goto (ask :: (stallPath ++ k))).stmtStep ask (stallPath ++ k) = some t) (h : t.EndsIn n u)
    (hn : n + 3 ≤ s.burst) : s.execute [.check (.descriptor .toHost p row)] = .next u := by
  have hlegal : s.checkProgram (.descriptor .toHost p row) = [.check (.resolve row)] := by
    simp [State.checkProgram, descriptorProgram, getDescriptorLegal, hp]
  have hcall := (State.goto_runsTo hat.1 hb hask).endsIn h
  have hresolve := State.EndsIn.check (s := s) (c := .resolve row) hrow hcall hat.1
  exact State.execute_endsIn hat (State.EndsIn.check hlegal hresolve hat.1) (by omega)

/-- The descriptor found is sent with its own `bLength` (44 R281, R283). -/
theorem State.CalledTo.readLength_endsIn (hc : s.CalledTo t) (h : s.readyAt k r) {len : Byte}
    (hlen : s.romRead a = .ok len) (hb : s.sourceBytes ⟨.rom, a⟩ 0 bs)
    (hbs : bs.length = min (min len.toNat r.wLength.toNat) s.core.ctrlMps.toNat) :
    (t.goto (.readLength a :: (stallPath ++ k))).EndsIn 91
      (t.firstPacket ⟨.rom, a⟩ len.toNat r.wLength.toNat bs k) := by
  have ⟨⟨hat, _⟩, _⟩ := hc.readyAt h
  have hlen' : (t.goto (.readLength a :: (stallPath ++ k))).romRead a = .ok len := (hc.romRead a).trans hlen
  have hread : (t.goto (.readLength a :: (stallPath ++ k))).RunsTo 1
      (t.goto (controlIn ⟨.rom, a⟩ len.toNat :: (stallPath ++ k))) :=
    State.goto_runsTo hat.1 rfl (by simp only [State.stmtStep, State.readLengthStep, hlen']; rfl)
  exact hread.endsIn (hc.controlIn_endsIn h hb hbs)

theorem half_toNat (lo hi : Byte) : (half lo hi).toNat = lo.toNat + 256 * hi.toNat := by
  rw [half, BitVec.toNat_append, ← Nat.shiftLeft_add_eq_or_of_lt lo.isLt, Nat.shiftLeft_eq]
  omega

/-- The configuration found is sent with its `wTotalLength`, low byte first (44 R282). -/
theorem State.CalledTo.readTotal_endsIn (hc : s.CalledTo t) (h : s.readyAt k r) {lo hi : Byte}
    (hlo : s.romRead (a + 2) = .ok lo) (hhi : s.romRead (a + 3) = .ok hi) (hb : s.sourceBytes ⟨.rom, a⟩ 0 bs)
    (hbs : bs.length = min (min (lo.toNat + 256 * hi.toNat) r.wLength.toNat) s.core.ctrlMps.toNat) :
    (t.goto (.readTotalLow a :: (stallPath ++ k))).EndsIn 92
      (t.firstPacket ⟨.rom, a⟩ (lo.toNat + 256 * hi.toNat) r.wLength.toNat bs k) := by
  have ⟨⟨hat, _⟩, _⟩ := hc.readyAt h
  have hlo' : (t.goto (.readTotalLow a :: (stallPath ++ k))).romRead (a + 2) = .ok lo := (hc.romRead _).trans hlo
  have hhi' : (t.goto (.readTotalHigh a lo :: (stallPath ++ k))).romRead (a + 3) = .ok hi := (hc.romRead _).trans hhi
  have hlow : (t.goto (.readTotalLow a :: (stallPath ++ k))).RunsTo 1
      (t.goto (.readTotalHigh a lo :: (stallPath ++ k))) :=
    State.goto_runsTo hat.1 rfl (by simp only [State.stmtStep, State.readTotalLowStep, hlo']; rfl)
  have hhigh : (t.goto (.readTotalHigh a lo :: (stallPath ++ k))).RunsTo 1
      (t.goto (controlIn ⟨.rom, a⟩ (lo.toNat + 256 * hi.toNat) :: (stallPath ++ k))) :=
    State.goto_runsTo hat.1 rfl (by simp only [State.stmtStep, State.readTotalHighStep, hhi', half_toNat]; rfl)
  exact (hlow.trans hhigh).endsIn (hc.controlIn_endsIn h hb hbs)

end Found

/-- Settles O25: two tests, the callback, the read of `bLength`, and the first packet. -/
theorem getDescriptorDeviceSends : Obligations.GetDescriptorDeviceSends := by
  intro s t k r p i x l a len bs h hp hc hlen hb hbs
  have ⟨⟨hat, _, _, _, _, hburst⟩, _⟩ := h
  have hsend := (State.callDeviceDescriptor_calledTo hc).readLength_endsIn h hlen hb hbs
  exact State.execute_descriptor_endsIn hat hp rfl rfl (congrArg some (State.askDeviceStep_some hc _ _)) hsend
    (by omega)

/-- Settles O26: two tests, the callback, the reads of `wTotalLength`, and the first packet. -/
theorem getDescriptorConfigurationSends : Obligations.GetDescriptorConfigurationSends := by
  intro s t k r p i x l a lo hi bs h hp hc hlo hhi hb hbs
  have ⟨⟨hat, _, _, _, _, hburst⟩, _⟩ := h
  have hsend := (State.callConfigurationDescriptor_calledTo hc).readTotal_endsIn h hlo hhi hb hbs
  exact State.execute_descriptor_endsIn hat hp rfl rfl (congrArg some (State.askConfigurationStep_some hc _ _)) hsend
    (by omega)

/-- Settles O27: two tests, the callback with the whole of both fields, the read of `bLength`, and the first packet. -/
theorem getDescriptorStringSends : Obligations.GetDescriptorStringSends := by
  intro s t k r p i x l a len bs h hp hc hlen hb hbs
  have ⟨⟨hat, _, _, _, _, hburst⟩, _⟩ := h
  have hsend := (State.callStringDescriptor_calledTo hc).readLength_endsIn h hlen hb hbs
  exact State.execute_descriptor_endsIn hat hp rfl rfl (congrArg some (State.askStringStep_some hc _ _)) hsend
    (by omega)

/-! ## VENDOR -/

section Vendor

variable {s t u : State} {k l : List Stmt} {r : Request} {a : VendorAnswer} {n : Nat}

theorem State.callVendorRequest_goto (s : State) (k : List Stmt) (r : Request) :
    (s.goto k).callVendorRequest r = ((s.callVendorRequest r).1, (s.callVendorRequest r).2.goto k) := by
  simp only [State.callVendorRequest, State.goto_env]
  split <;> rfl

/-- With a callback present VENDOR is recorded in the trace, and the callback is asked next (43 R232). -/
theorem State.vendor_endsIn (hen : s.engineEnabled = true) (hr : s.core.req = some r) (hv : s.par.vendorPresent = true)
    (h : ((s.record (.vendor r)).goto (.askVendor :: k)).EndsIn n u) :
    (s.goto (.check .vendor :: k)).EndsIn (1 + (1 + n)) u := by
  have hpresent : s.checkProgram .vendor = [.recordVendor, .askVendor] := by
    simp [State.checkProgram, vendorPresentProgram, hv]
  have hrecord : (s.goto (.recordVendor :: .askVendor :: k)).RunsTo 1
      ((s.record (.vendor r)).goto (.askVendor :: k)) :=
    State.goto_runsTo hen rfl (by simp only [State.stmtStep, State.recordVendorStep, State.goto_core, hr]; rfl)
  exact State.EndsIn.check hpresent (hrecord.endsIn h) hen

/-- The callback's answer is what is run next (43 R232). -/
theorem State.askVendor_runsTo (hen : s.engineEnabled = true) (hr : s.core.req = some r)
    (hc : s.callVendorRequest r = (a, t)) (hl : vendorProgram a = some l) :
    (s.goto (.askVendor :: k)).RunsTo 1 (t.goto (l ++ k)) := by
  refine State.goto_runsTo hen rfl ?_
  simp only [State.stmtStep, State.askVendorStep, State.goto_core, hr, State.callVendorRequest_goto, hc, hl]
  rfl

/-- An answer outside the three forms leaves the state before the call, with F5 recorded (43 R232, log 10). -/
theorem State.askVendor_faults (hen : s.engineEnabled = true) (hr : s.core.req = some r)
    (hc : (s.callVendorRequest r).1 = .refusedForm) :
    (s.goto (.askVendor :: k)).RunsTo 1
      { s with engine := .busy (.askVendor :: k), faults := [.vendorActionRefused] } := by
  refine State.runsTo_raise hen rfl ?_
  simp only [State.stmtStep, State.askVendorStep, State.goto_core, hr, State.callVendorRequest_goto, hc, vendorProgram]

/-- VENDOR with a callback present answers the state in which the program of the callback's answer and the stall path
end. -/
theorem State.execute_vendor (hat : s.atInstr k) (hr : s.core.req = some r) (hv : s.par.vendorPresent = true)
    (hc : (s.record (.vendor r)).callVendorRequest r = (a, t)) (hl : vendorProgram a = some l)
    (h : (t.goto (l ++ (stallPath ++ k))).EndsIn n u) (hn : n + 3 ≤ s.burst) :
    s.execute [.check .vendor] = .next u := by
  have hask := State.askVendor_runsTo (s := s.record (.vendor r)) (k := stallPath ++ k) hat.1 hr hc hl
  exact State.execute_endsIn hat (State.vendor_endsIn hat.1 hr hv (hask.endsIn h)) (by omega)

end Vendor

/-- Settles O31: the event, the call, and then the stall path or the source's first packet. -/
theorem vendorRequestAnswered : Obligations.VendorRequestAnswered := by
  intro s t k r d p q v x l a src len bs h hv hc
  have ⟨⟨hat, _, hr, _, _, hburst⟩, _⟩ := h
  have hcalled := State.callVendorRequest_calledTo hc
  refine ⟨fun ha => ?nothing, fun ha hb hbs => ?send⟩ <;> subst ha
  case nothing =>
    have hstall := State.stallPath_endsIn (hcalled.engineEnabled.trans hat.1) k
    exact State.execute_vendor hat hr hv hc rfl hstall (by omega)
  case send => exact State.execute_vendor hat hr hv hc rfl (hcalled.controlIn_endsIn h hb hbs) (by omega)

/-- With bytes to receive, and neither an OUT packet nor a refused IN there, `control_out` holds at its wait for data once
the setup is consumed (42 R205). -/
theorem State.controlOut_waits {s : State} {k l : List Stmt} {r : Request} {len : Nat} (h : s.pendingAt k r)
    (hlen : 0 < min len r.wLength.toNat) (hx : (s.ep 0).rxout = false) (hn : (s.ep 0).nakin = false) :
    (s.goto (controlOut len :: l)).EndsIn 6
      (s.within (s.ep 0).setupConsumed (.controlOut .waitData { len := min len r.wLength.toNat, got := 0 } :: l)) := by
  have ⟨hat, hsel, hr, hen, hrxstp, _⟩ := h
  have hbegin := State.controlOut_begin (s := s.goto (controlOut len :: l)) hat.1 hsel hr hen hrxstp len rfl
  have hloop := State.outLoop_runsTo (s := s.goto (controlOut len :: l)) (e := (s.ep 0).setupConsumed) (k := l)
    (v := { len := min len r.wLength.toNat, got := 0 }) hat.1
  rw [if_pos hlen] at hloop
  refine (hbegin.trans hloop).endsIn_held ?_
  rw [State.within_micro (s := s.goto (controlOut len :: l)) hat.1]
  simp [State.stmtStep, State.controlOutStep, Ep.setupConsumed, hx, hn]

/-- Settles O32: the event, the call, and then the wait for data or the status packet. -/
theorem vendorOutWaitsForData : Obligations.VendorOutWaitsForData := by
  intro s t k r d p q v x l len h hv hc
  have ⟨hat, _, hr, _, _, hburst⟩ := h
  have hcalled := State.callVendorRequest_calledTo hc
  refine ⟨fun hlen hx hn => ?waits, fun hlen => ?status⟩
  case waits =>
    have hwait := State.controlOut_waits (l := stallPath ++ k) (hcalled.pendingAt h) hlen
      ((hcalled.ep 0).symm ▸ hx) ((hcalled.ep 0).symm ▸ hn)
    rw [hcalled.ep 0] at hwait
    exact State.execute_vendor hat hr hv hc rfl hwait (by omega)
  case status =>
    exact State.execute_vendor hat hr hv hc rfl (State.controlOut_endsIn (hcalled.pendingAt h) hlen) (by omega)

/-- Settles O33: the event, and then the fault in the call's own micro-step. -/
theorem vendorAnswerRefusedFaults : Obligations.VendorAnswerRefusedFaults := by
  intro s k r d p q v x l hat hr hb hv hc
  have hfault := State.askVendor_faults (s := s.record (.vendor r)) (k := stallPath ++ k) hat.1 hr hc
  have hends := hfault.endsIn_held (State.micro_of_fault rfl)
  exact State.execute_endsIn hat (State.vendor_endsIn hat.1 hr hv hends) hb

end Sys2Proof.Machine
end

section
/-! PROOFS. Fetching: a task reads the setup packet into core.req (O7), and the step at the classification runs what
core.req decodes to (O5), a placed word among them (O6). -/

namespace Sys2Proof.Machine

/-! ## The instruction that core.req holds -/

/-- Settles O5: the engine's move at the classification is the run of the fetched instruction. -/
theorem stepRunsFetchedInstruction : Obligations.StepRunsFetchedInstruction := by
  intro s u n k r ⟨hf, hm⟩ ⟨hen, he⟩ hr
  have hc : u.engine.atClassify = true := by rw [he]; rfl
  refine ⟨decodeRequest_wf r, ?_⟩
  simp only [step, State.route_take hf, hm, State.take, State.engineMove, hen, hc, State.fetched, hr, if_true,
    Option.map_some]

theorem half_extractLsb' (K : Key) (i : Nat) :
    half (K.extractLsb' i 8) (K.extractLsb' (i + 8) 8) = K.extractLsb' i 16 :=
  BitVec.extractLsb'_append_extractLsb'_eq_extractLsb' rfl

theorem decode_keyBytes (K : Key) : decode (keyBytes K) = .ok (decodeRequest (keyRequest K)) := by
  simp only [keyBytes, decode, assemble, keyRequest, half_extractLsb' K 16, half_extractLsb' K 32,
    half_extractLsb' K 48]

/-- Settles O6: the placing chooses the engine's move at the classification of the word's request. -/
theorem stepRunsPlacedWord : Obligations.StepRunsPlacedWord := by
  intro s nbits w
  refine ⟨decodeRequest (keyRequest (BitVec.ofNat 64 (w % 2 ^ nbits))), ?_, ?_⟩
  · simp only [decodeTableWord, decode_keyBytes]
  · have hstep := stepRunsFetchedInstruction (s.withFetchWord nbits w)
      { s.withFetchWord nbits w with env := s.env } 255 [.taskBound] _ ⟨rfl, rfl⟩ ⟨rfl, rfl⟩ rfl
    exact hstep.2

/-! ## The reading of a setup packet -/

section Read

variable {s u : State} {e : Ep} {k : List Stmt} {got bs : List Byte} {n : Nat}

/-- Line 1 of `dispatch` with the bytes read so far; with all eight, line 2. -/
def dispatchNext (got : List Byte) : Stmt := if got.length < 8 then .dispatchRead got else .dispatchAssemble got

theorem dispatchNext_append (got : List Byte) (b : Byte) :
    dispatchNext (got ++ [b]) =
      if got.length < 7 then .dispatchRead (got ++ [b]) else .dispatchAssemble (got ++ [b]) :=
  if_congr (by rw [List.length_append, List.length_singleton]; omega) rfl rfl

/-- The bytes still missing are read from the bank one by one (43 R230). -/
theorem State.dispatchRead_runsTo (hen : s.engineEnabled = true) (hsel : s.epc.sel = 0) (he : e.en = true)
    (hf : e.fifo = bs) (hl : got.length + bs.length = 8) :
    (s.within e (dispatchNext got :: k)).RunsTo bs.length
      (s.within { e with fifo := [] } (.dispatchAssemble (got ++ bs) :: k)) := by
  induction bs generalizing e got with
  | nil =>
    have hnext : dispatchNext got = .dispatchAssemble got := if_neg (by simpa using hl.ge)
    have hempty : { e with fifo := [] } = e := by rw [← hf]
    rw [hnext, List.append_nil, hempty]
    exact State.RunsTo.refl _
  | cons b bs ih =>
    rw [List.length_cons] at hl
    have hnext : dispatchNext got = .dispatchRead got := if_pos (by omega)
    have hread : (s.within e (.dispatchRead got :: k)).fifoRead =
        (b, s.within { e with fifo := bs } (.dispatchRead got :: k)) := by
      simp only [State.fifoRead, State.within_selected hsel, State.within_setSelected hsel, he, hf]
    have hstep : (s.within e (.dispatchRead got :: k)).RunsTo 1
        (s.within { e with fifo := bs } (dispatchNext (got ++ [b]) :: k)) := by
      refine State.runsTo_stmt (State.within_engineAt hen) rfl ?_
      simp only [State.stmtStep, State.dispatchReadStep, hread, State.within_goto, dispatchNext_append]
    have hrest := ih (e := { e with fifo := bs }) (got := got ++ [b]) he rfl (by simp; omega)
    rw [hnext, List.length_cons, Nat.add_comm bs.length]
    simpa using hstep.trans hrest

/-- A task with a setup pending reads its eight bytes into core.req and comes to the classification (43 R230). -/
theorem State.taskSetup_runsTo {b0 b1 b2 b3 b4 b5 b6 b7 : Byte} (hen : s.engineEnabled = true) (hsel : s.epc.sel = 0)
    (he : (s.ep 0).en = true) (hs : (s.ep 0).rxstp = true) (hf : (s.ep 0).fifo = [b0, b1, b2, b3, b4, b5, b6, b7]) :
    (s.goto [.taskSetup]).RunsTo 10
      { s with
        core := { s.core with req := some (assemble b0 b1 b2 b3 b4 b5 b6 b7) }
        eps := s.eps.set 0 { s.ep 0 with fifo := [] }
        engine := .busy [.classify, .taskBound] } := by
  have htest : (s.goto [.taskSetup]).RunsTo 1 (s.within (s.ep 0) [dispatchNext [], .taskBound]) := by
    have hs' : ((s.goto [.taskSetup]).ep 0).rxstp = true := hs
    rw [State.within_ep]
    exact State.goto_runsTo hen rfl (by simp only [State.stmtStep, State.taskSetupStep, hs', if_true]; rfl)
  have hread := State.dispatchRead_runsTo (k := [.taskBound]) (got := []) hen hsel he hf rfl
  exact (htest.trans hread).trans (State.runsTo_stmt (State.within_engineAt hen) rfl rfl)

/-- A step that takes the engine's choice between two tasks is a run of a task from its first line. -/
theorem step_task (h : s.chooses (.engine n) u) (hen : u.engineEnabled = true) (hi : u.engine = .idle) :
    step s = .next (State.runEngine n (u.goto taskProgram)) := by
  obtain ⟨hf, hm⟩ := h
  have hc : u.engine.atClassify = false := by rw [hi]; rfl
  have hmicro : u.micro = some (u.goto taskProgram) := by simp [State.micro, hen, hi]
  simp only [step, State.route_take hf, hm, State.take, State.engineMove, hen, hc, State.advance, hmicro, if_true,
    Bool.false_eq_true, if_false]

end Read

/-- Settles O7: SEL(0), the test, eight reads and the assembly, and the run ends at the classification. -/
theorem taskFetchesSetupPacket : Obligations.TaskFetchesSetupPacket := by
  intro s u n b0 b1 b2 b3 b4 b5 b6 b7 hch hn hen hi he hs hf
  have hselect := State.sel_runsTo (k := [.taskSetup]) hen 0
  have hfetch := State.taskSetup_runsTo (s := { u with epc := { u.epc with sel := 0 } }) hen rfl he hs hf
  rw [step_task hch hen hi]
  exact congrArg _ ((hselect.trans hfetch).stops hn rfl)

end Sys2Proof.Machine
end

section
/-! PROOFS. The descriptor resolver where the application gives no descriptor: the types it does not serve (O12), the
built-in strings (O28), and nothing to send (O29). -/

namespace Sys2Proof.Machine

/-! ## The built-in strings -/

theorem builtInString_langid (p : Params) : builtInString p (half 0 3) = [controlIn ⟨.rom, p.langidAddr⟩ 4] :=
  if_pos (loByte_half 0 3)

theorem builtInString_serial {p : Params} {i : Byte} (h0 : i ≠ 0) (hi : i = p.serialIndex) :
    builtInString p (half i 3) = [controlIn ⟨.ram, p.serialAddr⟩ 82] := by
  rw [builtInString, loByte_half, if_neg h0, if_pos hi]
  rfl

theorem builtInString_none {p : Params} {i : Byte} (h0 : i ≠ 0) (hi : i ≠ p.serialIndex) :
    builtInString p (half i 3) = [] := by
  rw [builtInString, loByte_half, if_neg h0, if_neg hi]

/-- ROM holds the language-ID constant at LANGID_ROM_ADDR, whatever the application's image lists there (10 R30). -/
theorem State.sourceBytes_langid {s : State} (h : s.par.langidAddr + 3 < s.par.romSize) :
    s.sourceBytes ⟨.rom, s.par.langidAddr⟩ 0 langidBytes := by
  intro j hj
  have hrom : s.par.langidAddr + (0 + j) < s.par.romSize := by have : j < 4 := hj; omega
  have hbyte : s.romByteAt (s.par.langidAddr + (0 + j)) = langidBytes[j] := by
    simp [State.romByteAt, State.langidByte, hj]
  rw [← hbyte]
  exact if_pos hrom

/-! ## The callbacks that answer none -/

section Unclaimed

variable {s t u : State} {k : List Stmt} {p : Recipient} {i : Byte} {w x : Half} {n : Nat}

theorem State.askDeviceStep_none (h : s.callDeviceDescriptor = (none, t)) (k l : List Stmt) :
    (s.goto l).askDeviceStep k = t.goto k := by
  simp only [State.askDeviceStep, State.callDeviceDescriptor_goto, h]
  rfl

theorem State.askConfigurationStep_none (h : s.callConfigurationDescriptor s.core.activeConfig = (none, t))
    (k l : List Stmt) : (s.goto l).askConfigurationStep k = t.goto k := by
  simp only [State.askConfigurationStep, State.callConfigurationDescriptor_goto, State.goto_core, h]
  rfl

/-- A string the application does not claim is looked up among the built-ins (44 R283). -/
theorem State.askStringStep_none (h : s.callStringDescriptor w x = (none, t)) (k l : List Stmt) :
    (s.goto l).askStringStep w x k = t.goto (builtInString s.par w ++ k) := by
  simp only [State.askStringStep, State.callStringDescriptor_goto, h]
  rfl

/-- GET_DESCRIPTOR.STRING that the application does not claim answers the state in which the built-in's program and the
stall path end. -/
theorem State.execute_string_unclaimed (hat : s.atInstr k) (hp : p ≠ .endpoint)
    (hc : s.callStringDescriptor (half i 3) x = (none, t)) {l : List Stmt} (hl : builtInString s.par (half i 3) = l)
    (h : (t.goto (l ++ (stallPath ++ k))).EndsIn n u) (hn : n + 3 ≤ s.burst) :
    s.execute [.check (.descriptor .toHost p (.string (half i 3) x))] = .next u := by
  subst hl
  exact State.execute_descriptor_endsIn hat hp rfl rfl (congrArg some (State.askStringStep_none hc _ _)) h hn

end Unclaimed

/-! ## The requests -/

/-- Settles O12: a request that passes the check comes to the resolver, which has no case for the type. -/
theorem otherDescriptorTypesStall : Obligations.OtherDescriptorTypesStall := by
  intro s k d p t n x l hat hb
  cases hlegal : getDescriptorLegal d p with
  | false =>
    exact State.execute_check_stall (c := .descriptor d p .other) hat
      (by simp [State.checkProgram, descriptorProgram, hlegal, stall]) (by omega)
  | true =>
    have hcheck : s.checkProgram (.descriptor d p .other) = [.check (.resolve .other)] := by
      simp [State.checkProgram, descriptorProgram, hlegal]
    have hresolve := State.EndsIn.check (c := .resolve .other) (p := []) rfl (State.stallPath_endsIn hat.1 k) hat.1
    exact State.execute_endsIn hat (State.EndsIn.check hcheck hresolve hat.1) hb

/-- Settles O28: two tests, the callback, and the first packet of the built-in that `builtInString` chooses. -/
theorem builtInStringsSend : Obligations.BuiltInStringsSend := by
  intro s t k r p i x l bs h hp hc
  have ⟨⟨hat, _, _, _, _, hburst⟩, _⟩ := h
  have hcalled := State.callStringDescriptor_calledTo hc
  refine ⟨fun hi hrom => ?langid, fun h0 hi hb hbs => ?serial⟩
  case langid =>
    subst hi
    have hsend := State.controlIn_endsIn (len := 4) (hcalled.readyAt h) ⟨.rom, s.par.langidAddr⟩
      (hcalled.sourceBytes (State.sourceBytes_langid hrom)) (show _ ≤ 4 by omega)
    exact State.execute_string_unclaimed hat hp hc (builtInString_langid s.par) hsend (by omega)
  case serial =>
    exact State.execute_string_unclaimed hat hp hc (builtInString_serial h0 hi) (hcalled.controlIn_endsIn h hb hbs)
      (by omega)

/-- Settles O29: two tests, the callback, and the stall path. -/
theorem missingDescriptorsStall : Obligations.MissingDescriptorsStall := by
  intro s t k p i x l hat hb hp
  have hstall : s.CalledTo t → (t.goto (stallPath ++ k)).EndsIn 4 (t.afterStall k) := fun hc =>
    State.stallPath_endsIn (hc.engineEnabled.trans hat.1) k
  refine ⟨fun hc => ?device, fun hc => ?configuration, fun hc h0 hi => ?string⟩
  case device =>
    exact State.execute_descriptor_endsIn hat hp rfl rfl (congrArg some (State.askDeviceStep_none hc _ _))
      (hstall (State.callDeviceDescriptor_calledTo hc)) hb
  case configuration =>
    exact State.execute_descriptor_endsIn hat hp rfl rfl (congrArg some (State.askConfigurationStep_none hc _ _))
      (hstall (State.callConfigurationDescriptor_calledTo hc)) hb
  case string =>
    exact State.execute_string_unclaimed hat hp hc (builtInString_none h0 hi)
      (hstall (State.callStringDescriptor_calledTo hc)) hb

end Sys2Proof.Machine
end

section
/-! PROOFS. The endpoint configurator: a record for the next endpoint in order, one out of order, and a fifth (O24). -/

namespace Sys2Proof.Machine

section Configure

variable {s t u : State} {k : List Stmt} {ed : EndpointDesc} {line : CfgLine} {m : Nat} {n : EpNum}

/-! ## The lines of `configure_endpoint` -/

/-- A line that raises no fault takes one micro-step. -/
theorem State.configure_runsTo (hen : s.engineEnabled = true)
    (h : (s.goto (.configure line ed :: k)).configureStep line ed k = t) :
    (s.goto (.configure line ed :: k)).RunsTo 1 t := State.goto_runsTo hen rfl (congrArg some h)

/-- Line 2 on a record in order. -/
theorem State.configureTest_inOrder (hen : s.engineEnabled = true) (h : edNumber ed = s.core.configuredMax.toNat + 1) :
    (s.goto (.configure .test ed :: k)).RunsTo 1 (s.goto (.configure .select ed :: k)) :=
  State.configure_runsTo hen (if_pos h)

/-- Line 2 on a record out of order. -/
theorem State.configureTest_outOfOrder (hen : s.engineEnabled = true)
    (h : edNumber ed ≠ s.core.configuredMax.toNat + 1) :
    (s.goto (.configure .test ed :: k)).RunsTo 1 (s.goto k) :=
  State.configure_runsTo hen (if_neg h)

/-- Line 3 on an endpoint that exists. -/
theorem State.configureSelect_num (hen : s.engineEnabled = true) (h : edNumber ed = n.val) :
    (s.goto (.configure .select ed :: k)).RunsTo 1
      (State.goto { s with epc := { s.epc with sel := n } } (.configure .enable ed :: k)) :=
  State.configure_runsTo hen (by simp only [State.configureStep, h, State.select_num]; rfl)

/-- Line 3 on an endpoint that does not exist (45 R302). -/
theorem State.configureSelect_fault (hen : s.engineEnabled = true) (h : 5 ≤ edNumber ed) :
    (s.goto (.configure .select ed :: k)).RunsTo 1
      { s with engine := .busy (.configure .select ed :: k), faults := [.epRange] } :=
  State.runsTo_raise hen rfl (by
    simp only [State.stmtStep, State.configureStep, State.select, dif_neg (Nat.not_lt.mpr h)]
    rfl)

/-- EP_ENABLE, EP_CONFIG and EP_RESET leave no field of the selected endpoint as it was; away from endpoint 0 they write
nothing else. -/
theorem State.bringUp_eq (h : s.epc.sel ≠ 0) (ed : EndpointDesc) :
    (s.epEnable.epConfig (edType ed) (edDir ed) (sizeClass ed.wMaxPacketSize)).epReset =
      s.setSelected (Ep.configured ed) := by
  simp only [State.epReset, State.epConfig, State.epEnable, State.selected_setSelected, State.setSelected_setSelected,
    State.setSelected_epc, State.setSelected_ctrlDir, if_neg h]
  rfl

/-- Lines 4 to 6 on a selected endpoint other than 0. -/
theorem State.bringUp_runsTo (hen : s.engineEnabled = true) (h : s.epc.sel ≠ 0) :
    (s.goto (.configure .enable ed :: k)).RunsTo 3
      ((s.setSelected (Ep.configured ed)).goto (.configure .count ed :: k)) := by
  have henable : (s.goto (.configure .enable ed :: k)).RunsTo 1 (s.epEnable.goto (.configure .program ed :: k)) :=
    State.configure_runsTo hen rfl
  have hprogram := State.configure_runsTo (s := s.epEnable) (line := .program) (ed := ed) (k := k) hen rfl
  have hreset := State.configure_runsTo (line := .reset) (ed := ed) (k := k)
    (s := s.epEnable.epConfig (edType ed) (edDir ed) (sizeClass ed.wMaxPacketSize)) hen rfl
  rw [← State.bringUp_eq h]
  exact (henable.trans hprogram).trans hreset

/-! ## One record -/

/-- The state once `configure_endpoint` has brought up endpoint `n` (45 R301). -/
def State.endpointConfigured (s : State) (n : EpNum) (ed : EndpointDesc) : State :=
  { s with
    core := { s.core with configuredMax := s.core.configuredMax + 1 }
    epc := { s.epc with sel := n }
    eps := s.eps.set n (Ep.configured ed) }

/-- A record for the next endpoint in order runs all six lines. -/
theorem State.configure_inOrder (hen : s.engineEnabled = true) (hed : edNumber ed = n.val)
    (hn : n.val = s.core.configuredMax.toNat + 1) :
    (s.goto (.configure .test ed :: k)).RunsTo 6 ((s.endpointConfigured n ed).goto k) := by
  have hne : n ≠ 0 := State.sel_ne_zero_of_configuring (s := { s with epc := { s.epc with sel := n } })
    (hed.trans hn) hed.symm
  have htest := State.configureTest_inOrder (k := k) hen (hed.trans hn)
  have hselect := State.configureSelect_num (k := k) hen hed
  have hbring := State.bringUp_runsTo (s := { s with epc := { s.epc with sel := n } }) (ed := ed) (k := k) hen hne
  have hcount := State.configure_runsTo (line := .count) (ed := ed) (k := k)
    (s := State.setSelected { s with epc := { s.epc with sel := n } } (Ep.configured ed)) hen rfl
  exact ((htest.trans hselect).trans hbring).trans hcount

/-- A record for an endpoint beyond the last stops at line 3. -/
theorem State.configure_beyondLast (hen : s.engineEnabled = true) (h : edNumber ed = s.core.configuredMax.toNat + 1)
    (h5 : 5 ≤ edNumber ed) :
    (s.goto (.configure .test ed :: k)).RunsTo 2
      { s with engine := .busy (.configure .select ed :: k), faults := [.epRange] } :=
  (State.configureTest_inOrder hen h).trans (State.configureSelect_fault hen h5)

/-- A step at line 2 ends where that many micro-steps lead. -/
theorem step_configure (hch : s.chooses (.engine m) u) (hk : u.engineAt (.configure .test ed :: k))
    (h : (u.goto (.configure .test ed :: k)).RunsTo (m + 1) t) : step s = .next t := by
  rw [State.goto_self hk.2] at h
  rw [step_engine hch hk rfl, h.exact]

end Configure

/-- Settles O24: all six lines, line 2 alone, or line 3's fault. -/
theorem configureEndpointInOrder : Obligations.ConfigureEndpointInOrder := by
  intro s u m k ed hch hk
  refine ⟨fun n hm hed hn => ?inOrder, fun hm hed => ?outOfOrder, fun hm hed h5 => ?beyondLast⟩ <;> subst hm
  case inOrder => exact step_configure hch hk (State.configure_inOrder hk.1 hed hn)
  case outOfOrder => exact step_configure hch hk (State.configureTest_outOfOrder hk.1 hed)
  case beyondLast => exact step_configure hch hk (State.configure_beyondLast hk.1 hed h5)

end Sys2Proof.Machine
end

section
/-! PROOFS. One run of the reset handler: it completes (O44), is aborted for want of a descriptor, or records a fault
(O45). -/

namespace Sys2Proof.Machine

section ResetHandler

variable {s u t : State} {d : Nat} {mps : Byte} {f : Fault}

theorem State.abandon_eq (s : State) : s.abandon = { s with engine := s.engine.abandoned } := by
  cases h : s.engine with
  | busy k => simp only [State.abandon, h, Engine.abandoned]
  | preInit | idle => simp only [State.abandon, h, Engine.abandoned]; rw [← h]

theorem ep0SizeLegal_iff : ep0SizeLegal mps = true ↔ mps = 8 ∨ mps = 16 ∨ mps = 32 ∨ mps = 64 := by
  simp [ep0SizeLegal, or_assoc]

/-- The first fault recorded is the only one. -/
theorem State.raise_first (h : s.faults = []) (f : Fault) : s.raise f = { s with faults := [f] } := by
  simp [State.raise, h]

/-! ## The branches of a run -/

theorem State.resetHandler_none (hc : s.eventAck.callDeviceDescriptor = (none, t)) : s.resetHandler = t.abandon := by
  simp only [State.resetHandler, hc]

/-- The callback leaves ROM as it was before the run. -/
theorem State.resetCallback_romRead {c : Option Nat} (hc : s.eventAck.callDeviceDescriptor = (c, t)) (a : Nat) :
    t.romRead a = s.romRead a :=
  (State.callDeviceDescriptor_calledTo hc).romRead a

theorem State.resetHandler_sized (hc : s.eventAck.callDeviceDescriptor = (some d, t))
    (hr : s.romRead (d + 7) = .ok mps) :
    s.resetHandler = if ep0SizeLegal mps then t.restart mps else s.raise .badEp0Size := by
  simp only [State.resetHandler, hc, State.resetCallback_romRead hc, hr]

theorem State.resetHandler_unsized (hc : s.eventAck.callDeviceDescriptor = (some d, t))
    (hr : s.romRead (d + 7) = .error f) : s.resetHandler = s.raise f := by
  simp only [State.resetHandler, hc, State.resetCallback_romRead hc, hr]

/-! ## A step of the reset agent -/

/-- A step that takes the reset agent's choice with the event pending and enabled is a run of its handler. -/
theorem step_resetAgent (h : s.chooses .resetAgent u) (hp : u.epc.eorst = true) (he : u.epc.eorstEn = true) :
    step s = .next u.resetHandler := by
  obtain ⟨hf, hm⟩ := h
  have hr : u.epc.resetEnabled = true := by simp [Epc.resetEnabled, hp, he]
  simp only [step, State.route_take hf, hm, State.take, hr, if_true]

/-- Taking a choice records no fault. -/
theorem State.chooses_faults {m : Move} (h : s.chooses m u) : u.faults = [] := by
  obtain ⟨hf, hm⟩ := h
  have hu := s.nextMove_faults
  rwa [hm, hf] at hu

end ResetHandler

/-- Settles O44: the size byte is legal, so the run completes, and only the callback and the restart write. -/
theorem resetHandlerCompletes : Obligations.ResetHandlerCompletes := by
  intro s u t d mps hch hp he hc hr hl
  rw [step_resetAgent hch hp he, State.resetHandler_sized hc hr, if_pos (ep0SizeLegal_iff.mpr hl), State.restart_eq,
    State.abandon_eq]
  obtain ⟨e, cs, rfl⟩ := State.callDeviceDescriptor_calledTo hc
  rfl

/-- Settles O45: no descriptor, an illegal size byte, or one outside ROM. -/
theorem resetHandlerAbortsOrFaults : Obligations.ResetHandlerAbortsOrFaults := by
  intro s u t c hch hp he hc
  have hf := State.chooses_faults hch
  rw [step_resetAgent hch hp he]
  refine ⟨fun hn => ?aborts, fun d mps hd hr h8 h16 h32 h64 => ?illegal, fun d hd ha => ?outside⟩
  case aborts =>
    subst hn
    rw [State.resetHandler_none hc, State.abandon_eq]
    obtain ⟨e, cs, rfl⟩ := State.callDeviceDescriptor_calledTo hc
    rfl
  case illegal =>
    subst hd
    have hl : ¬ ep0SizeLegal mps = true := fun h => by
      rcases ep0SizeLegal_iff.mp h with h | h | h | h <;> contradiction
    rw [State.resetHandler_sized hc hr, if_neg hl, State.raise_first hf]
  case outside =>
    subst hd
    rw [State.resetHandler_unsized hc (State.romRead_outside ha), State.raise_first hf]

end Sys2Proof.Machine
end

section
/-! PROOFS. `init`: its run from power-on to the attachment (O46), the fault of an illegal character map and a second call
(O47). -/

namespace Sys2Proof.Machine

section Init

variable {s u t : State} {k : List Stmt} {line : InitLine} {text : List Byte} {n : Nat}

/-! ## The lines of `init` -/

/-- A line that raises no fault takes one micro-step. -/
theorem State.init_runsTo (hen : s.engineEnabled = true) (h : (s.goto (.init line :: k)).initStep line k = t) :
    (s.goto (.init line :: k)).RunsTo 1 t :=
  State.goto_runsTo hen rfl (congrArg some h)

/-- Lines 2 and 3: the identifier is read and mapped. -/
theorem State.initReads_runsTo (hen : s.engineEnabled = true) :
    (s.goto (.init .readId :: k)).RunsTo 2
      (s.goto (.init (.check (serialText s.par.serialMap s.par.hwId)) :: k)) := by
  have hread : (s.goto (.init .readId :: k)).RunsTo 1 (s.goto (.init (.mapId s.par.hwId) :: k)) :=
    State.init_runsTo hen rfl
  exact hread.trans (State.init_runsTo hen rfl)

/-- Lines 4 and 5 on a text that meets the constraint. -/
theorem State.initCheck_legal (hen : s.engineEnabled = true) (h : serialTextLegal text = true) :
    (s.goto (.init (.check text) :: k)).RunsTo 1 (s.goto (initTail s.par.serialAddr text ++ k)) :=
  State.init_runsTo hen (if_pos h)

/-- Lines 4 and 5 on a text that breaks it. -/
theorem State.initCheck_fault (hen : s.engineEnabled = true) (h : serialTextLegal text = false) :
    (s.goto (.init (.check text) :: k)).RunsTo 1
      { s with engine := .busy (.init (.check text) :: k), faults := [.serialMapInvalid] } :=
  State.runsTo_raise hen rfl (by simp only [State.stmtStep, State.initStep, h, Bool.false_eq_true, if_false])

theorem serialBytes_tail_length (h : serialTextLegal text = true) :
    ((0x03 : Byte) :: text.flatMap fun c => [c, 0x00]).length = 81 := by
  have hl : text.length = 40 := by simp only [serialTextLegal, Bool.and_eq_true, beq_iff_eq] at h; exact h.1
  simp [List.length_flatMap, hl]

/-- Line 6: the serial buffer is written, a byte a micro-step (46 R321). -/
theorem State.serialBuffer_runsTo (hen : s.engineEnabled = true) (h : serialTextLegal text = true)
    (ha : s.par.serialAddr + 82 ≤ s.par.ramSize) :
    (s.goto (.ramWrite s.par.serialAddr (serialBytes text) :: k)).RunsTo 82
      (State.goto { s with ram := Memory.setAll s.par.serialAddr (serialBytes text) s.ram } k) := by
  have hl := serialBytes_tail_length h
  have hstore := State.ramWrite_runsTo (k := k) hen 0x52 (0x03 :: text.flatMap fun c => [c, 0x00])
    (show s.par.serialAddr + _ < s.par.ramSize by omega)
  rwa [hl] at hstore

/-- Lines 7 to 10: with no reset pending, enabling its event leaves the engine its move to attach. -/
theorem State.initFinish_runsTo (hen : s.engineEnabled = true) (hp : s.epc.eorst = false) :
    (s.goto [.init .done, .init .eventEnable, .init .attach]).RunsTo 3
      { s with
        core := { s.core with initialized := true }
        epc := { s.epc with eorstEn := true, attached := true }
        engine := .idle } := by
  have hdone := State.init_runsTo (line := .done) (k := [.init .eventEnable, .init .attach]) hen rfl
  have henable := State.init_runsTo (s := { s with core := { s.core with initialized := true } })
    (line := .eventEnable) (k := [.init .attach]) hen rfl
  have hen' : s.eventEnable.engineEnabled = true := by
    have hf := (s.engineEnabled_iff.mp hen).1
    simp [State.engineEnabled_iff, hf, Epc.resetEnabled, hp]
  have hattach := State.init_runsTo (line := .attach) (k := [])
    (s := State.eventEnable { s with core := { s.core with initialized := true } }) hen' rfl
  exact (hdone.trans henable).trans hattach

/-! ## A step of `init` -/

/-- A step that takes the engine's choice before `init` is its first line and a run of the later ones. -/
theorem step_init (h : s.chooses (.engine n) u) (hen : u.engineEnabled = true) (hp : u.engine = .preInit)
    (hi : u.core.initialized = false) : step s = .next (State.runEngine n (u.goto [.init .readId])) := by
  obtain ⟨hf, hm⟩ := h
  have hc : u.engine.atClassify = false := by rw [hp]; rfl
  have hmicro : u.micro = some (u.goto [.init .readId]) := by simp [State.micro, hen, hp, State.initEntry, hi]
  simp only [step, State.route_take hf, hm, State.take, State.engineMove, hen, hc, State.advance, hmicro, if_true,
    Bool.false_eq_true, if_false]

/-- A call of `init` between tasks leaves an initialized block as it is (46 R322). -/
theorem State.initAgain_initialized (hi : s.core.initialized = true) : s.initAgain = s := by
  simp only [State.initAgain]
  split
  · next h =>
    have hidle : s.engine = .idle := eq_of_beq (Bool.and_eq_true_iff.mp h).2
    simp only [State.initEntry, hi, if_true, ← hidle]
  · rfl

theorem step_callInit (h : s.chooses .callInit u) : step s = .next u.initAgain := by
  obtain ⟨hf, hm⟩ := h
  simp only [step, State.route_take hf, hm, State.take]

end Init

/-- Settles O46: entry, two reads, the check, 82 stores and the last three lines, and the run ends between two tasks. -/
theorem initAttachesDevice : Obligations.InitAttachesDevice := by
  intro s u n hch hn hen hp hi heorst hl ha
  have hreads := State.initReads_runsTo (k := []) hen
  have hcheck := State.initCheck_legal (k := []) hen hl
  have hstore := State.serialBuffer_runsTo (k := [.init .done, .init .eventEnable, .init .attach]) hen hl ha
  have hfinish := State.initFinish_runsTo
    (s := { u with ram := Memory.setAll u.par.serialAddr (serialBytes (serialText u.par.serialMap u.par.hwId)) u.ram })
    hen heorst
  rw [step_init hch hen hp hi]
  exact congrArg _ ((((hreads.trans hcheck).trans hstore).trans hfinish).stops hn rfl)

/-- Settles O47: the check raises F7 after entry and two reads; a second call of `init` writes nothing. -/
theorem initRejectsOrIsIdempotent : Obligations.InitRejectsOrIsIdempotent := by
  intro s u
  refine ⟨fun hch hen hp hi hl => ?rejects, fun hch _ hi => ?again⟩
  case rejects =>
    have hreads := State.initReads_runsTo (k := []) hen
    rw [step_init hch hen hp hi, (hreads.trans (State.initCheck_fault hen hl)).exact]
  case again => rw [step_callInit hch, State.initAgain_initialized hi]

end Sys2Proof.Machine
end

section
/-! PROOFS. The poll loop at one endpoint: an IN endpoint filled from the callback (O48), and an OUT endpoint drained to it
(O49). -/

namespace Sys2Proof.Machine

/-! ## What the bytes of one packet leave -/

/-- What each byte adds to a history once `got` bytes of the packet have been: the packet's first byte is marked
(47 R332, R333). -/
def perByte {α : Type} (f : Byte → Bool → α) (got : Nat) (bs : List Byte) : List α :=
  bs.mapIdx fun j b => f b (decide (got + j = 0))

section PerByte

variable {α : Type} (f : Byte → Bool → α)

@[simp] theorem perByte_nil (got : Nat) : perByte f got [] = [] := rfl

theorem perByte_cons (got : Nat) (b : Byte) (bs : List Byte) :
    perByte f got (b :: bs) = f b (decide (got = 0)) :: perByte f (got + 1) bs := by
  simp [perByte, List.mapIdx_cons, Nat.add_assoc, Nat.add_comm 1]

theorem perByte_zero (bs : List Byte) : perByte f 0 bs = bs.mapIdx fun j b => f b (decide (j = 0)) := by
  simp only [perByte, Nat.zero_add]

end PerByte

/-- The state once the bytes `bs` have been asked for and put in the selected bank, `got` of the packet having been before
them and `rest` being the answers left. -/
def State.bytesIn (s : State) (got : Nat) (bs rest : List Byte) : State :=
  { s.setSelected { s.selected with fifo := s.selected.fifo ++ bs } with
    env := { s.env with inByte := rest }
    calls := s.calls ++ perByte (fun _ => .endpointInByte s.epc.sel.val) got bs }

/-- The state once the bytes `bs` have been read from the selected bank, recorded and told, `got` of the packet having been
before them and `rest` being what the bank still holds. -/
def State.bytesOut (s : State) (got : Nat) (bs rest : List Byte) : State :=
  { s.setSelected { s.selected with fifo := rest } with
    trace := s.trace ++ perByte (.outByte s.epc.sel.val) got bs
    calls := s.calls ++ perByte (.endpointOutByte s.epc.sel.val) got bs }

section Bytes

variable {s : State} {got : Nat} {b : Byte} {bs rest : List Byte}

@[simp] theorem State.bytesIn_selected :
    (s.bytesIn got bs rest).selected = { s.selected with fifo := s.selected.fifo ++ bs } :=
  s.selected_setSelected _

theorem State.bytesIn_nil (h : s.env.inByte = rest) : s.bytesIn got [] rest = s := by
  subst h
  simp only [State.bytesIn, List.append_nil, perByte_nil]
  exact s.setSelected_selected

theorem State.bytesIn_cons (rest' : List Byte) :
    (s.bytesIn got [b] rest').bytesIn (got + 1) bs rest = s.bytesIn got (b :: bs) rest := by
  simp [State.bytesIn, State.setSelected, State.setEp, State.selected_eq, perByte_cons]

theorem State.bytesIn_setSelected (e : Ep) :
    (s.bytesIn got bs rest).setSelected e =
      { s.setSelected e with
        env := { s.env with inByte := rest }
        calls := s.calls ++ perByte (fun _ => .endpointInByte s.epc.sel.val) got bs } := by
  simp [State.bytesIn, State.setSelected, State.setEp]

@[simp] theorem State.bytesOut_selected : (s.bytesOut got bs rest).selected = { s.selected with fifo := rest } :=
  s.selected_setSelected _

theorem State.bytesOut_setSelected (e : Ep) :
    (s.bytesOut got bs rest).setSelected e =
      { s.setSelected e with
        trace := s.trace ++ perByte (.outByte s.epc.sel.val) got bs
        calls := s.calls ++ perByte (.endpointOutByte s.epc.sel.val) got bs } := by
  simp [State.bytesOut, State.setSelected, State.setEp]

theorem State.bytesOut_nil (h : s.selected.fifo = rest) : s.bytesOut got [] rest = s := by
  subst h
  simp only [State.bytesOut, List.append_nil, perByte_nil]
  exact s.setSelected_selected

theorem State.bytesOut_cons (rest' : List Byte) :
    (s.bytesOut got [b] rest').bytesOut (got + 1) bs rest = s.bytesOut got (b :: bs) rest := by
  simp [State.bytesOut, State.setSelected, State.setEp, State.selected_eq, perByte_cons]

end Bytes

/-! ## The engine's position and the selected endpoint -/

@[simp] theorem State.goto_goto (s : State) (k l : List Stmt) : (s.goto k).goto l = s.goto l := rfl

@[simp] theorem State.goto_selected (s : State) (k : List Stmt) : (s.goto k).selected = s.selected := rfl

@[simp] theorem State.goto_setSelected (s : State) (k : List Stmt) (e : Ep) :
    (s.goto k).setSelected e = (s.setSelected e).goto k := rfl

/-! ## The service of one endpoint -/

section Serve

variable {s t u : State} {k : List Stmt} {line : SvcLine} {v : SvcVars} {got m n : Nat} {i : EpNum} {b : Byte}
  {first : Bool} {bs rest : List Byte}

/-- A line takes one micro-step. -/
theorem State.serve_runsTo (hen : s.engineEnabled = true)
    (h : (s.goto (.serve line v :: k)).serveStep line v k = t) : (s.goto (.serve line v :: k)).RunsTo 1 t :=
  State.goto_runsTo hen rfl (congrArg some h)

/-- Line 5: the endpoint is selected, and its direction is asked next. -/
theorem State.serveSelect_runsTo (hen : s.engineEnabled = true) :
    (s.goto (.serveSelect i.val m :: k)).RunsTo 1
      (State.goto { s with epc := { s.epc with sel := i } } (.serve .direction ⟨i, m⟩ :: k)) :=
  State.goto_runsTo hen rfl (by simp only [State.stmtStep, State.serveSelectStep, State.select_num]; rfl)

/-- A step at line 5 ends where its further micro-steps lead from line 6 with the endpoint selected. -/
theorem step_serveSelect (hch : s.chooses (.engine n) u) (hk : u.engineAt (.serveSelect i.val m :: k))
    (h : (State.goto { u with epc := { u.epc with sel := i } } (.serve .direction ⟨i, m⟩ :: k)).RunsTo n t) :
    step s = .next t := by
  have hall := (State.serveSelect_runsTo (k := k) hk.1).trans h
  rw [State.goto_self hk.2, Nat.add_comm] at hall
  rw [step_engine hch hk rfl, hall.exact]

/-! ## An IN endpoint -/

/-- An enabled IN endpoint whose bank is free, with no setup and nothing committed. -/
structure Ep.Fillable (e : Ep) : Prop where
  dir : e.dir = .toHost
  en : e.en = true
  txin : e.txin = true
  rxstp : e.rxstp = false
  inq : e.inq = none

theorem Ep.Fillable.withFifo {e : Ep} (h : e.Fillable) (bs : List Byte) : { e with fifo := bs }.Fillable :=
  ⟨h.dir, h.en, h.txin, h.rxstp, h.inq⟩

theorem State.windowOpen_fillable (h : s.selected.Fillable) :
    s.windowOpen = decide (s.selected.fifo.length < bankBytes s.selected.size) := by
  simp [State.windowOpen, Ep.windowOpen, h.dir, h.en, h.txin]

/-- Line 10: the byte is the oldest answer chosen for the callback (log 3). -/
theorem State.askByte_runsTo (hen : s.engineEnabled = true) (hb : s.env.inByte = b :: rest) :
    (s.goto (.serve (.askByte first) v :: k)).RunsTo 1
      (State.goto
        { s with
          env := { s.env with inByte := rest }
          calls := s.calls ++ [.endpointInByte v.ep.val first] }
        (.serve (.putByte b) v :: k)) := by
  have hb' : (s.goto (.serve (.askByte first) v :: k)).env.inByte = b :: rest := hb
  exact State.serve_runsTo hen (by simp only [State.serveStep, State.callEndpointInByte, hb']; rfl)

/-- Lines 11 and 12: a bank with room takes the byte. -/
theorem State.putByte_runsTo (hen : s.engineEnabled = true) (h : s.selected.Fillable)
    (hl : s.selected.fifo.length < bankBytes s.selected.size) :
    (s.goto (.serve (.putByte b) v :: k)).RunsTo 1
      ((s.setSelected { s.selected with fifo := s.selected.fifo ++ [b] }).goto (.serve (.window false) v :: k)) :=
  State.serve_runsTo hen (by
    simp [State.serveStep, State.fifoWrite_eq, h.en, h.rxstp, h.inq, hl, Except.map, State.orRaise])

/-- Line 13: the bank's bytes are committed, and the next endpoint follows. -/
theorem State.commit_runsTo (hen : s.engineEnabled = true) (h : s.selected.Fillable) :
    (s.goto (.serve .commit v :: k)).RunsTo 1
      ((s.setSelected { s.selected with inq := some s.selected.fifo, fifo := [], txin := false }).goto
        (serveNext (v.ep.val + 1) v.bound :: k)) :=
  State.serve_runsTo hen (by simp [State.serveStep, State.commitIn_eq, h.en, h.txin])

/-- Lines 9 to 12 with room in the bank. -/
theorem State.fillByte_runsTo (hen : s.engineEnabled = true) (h : s.selected.Fillable)
    (hl : s.selected.fifo.length < bankBytes s.selected.size) (hb : s.env.inByte = b :: rest) :
    (s.goto (.serve (.window (decide (got = 0))) ⟨s.epc.sel, m⟩ :: k)).RunsTo 3
      ((s.bytesIn got [b] rest).goto (.serve (.window false) ⟨s.epc.sel, m⟩ :: k)) := by
  have hopen : s.windowOpen = true := (State.windowOpen_fillable h).trans (decide_eq_true hl)
  have hwindow : (s.goto (.serve (.window (decide (got = 0))) ⟨s.epc.sel, m⟩ :: k)).RunsTo 1
      (s.goto (.serve (.askByte (decide (got = 0))) ⟨s.epc.sel, m⟩ :: k)) := State.serve_runsTo hen (if_pos hopen)
  exact (hwindow.trans (State.askByte_runsTo hen hb)).trans (State.putByte_runsTo hen h hl)

/-- Lines 9 to 12 until the bank is full. -/
theorem State.fillBank_runsTo (hen : s.engineEnabled = true) (h : s.selected.Fillable)
    (hl : s.selected.fifo.length + bs.length = bankBytes s.selected.size) (hb : s.env.inByte = bs ++ rest) :
    (s.goto (.serve (.window (decide (got = 0))) ⟨s.epc.sel, m⟩ :: k)).RunsTo (3 * bs.length + 1)
      ((s.bytesIn got bs rest).goto (.serve .commit ⟨s.epc.sel, m⟩ :: k)) := by
  induction bs generalizing s got with
  | nil =>
    have hfull : ¬ s.windowOpen = true := by rw [State.windowOpen_fillable h]; simpa using hl.ge
    rw [State.bytesIn_nil (rest := rest) hb]
    exact State.serve_runsTo hen (if_neg hfull)
  | cons b bs ih =>
    rw [List.length_cons] at hl
    have hroom : s.selected.fifo.length < bankBytes s.selected.size := by omega
    have hbyte := State.fillByte_runsTo (got := got) (m := m) (k := k) hen h hroom hb
    have hrest := ih (s := s.bytesIn got [b] (bs ++ rest)) (got := got + 1) hen
      (by rw [State.bytesIn_selected]; exact h.withFifo _)
      (by simp only [State.bytesIn_selected, List.length_append, List.length_singleton]; omega) rfl
    rw [State.bytesIn_cons, decide_eq_false got.succ_ne_zero] at hrest
    rw [List.length_cons, show 3 * (bs.length + 1) + 1 = 3 + (3 * bs.length + 1) by omega]
    exact hbyte.trans hrest

/-- From its direction on, an IN endpoint is filled and its bank committed (47 R332). -/
theorem State.serveIn_runsTo (hen : s.engineEnabled = true) (h : s.selected.Fillable) (hf : s.selected.fifo = [])
    (hl : bs.length = bankBytes s.selected.size) (hb : s.env.inByte = bs ++ rest) :
    (s.goto (.serve .direction ⟨s.epc.sel, m⟩ :: k)).RunsTo (3 * bs.length + 4)
      (State.goto
        { s.setSelected { s.selected with txin := false, inq := some bs } with
          env := { s.env with inByte := rest }
          calls := s.calls ++ perByte (fun _ => .endpointInByte s.epc.sel.val) 0 bs }
        (serveNext (s.epc.sel.val + 1) m :: k)) := by
  have hdirection : (s.goto (.serve .direction ⟨s.epc.sel, m⟩ :: k)).RunsTo 1
      (s.goto (.serve .ready ⟨s.epc.sel, m⟩ :: k)) := State.serve_runsTo hen (if_pos h.dir)
  have hready : (s.goto (.serve .ready ⟨s.epc.sel, m⟩ :: k)).RunsTo 1
      (s.goto (.serve (.window true) ⟨s.epc.sel, m⟩ :: k)) := State.serve_runsTo hen (if_pos h.txin)
  have hfill := State.fillBank_runsTo (got := 0) (m := m) (k := k) hen h (by simpa [hf] using hl) hb
  have hcommit := State.commit_runsTo (s := s.bytesIn 0 bs rest) (v := ⟨s.epc.sel, m⟩) (k := k) hen
    (by rw [State.bytesIn_selected]; exact h.withFifo _)
  have hempty : { s.selected with inq := some bs, fifo := [], txin := false } =
      { s.selected with txin := false, inq := some bs } := by rw [← hf]
  simp only [State.bytesIn_selected, State.bytesIn_setSelected, hf, List.nil_append] at hcommit
  rw [hempty] at hcommit
  have hall := ((hdirection.trans hready).trans hfill).trans hcommit
  rwa [show 1 + 1 + (3 * bs.length + 1) + 1 = 3 * bs.length + 4 by omega] at hall

/-! ## An OUT endpoint -/

/-- Line 14d: the byte read is the bank's first. -/
theorem State.getByte_runsTo (hen : s.engineEnabled = true) (he : s.selected.en = true)
    (hf : s.selected.fifo = b :: rest) :
    (s.goto (.serve (.getByte got n) v :: k)).RunsTo 1
      ((s.setSelected { s.selected with fifo := rest }).goto (.serve (.record got n b) v :: k)) :=
  State.serve_runsTo hen (by simp only [State.serveStep, State.fifoRead, State.goto_selected, he, hf]; rfl)

/-- Line 14d with `n` bytes still in the bank, or line 14g with none. -/
def drainNext (got n : Nat) : SvcLine := if n = 0 then .release else .getByte got n

/-- Lines 14d to 14f: a byte is read, recorded and told. -/
theorem State.drainByte_runsTo (hen : s.engineEnabled = true) (he : s.selected.en = true)
    (hf : s.selected.fifo = b :: rest) :
    (s.goto (.serve (.getByte got (n + 1)) ⟨s.epc.sel, m⟩ :: k)).RunsTo 3
      ((s.bytesOut got [b] rest).goto (.serve (drainNext (got + 1) n) ⟨s.epc.sel, m⟩ :: k)) := by
  have hget := State.getByte_runsTo (got := got) (n := n + 1) (v := ⟨s.epc.sel, m⟩) (k := k) hen he hf
  have hrecord := State.serve_runsTo (s := s.setSelected { s.selected with fifo := rest })
    (line := .record got (n + 1) b) (v := ⟨s.epc.sel, m⟩) (k := k) hen rfl
  have htell := State.serve_runsTo (line := .tellByte got (n + 1) b) (v := ⟨s.epc.sel, m⟩) (k := k)
    (s := (s.setSelected { s.selected with fifo := rest }).record (.outByte s.epc.sel.val b (decide (got = 0)))) hen rfl
  have hnext : drainNext (got + 1) n = if n + 1 ≤ 1 then .release else .getByte (got + 1) (n + 1 - 1) := by
    simp [drainNext]
  rw [hnext]
  exact (hget.trans hrecord).trans htell

/-- Lines 14d to 14f until the bank is empty. -/
theorem State.drainBank_runsTo (hen : s.engineEnabled = true) (he : s.selected.en = true) (hf : s.selected.fifo = bs) :
    (s.goto (.serve (drainNext got bs.length) ⟨s.epc.sel, m⟩ :: k)).RunsTo (3 * bs.length)
      ((s.bytesOut got bs []).goto (.serve .release ⟨s.epc.sel, m⟩ :: k)) := by
  induction bs generalizing s got with
  | nil => rw [State.bytesOut_nil hf]; exact State.RunsTo.refl _
  | cons b bs ih =>
    have hbyte := State.drainByte_runsTo (got := got) (m := m) (k := k) (n := bs.length) hen he hf
    have hrest := ih (s := s.bytesOut got [b] bs) (got := got + 1) hen (by rw [State.bytesOut_selected]; exact he)
      (by rw [State.bytesOut_selected])
    rw [State.bytesOut_cons] at hrest
    rw [show 3 * (b :: bs).length = 3 + 3 * bs.length by rw [List.length_cons]; omega]
    exact hbyte.trans hrest

/-- Line 14g: the bank is released, and the next endpoint follows. -/
theorem State.release_runsTo (hen : s.engineEnabled = true) (he : s.selected.en = true) (hx : s.selected.rxout = true) :
    (s.goto (.serve .release v :: k)).RunsTo 1
      ((s.setSelected { s.selected with fifo := [], rxout := false }).goto
        (serveNext (v.ep.val + 1) v.bound :: k)) :=
  State.serve_runsTo hen (by simp [State.serveStep, State.releaseOut_eq, he, hx])

/-- From its direction on, an OUT endpoint that has a packet is drained and its bank released (47 R333). -/
theorem State.serveOut_runsTo (hen : s.engineEnabled = true) (hd : s.selected.dir = .toDevice)
    (he : s.selected.en = true) (hx : s.selected.rxout = true) :
    (s.goto (.serve .direction ⟨s.epc.sel, m⟩ :: k)).RunsTo (3 * s.selected.fifo.length + 4)
      (State.goto
        { s.setSelected { s.selected with fifo := [], rxout := false } with
          trace := s.trace ++ perByte (.outByte s.epc.sel.val) 0 s.selected.fifo
          calls := s.calls ++ perByte (.endpointOutByte s.epc.sel.val) 0 s.selected.fifo }
        (serveNext (s.epc.sel.val + 1) m :: k)) := by
  have hnotIn : s.selected.dir ≠ .toHost := by rw [hd]; decide
  have hdirection : (s.goto (.serve .direction ⟨s.epc.sel, m⟩ :: k)).RunsTo 1
      (s.goto (.serve .arrived ⟨s.epc.sel, m⟩ :: k)) := State.serve_runsTo hen (if_neg hnotIn)
  have harrived : (s.goto (.serve .arrived ⟨s.epc.sel, m⟩ :: k)).RunsTo 1
      (s.goto (.serve .count ⟨s.epc.sel, m⟩ :: k)) := State.serve_runsTo hen (if_pos hx)
  have hcount : (s.goto (.serve .count ⟨s.epc.sel, m⟩ :: k)).RunsTo 1
      (s.goto (.serve (drainNext 0 s.selected.fifo.length) ⟨s.epc.sel, m⟩ :: k)) :=
    State.serve_runsTo hen (by
      by_cases h0 : s.selected.fifo.length = 0 <;> simp [State.serveStep, Ep.byteCount, drainNext, h0])
  have hdrain := State.drainBank_runsTo (got := 0) (m := m) (k := k) hen he rfl
  have hrelease := State.release_runsTo (s := s.bytesOut 0 s.selected.fifo []) (v := ⟨s.epc.sel, m⟩) (k := k) hen
    (by rw [State.bytesOut_selected]; exact he) (by rw [State.bytesOut_selected]; exact hx)
  simp only [State.bytesOut_selected, State.bytesOut_setSelected] at hrelease
  have hall := (((hdirection.trans harrived).trans hcount).trans hdrain).trans hrelease
  rwa [show 1 + 1 + 1 + 3 * s.selected.fifo.length + 1 = 3 * s.selected.fifo.length + 4 by omega] at hall

end Serve

/-- Settles O48: SEL, the two tests, three micro-steps for each byte until the window closes, and the commit. -/
theorem taskFillsInEndpoint : Obligations.TaskFillsInEndpoint := by
  intro s u k n m bs rest hch hk _ hdir hen htxin hrxstp hinq hf hb hl
  have hserve := State.serveIn_runsTo (s := { u with epc := { u.epc with sel := n } }) (m := m) (k := k) hk.1
    ⟨hdir, hen, htxin, hrxstp, hinq⟩ hf hl hb
  rw [step_serveSelect hch hk hserve, perByte_zero]
  rfl

/-- Settles O49: SEL, the two tests, the count, three micro-steps for each byte of the bank, and the release. -/
theorem taskDrainsOutEndpoint : Obligations.TaskDrainsOutEndpoint := by
  intro s u k n m hch hk hdir hen hx
  have hserve := State.serveOut_runsTo (s := { u with epc := { u.epc with sel := n } }) (m := m) (k := k) hk.1
    hdir hen hx
  rw [step_serveSelect hch hk hserve, perByte_zero, perByte_zero]
  rfl

end Sys2Proof.Machine
end

section
/-! PROOFS. The stop after a fault (O8), the engine where it has no move (O9), and the state at power-on with the invariants it
meets (O43, O58). -/

namespace Sys2Proof.Machine

/-! ## Faults (60 R355, R356) -/

/-- A micro-step starts with no fault recorded, so the one it may raise is the first, and its other changes record none. -/
theorem State.micro_faults {s t : State} (h : s.micro = some t) : t.faults = [] ∨ ∃ f, t = { s with faults := [f] } := by
  have hnone : s.faults = [] := (s.engineEnabled_iff.mp (State.micro_enabled h)).1
  rcases State.micro_stepsBy h with ⟨f, rfl⟩ | ⟨st, u, e, hu, rfl⟩
  · exact .inr ⟨f, State.raise_first hnone f⟩
  · obtain ⟨_, _, hfaults, _⟩ := hu.fixed
    exact .inl (hfaults.trans hnone)

/-- Settles O8: the route of a step looks at the faults first, and a micro-step raises at most the first of them. -/
theorem faultsStopAndArePrecise : Obligations.FaultsStopAndArePrecise :=
  ⟨fun _ _ _ h => step_fault h, fun _ _ h => State.micro_faults h⟩

/-! ## Holds (60 R358, R359) -/

section Holds

variable {s u : State} {n : Nat} {st : Stmt} {k : List Stmt}

/-- While the reset agent is enabled the engine's move is none (60 R359). -/
theorem step_resetPending (h : s.chooses (.engine n) u) (hp : u.epc.eorst = true ∧ u.epc.eorstEn = true) :
    step s = .next u := by
  obtain ⟨hf, hm⟩ := h
  have hen : u.engineEnabled = false := by simp [State.engineEnabled, Epc.resetEnabled, hp]
  simp only [step, State.route_take hf, hm, State.take, State.engineMove, hen, Bool.false_eq_true, if_false]

/-- Nor has the engine a move at a statement that has no micro-step (60 R358). -/
theorem step_held (h : s.chooses (.engine n) u) (hk : u.engineAt (st :: k))
    (hb : (Engine.busy (st :: k)).boundary = false) (hst : u.stmtStep st k = none) : step s = .next u := by
  have hheld : u.micro = none := (State.micro_busy hk.1 hk.2).trans hst
  rw [step_engine h hk hb, State.runEngine_held _ hheld]

variable {v : CiVars} {w : CoVars}

@[simp] theorem State.controlInStep_waitData_eq_none :
    s.controlInStep .waitData v k = none ↔ (s.ep 0).txin = false ∧ (s.ep 0).nakout = false := by
  simp [State.controlInStep]

@[simp] theorem State.controlInStep_waitZlp_eq_none :
    s.controlInStep .waitZlp v k = none ↔ (s.ep 0).txin = false ∧ (s.ep 0).nakout = false := by
  simp [State.controlInStep]

@[simp] theorem State.controlInStep_waitStatus_eq_none :
    s.controlInStep .waitStatus v k = none ↔ (s.ep 0).rxout = false := by
  simp [State.controlInStep]

@[simp] theorem State.controlOutStep_waitData_eq_none :
    s.controlOutStep .waitData w k = none ↔ (s.ep 0).rxout = false ∧ (s.ep 0).nakin = false := by
  simp [State.controlOutStep]

@[simp] theorem State.controlOutStep_waitReady_eq_none :
    s.controlOutStep .waitReady w k = none ↔ (s.ep 0).txin = false := by
  simp [State.controlOutStep]

@[simp] theorem State.controlOutStep_waitDone_eq_none :
    s.controlOutStep .waitDone w k = none ↔ (s.ep 0).txin = false := by
  simp [State.controlOutStep]

end Holds

/-- Settles O9: the engine is not enabled, or the line it is at has no micro-step. -/
theorem engineWaits : Obligations.EngineWaits := by
  intro s u n h
  refine ⟨step_resetPending h, ?inData, ?inZlp, ?inStatus, ?outData, ?outReady, ?outDone⟩
  case inData => exact fun _ _ hk ht hn => step_held h hk rfl (State.controlInStep_waitData_eq_none.mpr ⟨ht, hn⟩)
  case inZlp => exact fun _ _ hk ht hn => step_held h hk rfl (State.controlInStep_waitZlp_eq_none.mpr ⟨ht, hn⟩)
  case inStatus => exact fun _ _ hk hr => step_held h hk rfl (State.controlInStep_waitStatus_eq_none.mpr hr)
  case outData => exact fun _ _ hk hr hn => step_held h hk rfl (State.controlOutStep_waitData_eq_none.mpr ⟨hr, hn⟩)
  case outReady => exact fun _ _ hk ht => step_held h hk rfl (State.controlOutStep_waitReady_eq_none.mpr ht)
  case outDone => exact fun _ _ hk ht => step_held h hk rfl (State.controlOutStep_waitDone_eq_none.mpr ht)

/-! ## Power-on (70 R390, R391) -/

theorem State.reset_ep (n : EpNum) : State.reset.ep n = Ep.blank := Eps.get_blank n

theorem State.reset_cont : State.reset.cont = [] := rfl

/-- Settles O43: the registers by definition, every endpoint blank, and RAM empty. -/
theorem powerOnValues : Obligations.PowerOnValues :=
  ⟨rfl, rfl, State.reset_ep, rfl, fun _ => rfl, rfl, rfl, rfl⟩

/-! ## The invariants at power-on -/

theorem State.reset_disabledQuiet : State.reset.DisabledQuiet := fun n => by
  rw [State.reset_ep]
  exact fun _ => ⟨rfl, rfl, rfl, rfl, rfl, rfl, rfl, rfl⟩

theorem State.reset_banksOwned : State.reset.BanksOwned := by
  refine ⟨fun n => ?_, fun n _ => ?_⟩ <;> rw [State.reset_ep]
  · exact Ep.owned_of_no_setup rfl fun _ => rfl
  · rfl

/-- Endpoint 0 is disabled, and no endpoint is configured. -/
theorem State.reset_packetSizeAgrees : State.reset.PacketSizeAgrees := ⟨nofun, Nat.zero_le 4⟩

/-- Settles O58: every endpoint is blank, and the engine has nothing to run. -/
theorem invariantsHoldAtReset : Obligations.InvariantsHoldAtReset := by
  obtain ⟨hrom, hram⟩ := State.reset_memories_wf
  exact ⟨hrom, hram, State.reset_disabledQuiet, State.reset_banksOwned, ⟨trivial, State.reset_packetSizeAgrees⟩,
    State.stateMachineInv_of_empty State.reset_cont, trivial, State.selectionInv_of_empty State.reset_cont⟩

end Sys2Proof.Machine
end
